-- ==== Sys2Proof/Word.lean ====
section
/-! DEFINITION. The widths the spec gives: a byte of 8 bits (00_scope R8) and a 32-bit header field (41_header_codec R140).
The wrapping `+8` and `-8` of 00_scope R9 are `+` and `-` of `Byte`. -/

namespace Sys2Proof

/-- One byte; bit 7 is the most significant (00_scope R8). -/
abbrev Byte := BitVec 8

/-- A 32-bit unsigned header field, width or height (10_state R20). -/
abbrev Word32 := BitVec 32

end Sys2Proof
end

