-- ==== Sys2Proof/Syntax.lean ====
section
/-! DEFINITION. The instruction set: the six opcodes of the QOI stream (30_encoding R81), one constructor per row of
spec/opcode_table.json, with the operands as the assembler syntax of 30_encoding R95 writes them. -/

namespace Sys2Proof

/-- One opcode of the stream. -/
inductive Instr where
  /-- `INDEX i`: a cache slot 0..63 (R83). -/
  | index (i : Fin 64)
  /-- `DIFF dr, dg, db`: three deltas, each -2..1 (R84). -/
  | diff (dr dg db : Int)
  /-- `LUMA dg, drg, dbg`: the green delta -32..31, and the red and blue deltas minus the green one, -8..7 (R85). -/
  | luma (dg drg dbg : Int)
  /-- `RUN len`: the run length 1..62, the payload plus one (R86). -/
  | run (len : Nat)
  /-- `RGB r, g, b` (R87). -/
  | rgb (r g b : Byte)
  /-- `RGBA r, g, b, a` (R88). -/
  | rgba (r g b a : Byte)
  deriving DecidableEq, Repr

end Sys2Proof
end

