-- ==== Sys2Proof/WellFormed.lean ====
section
/-! DEFINITION. Which operands an opcode can carry: the ranges of 30_encoding R95 ("An assembler refuses an operand outside its
range"). -/

namespace Sys2Proof

/-- `lo ≤ x ≤ hi`. -/
def inRange (lo hi x : Int) : Bool := decide (lo ≤ x) && decide (x ≤ hi)

/-- The operand ranges of 30_encoding R95, opcode by opcode. The slot of INDEX and the bytes of RGB and RGBA are in range by their
types. -/
def Instr.wf : Instr → Bool
  | .index _ => true
  | .diff dr dg db => inRange (-2) 1 dr && inRange (-2) 1 dg && inRange (-2) 1 db
  | .luma dg drg dbg => inRange (-32) 31 dg && inRange (-8) 7 drg && inRange (-8) 7 dbg
  | .run len => decide (1 ≤ len) && decide (len ≤ 62)
  | .rgb _ _ _ => true
  | .rgba _ _ _ _ => true

/-- The instruction's operands are in the ranges of 30_encoding R95. -/
abbrev WellFormed (i : Instr) : Prop := i.wf = true

end Sys2Proof
end

