-- ==== Sys2Proof/Decode.lean ====
section
/-! DEFINITION. From bytes to opcodes and back (30_encoding R80 to R95). Decoding takes the bytes that are left in the stream and
answers the opcode at their head with its length, or says by name that the bytes run out (R91: no tag byte is illegal). The encoder
is the assembler of R95. -/

namespace Sys2Proof

/-- Why no opcode could be read: the only two ways (30_encoding R91, 46_decoder R283). -/
inductive DecodeError where
  /-- No byte is left (R283 (a)). -/
  | noByte
  /-- The tag byte announces `need` bytes and only `have_` are left (R283 (b)). -/
  | truncated (need have_ : Nat)
  deriving DecidableEq, Repr

/-- `len(t)`: the length of the opcode whose tag byte is `t` (30_encoding R82). -/
def opLen (t : Byte) : Nat :=
  if t.extractLsb' 6 2 = 0#2 then 1
  else if t.extractLsb' 6 2 = 1#2 then 1
  else if t.extractLsb' 6 2 = 2#2 then 2
  else if t = 0xFE#8 then 4
  else if t = 0xFF#8 then 5
  else 1

/-- `zext_N` of the field of `width` bits whose lowest bit is `lo` (00_scope R8, R9). -/
def zextField (b : Byte) (lo width : Nat) : Nat := (b.extractLsb' lo width).toNat

/-- A biased field: the unsigned field minus its bias (30_encoding R84, R85). -/
def biased (b : Byte) (lo width bias : Nat) : Int := (zextField b lo width : Int) - bias

/-- Data byte `j` of an opcode (byte `j + 1` of R81); the caller has checked that it is there. -/
def dataByte (d : List Byte) (j : Nat) : Byte := d.getD j 0

/-- The opcode with tag byte `t` and data bytes `d`. The tags 0xFE and 0xFF are tested before the `11` range (30_encoding R89, R90). -/
def opOf (t : Byte) (d : List Byte) : Instr :=
  if t = 0xFE#8 then .rgb (dataByte d 0) (dataByte d 1) (dataByte d 2)
  else if t = 0xFF#8 then .rgba (dataByte d 0) (dataByte d 1) (dataByte d 2) (dataByte d 3)
  else if t.extractLsb' 6 2 = 0#2 then .index (t.extractLsb' 0 6).toFin
  else if t.extractLsb' 6 2 = 1#2 then .diff (biased t 4 2 2) (biased t 2 2 2) (biased t 0 2 2)
  else if t.extractLsb' 6 2 = 2#2 then .luma (biased t 0 6 32) (biased (dataByte d 0) 4 4 8) (biased (dataByte d 0) 0 4 8)
  else .run (zextField t 0 6 + 1)

/-- The opcode at the head of the bytes left, with its length in bytes. -/
def decode : List Byte → Except DecodeError (Instr × Nat)
  | [] => .error .noByte
  | t :: d =>
    if d.length + 1 < opLen t then .error (.truncated (opLen t) (d.length + 1))
    else .ok (opOf t d, opLen t)

/-- A field of an encoded byte: `v` plus its bias, moved up by `lo` bits (30_encoding R84, R85: the inverse of `biased`). -/
def biasField (v : Int) (bias lo : Nat) : Byte := BitVec.ofInt 8 (v + bias) <<< lo

/-- The bytes of an opcode (30_encoding R81, R84, R95). -/
def encode : Instr → List Byte
  | .index i => [BitVec.ofNat 8 i.val]
  | .diff dr dg db => [0x40#8 ||| biasField dr 2 4 ||| biasField dg 2 2 ||| biasField db 2 0]
  | .luma dg drg dbg => [0x80#8 ||| biasField dg 32 0, biasField drg 8 4 ||| biasField dbg 8 0]
  | .run len => [0xC0#8 ||| BitVec.ofNat 8 (len - 1)]
  | .rgb r g b => [0xFE#8, r, g, b]
  | .rgba r g b a => [0xFF#8, r, g, b, a]

/-- The ASCII codes of "qoif" (30_encoding R93). -/
def magic : List Byte := [0x71#8, 0x6F#8, 0x69#8, 0x66#8]

/-- `HDR_LEN` (00_scope R6). -/
def hdrLen : Nat := 14

/-- The end marker (30_encoding R94). -/
def trailer : List Byte := [0, 0, 0, 0, 0, 0, 0, 1]

/-- The four bytes of a 32-bit integer, most significant first (20_memory R53). -/
def be32 (v : Word32) : List Byte :=
  [v.extractLsb' 24 8, v.extractLsb' 16 8, v.extractLsb' 8 8, v.extractLsb' 0 8]

/-- `u32be` (00_scope R9). -/
def u32be (b0 b1 b2 b3 : Byte) : Word32 := b0 ++ b1 ++ b2 ++ b3

/-- The 14 header bytes of the fields, channels and colour space given as bytes (30_encoding R93). -/
def headerLayout (w h : Word32) (ch cs : Byte) : List Byte := magic ++ be32 w ++ be32 h ++ [ch, cs]

/-- One line of an assembly listing (30_encoding R95). -/
inductive AsmLine where
  | op (i : Instr)
  /-- `.header w, h, ch, cs` -/
  | header (w h : Word32) (ch cs : Nat)
  /-- `.trailer` -/
  | trailer
  deriving DecidableEq, Repr

/-- Assembling one line; an operand outside its range is refused (30_encoding R95; the header's legal values: R93). -/
def assembleLine : AsmLine → Option (List Byte)
  | .op i => if i.wf then some (encode i) else none
  | .header w h ch cs =>
    if (ch = 3 ∨ ch = 4) ∧ (cs = 0 ∨ cs = 1) then some (headerLayout w h (BitVec.ofNat 8 ch) (BitVec.ofNat 8 cs)) else none
  | .trailer => some Sys2Proof.trailer

/-- Assembling a listing: the lines' bytes in order. -/
def assemble : List AsmLine → Option (List Byte)
  | [] => some []
  | l :: ls =>
    match assembleLine l, assemble ls with
    | some b, some bs => some (b ++ bs)
    | _, _ => none

/-- The longest opcode, in bytes (30_encoding R80). -/
def maxOpLen : Nat := 5

/-- The first `n` bytes of a number, the least significant first: the table numbers bit 0 as the least significant bit of the first
byte, and each later byte's bits count on. -/
def bytesOfWord : Nat → Nat → List Byte
  | 0, _ => []
  | n + 1, w => BitVec.ofNat 8 w :: bytesOfWord n (w / 256)

/-- The bytes of a row's word as the stream holds them, up to the longest opcode; bits above `nbits` are 0. -/
def tableBytes (nbits w : Nat) : List Byte := bytesOfWord maxOpLen (w % 2 ^ nbits)

/-- The opcode the decoder reads from a word of the opcode table. -/
def decodeTableWord (nbits w : Nat) : Option Instr :=
  match decode (tableBytes nbits w) with
  | .ok r => some r.1
  | .error _ => none

/-- A row of the mask and match table of 30_encoding R90. -/
structure OpRow where
  mnemonic : String
  mask : Byte
  pattern : Byte
  excluded : List Byte
  deriving DecidableEq, Repr

/-- Whether a row takes a tag byte. -/
def OpRow.takes (r : OpRow) (t : Byte) : Bool := decide (t &&& r.mask = r.pattern) && !r.excluded.contains t

/-- The six rows of 30_encoding R90. -/
def opRows : List OpRow :=
  [ ⟨"INDEX", 0xC0, 0x00, []⟩, ⟨"DIFF", 0xC0, 0x40, []⟩, ⟨"LUMA", 0xC0, 0x80, []⟩,
    ⟨"RGB", 0xFF, 0xFE, []⟩, ⟨"RGBA", 0xFF, 0xFF, []⟩, ⟨"RUN", 0xC0, 0xC0, [0xFE, 0xFF]⟩ ]

/-- The mnemonic of an opcode, as spec/opcode_table.json spells it. -/
def Instr.mnemonic : Instr → String
  | .index _ => "INDEX"
  | .diff _ _ _ => "DIFF"
  | .luma _ _ _ => "LUMA"
  | .run _ => "RUN"
  | .rgb _ _ _ => "RGB"
  | .rgba _ _ _ _ => "RGBA"

/-- The length of an opcode in bytes (30_encoding R81). -/
def Instr.length : Instr → Nat
  | .index _ => 1
  | .diff _ _ _ => 1
  | .luma _ _ _ => 2
  | .run _ => 1
  | .rgb _ _ _ => 4
  | .rgba _ _ _ _ => 5

end Sys2Proof
end

