-- ==== Sys2Proof/Config.lean ====
section
/-! DEFINITION. What an implementation fixes: the open parameters of 00_scope R7, and the free values (93_implementation_defined U1 to U3).
The parameters stand in State (`State.params`), which no step changes, so every claim about all states is a claim about all
parameter values. -/

namespace Sys2Proof

/-- `RUN1_POLICY` (00_scope R7, 44_run_length R224 and R225): how the encoder writes a run of one pixel. -/
inductive Run1Policy where
  /-- A run of one goes through the ladder as an INDEX or a zero DIFF (R225); the default. -/
  | fold
  /-- A run of one is the opcode RUN with payload 0 (R224). -/
  | run
  deriving DecidableEq, Repr

/-- The open parameters of 00_scope R7. -/
structure Params where
  run1Policy : Run1Policy
  /-- `MAX_IN_LEN` -/
  maxInLen : Nat
  /-- `MAX_OUT_LEN` -/
  maxOutLen : Nat
  /-- `MAX_PIX_LEN` -/
  maxPixLen : Nat
  deriving DecidableEq, Repr

/-- The parameters at power-on: `FOLD` is the spec's default (00_scope R7); the three limits are open there.
DESIGN CHOICE (log 5), safe: every claim about all states holds for every value of the limits. -/
def Params.default : Params :=
  { run1Policy := .fold, maxInLen := 2 ^ 32 - 1, maxOutLen := 2 ^ 32 - 1, maxPixLen := 2 ^ 32 - 1 }

/-- The free values: byte number `n` of an endless sequence nothing constrains (60_exceptions R330: "each unspecified byte as an
arbitrary value drawn at the error"; 10_state R34). It has no body, so no proof can see a value of it (log 3, safe). -/
opaque Config.freeByte : Nat → Byte

end Sys2Proof
end

