-- ==== Sys2Proof/Machine/Types.lean ====
section
/-! DEFINITION. The kinds of data the machine holds: pixels, header, stream state, status codes, buffers, commands and replies. -/

namespace Sys2Proof.Machine

/-- `CFG.CH`, the channels of a pixel; only 3 and 4 are legal (10_state R24). -/
inductive Channels where
  | three
  | four
  deriving DecidableEq, Repr

/-- `CFG.CS`, the colour-space tag, 0 or 1; an opaque tag (30_encoding R93). -/
inductive ColorSpace where
  | zero
  | one
  deriving DecidableEq, Repr

/-- The source's channel modes (10_state R22). -/
inductive ChannelMode where
  | rgb
  | rgba
  | rgbLinearAlphaUnused
  | rgbaLinear
  deriving DecidableEq, Repr

/-- A pixel register: four lanes in both channel modes (00_scope R11). -/
structure Pixel where
  r : Byte
  g : Byte
  b : Byte
  a : Byte
  deriving DecidableEq, Repr

/-- `CFG`, the image header (10_state R22). -/
structure Header where
  w : Word32
  h : Word32
  ch : Channels
  cs : ColorSpace
  deriving DecidableEq, Repr

/-- `DIR` (10_state R29). -/
inductive Dir where
  | none
  | enc
  | dec
  deriving DecidableEq, Repr

/-- The direction STREAM_INIT takes: ENC or DEC (10_state R30). -/
inductive StreamDir where
  | enc
  | dec
  deriving DecidableEq, Repr

/-- The seven errors (60_exceptions R322). -/
inductive ErrorCode where
  | notEnoughData
  | invalidMagic
  | invalidChannelsValue
  | invalidColorSpaceValue
  | outputIsTooSmallD
  | notEnoughPixelData
  | outputIsTooSmallE
  deriving DecidableEq, Repr

/-- `STATUS` (10_state R31): the outcome of the last command that completed or failed. -/
inductive Status where
  | ok
  | error (e : ErrorCode)
  deriving DecidableEq, Repr

/-- The stream state (10_state R25 to R28). -/
structure StreamState where
  cache : Vector Pixel 64
  prev : Pixel
  /-- `RUN`, six bits (10_state R27) -/
  run : BitVec 6
  started : Bool
  deriving DecidableEq, Repr

/-- Host memory: address and byte, addresses strictly rising, no entry equal to what an unlisted address reads as (log 2). -/
abbrev Memory := List Host.Cell

/-- A byte buffer the host gives a command: `len` bytes of host memory from `base` (20_memory R50; log 2). Offset `o` of the
buffer is the byte at `base + o`. -/
structure Region where
  base : Nat
  len : Nat
  deriving DecidableEq, Repr

/-- The buffers and cursors of the running command (10_state R32, 20_memory R50). -/
structure Launch where
  inBuf : Region
  outBuf : Region
  pixBuf : Region
  inPos : Nat
  outPos : Nat
  pixPos : Nat
  deriving DecidableEq, Repr

/-- The commands of 60_exceptions R320, with their operands; `other` is a command outside that table (60_exceptions R329 (d)). -/
inductive Command where
  | reset
  | setHeader (w h : Word32) (ch cs : Nat)
  | hdrEnc (out : Region)
  | hdrDec (inp : Region)
  | getHeader
  | getStatus
  | streamInit (d : StreamDir)
  | streamClose
  | encRange (pix out : Region)
  | encFinish (out : Region)
  | enc (pix out : Region)
  | decRange (inp pix : Region)
  | decBody (inp pix : Region)
  | dec (inp pix : Region)
  | other (number : Nat)
  deriving DecidableEq, Repr

/-- What the host does between two commands: it issues the next command, or writes a byte of its memory (20_memory R61, 70 R367). -/
inductive HostMove where
  | issue (c : Command)
  | write (addr : Nat) (b : Byte)
  deriving DecidableEq, Repr

/-- What a command returns (60_exceptions R321). -/
inductive Reply where
  /-- No command has returned yet. -/
  | none
  /-- The command succeeded and returns no value. -/
  | done
  /-- A byte count (45_encoder R256, 46_decoder R293, R294; 41_header_codec R141). -/
  | count (n : Nat)
  /-- A header (41_header_codec R143, R145; 46_decoder R295). -/
  | header (h : Header)
  /-- The status (60_exceptions R339). -/
  | status (st : Status)
  /-- The command raised an error; its result is not delivered (60_exceptions R328). -/
  | error (e : ErrorCode)
  deriving DecidableEq, Repr

end Sys2Proof.Machine
end

