-- ==== Sys2Proof/Machine/State.lean ====
section
/-! DEFINITION. The state of the codec block (10_state R20), the host state its rules read and write, the state after power-on
reset, and the reasons a step can stop. -/

namespace Sys2Proof.Machine

/-- The reasons the machine stops with a fault: an access at an offset at or beyond a buffer's length, which the spec says is never
issued (20_memory R50, R63). `step` never answers one; a meaning run outside the command that checks the lengths for it can. Safe: the
model stops where the spec gives no access. -/
inductive Fault where
  /-- Raised by emitting a byte past the end of `OUT`. Safe. -/
  | outsideOut
  /-- Raised by reading or writing a pixel past the end of `PIX`. Safe. -/
  | outsidePix
  deriving DecidableEq, Repr

/-- The reasons a command is refused (60_exceptions R329): "The model gives a command no meaning, and takes no step". Each is raised
by `issue`, before any line of the command runs (R324). Safe, as the spec says there: nothing can be proved of a run that issues a
refused command. -/
inductive Refusal where
  /-- An opcode whose meaning is not written; raised by no arm of `exec`. -/
  | notModelled (mnemonic : String)
  /-- `CFG_VALID = 0` and the command needs a header (R320). -/
  | noHeader
  /-- `DIR` is not NONE and the command needs it to be (70 R366). -/
  | streamOpen
  /-- `DIR` is not the direction the chunk command needs (70 R365). -/
  | wrongDirection
  /-- `PIX_LEN` is no multiple of `CFG.CH` (45_encoder R250, 46_decoder R280). -/
  | splitPixel
  /-- SET_HEADER with channels other than 3 and 4 or a colour space other than 0 and 1 (41_header_codec R140). -/
  | illegalHeaderField
  /-- A buffer longer than its limit (R329 (b)). -/
  | bufferTooLong
  /-- Two buffer operands overlap (R329 (c)). -/
  | buffersOverlap
  /-- Not a command of R320 (R329 (d)). -/
  | notACommand
  deriving DecidableEq, Repr

/-- Everything the machine holds. The first six fields are the block's own state (10_state R20); `launch` is the running command's
buffers and cursors (10_state R32); the rest is the host's side and the model's own fields. -/
structure State where
  /-- `CFG_VALID` -/
  cfgValid : Bool
  /-- `CFG` -/
  cfg : Header
  /-- `DIR` -/
  dir : Dir
  /-- `CACHE`, `PREV`, `RUN`, `STARTED` -/
  stream : StreamState
  /-- `STATUS` -/
  status : Status
  /-- the cursors and buffers of the running command; empty between commands -/
  launch : Launch
  /-- host memory, where the buffers lie -/
  mem : Memory
  /-- the host's coming moves, the next one first -/
  pending : List HostMove
  /-- what the last command returned -/
  reply : Reply
  /-- the open parameters of 00_scope R7; no step changes them -/
  params : Params
  /-- the model's own: the next unused free value (log 3) -/
  draw : Nat
  deriving DecidableEq, Repr

/-- No command is running: no buffers, every cursor 0 (10_state R32, R33). -/
def Launch.idle : Launch := ⟨⟨0, 0⟩, ⟨0, 0⟩, ⟨0, 0⟩, 0, 0, 0⟩

/-- The machine right after power-on reset (10_state R34). The spec gives `CFG_VALID`, `DIR` and `STATUS`; the values of `CFG` and of
the stream state are unspecified there and are DESIGN CHOICE (log 1, unsafe): zero, and for `CFG.CH`, whose zero is not a legal
value, 3. -/
def State.reset : State :=
  { cfgValid := false
    cfg := { w := 0, h := 0, ch := .three, cs := .zero }
    dir := .none
    stream := { cache := Vector.replicate 64 ⟨0, 0, 0, 0⟩, prev := ⟨0, 0, 0, 0⟩, run := 0, started := false }
    status := .ok
    launch := Launch.idle
    mem := []
    pending := []
    reply := .none
    params := Params.default
    draw := 0 }

end Sys2Proof.Machine
end

