-- ==== Sys2Proof/Machine/Operands.lean ====
section
/-! DEFINITION. The pixel ALU (40_pixel_model) and the operand forms of the opcodes and of the header fields: how each is read and
how it is written. -/

namespace Sys2Proof.Machine

/-- Bytes per pixel (10_state R22). -/
def Channels.bytes : Channels → Nat
  | .three => 3
  | .four => 4

/-- The channel count a number stands for; only 3 and 4 are legal (10_state R24). -/
def Channels.ofNat? (n : Nat) : Option Channels :=
  if n = 3 then some .three else if n = 4 then some .four else none

/-- The colour-space tag as a number (30_encoding R93). -/
def ColorSpace.toNat : ColorSpace → Nat
  | .zero => 0
  | .one => 1

/-- The colour-space tag a number stands for; only 0 and 1 are legal (10_state R24). -/
def ColorSpace.ofNat? (n : Nat) : Option ColorSpace :=
  if n = 0 then some .zero else if n = 1 then some .one else none

/-- The pair `(CH, CS)` of a channel mode (10_state R22). -/
def ChannelMode.pair : ChannelMode → Channels × ColorSpace
  | .rgb => (.three, .zero)
  | .rgba => (.four, .zero)
  | .rgbLinearAlphaUnused => (.three, .one)
  | .rgbaLinear => (.four, .one)

/-- `NBYTES`, exact (10_state R24). -/
def Header.nbytes (h : Header) : Nat := h.w.toNat * h.h.toNat * h.ch.bytes

/-- `NEW()` (R110). -/
def Pixel.new : Pixel := ⟨0, 0, 0, 0⟩

/-- `NEW_OPAQUE()`, the seed (R110). -/
def Pixel.newOpaque : Pixel := ⟨0, 0, 0, 255⟩

/-- `EQ(p, q)` under the channel mode (R111). -/
def Pixel.eqIn (ch : Channels) (p q : Pixel) : Bool :=
  decide (p.r = q.r) && decide (p.g = q.g) && decide (p.b = q.b) && (decide (ch = .three) || decide (p.a = q.a))

/-- `ADD_RGB`: integer deltas, each applied modulo 256; alpha untouched (R112). -/
def Pixel.addRgb (p : Pixel) (dr dg db : Int) : Pixel :=
  ⟨p.r + BitVec.ofInt 8 dr, p.g + BitVec.ofInt 8 dg, p.b + BitVec.ofInt 8 db, p.a⟩

/-- `SET_RGB` (R113). -/
def Pixel.setRgb (p : Pixel) (r g b : Byte) : Pixel := ⟨r, g, b, p.a⟩

/-- `SET_RGBA`: with three channels the alpha is discarded (R113). -/
def Pixel.setRgba (ch : Channels) (p : Pixel) (r g b a : Byte) : Pixel :=
  match ch with
  | .four => ⟨r, g, b, a⟩
  | .three => ⟨r, g, b, p.a⟩

/-- The raw delta of two pixels, per channel, modulo 256. -/
structure Delta where
  vr : Byte
  vg : Byte
  vb : Byte
  deriving DecidableEq, Repr

/-- `VAR(p, prev)` (R114). -/
def Pixel.var (p prev : Pixel) : Delta := ⟨p.r - prev.r, p.g - prev.g, p.b - prev.b⟩

/-- `HASH_FN` (R116), the sum exact; the multipliers are the spec's decision D4 (log 6). -/
def hashFn (r g b a : Byte) : Fin 64 := Fin.ofNat 64 (3 * r.toNat + 5 * g.toNat + 7 * b.toNat + 11 * a.toNat)

/-- `HASH(p)`: alpha is read as 255 with three channels (R115). -/
def Pixel.hash (ch : Channels) (p : Pixel) : Fin 64 :=
  match ch with
  | .four => hashFn p.r p.g p.b p.a
  | .three => hashFn p.r p.g p.b 255

/-- The pixel whose `CH` bytes are `bs`: with three channels the alpha lane is 255 (R118). -/
def Pixel.ofBytes (ch : Channels) (bs : List Byte) : Pixel :=
  match ch with
  | .four => ⟨bs.getD 0 0, bs.getD 1 0, bs.getD 2 0, bs.getD 3 0⟩
  | .three => ⟨bs.getD 0 0, bs.getD 1 0, bs.getD 2 0, 255⟩

/-- The `CH` bytes a pixel is stored as (R119, 20_memory R51). -/
def Pixel.toBytes (ch : Channels) (p : Pixel) : List Byte :=
  match ch with
  | .four => [p.r, p.g, p.b, p.a]
  | .three => [p.r, p.g, p.b]

/-- The pixel INDEX reads from a slot: with three channels the alpha of `PREV` is kept (46_decoder R284). -/
def Pixel.fromSlot (ch : Channels) (prev c : Pixel) : Pixel :=
  match ch with
  | .four => c
  | .three => ⟨c.r, c.g, c.b, prev.a⟩

end Sys2Proof.Machine
end

