-- ==== Sys2Proof/Machine/Flags.lean ====
section
/-! DEFINITION. The tests the rules decide on: the classifier's fit predicates (42 R173, R175), the cache hit (43 R200), the status
code (60_exceptions R322). The block has no arithmetic flags (10_state R20). -/

namespace Sys2Proof.Machine

/-- `DIFF_FITS` (42_delta_classifier R173). -/
def Delta.diffFits (v : Delta) : Bool :=
  decide ((v.vr + 2).toNat ≤ 3) && decide ((v.vg + 2).toNat ≤ 3) && decide ((v.vb + 2).toNat ≤ 3)

/-- `LUMA_FITS` (42_delta_classifier R175). -/
def Delta.lumaFits (v : Delta) : Bool :=
  decide ((v.vg + 32).toNat ≤ 63) && decide ((v.vr - v.vg + 8).toNat ≤ 15) && decide ((v.vb - v.vg + 8).toNat ≤ 15)

/-- The cache hit test: the one slot `HASH(px)` holds a pixel equal to `px` (43_cache_index R200). -/
def StreamState.hits (ch : Channels) (st : StreamState) (px : Pixel) : Bool := (st.cache[px.hash ch]).eqIn ch px

/-- The code of an error (60_exceptions R322). -/
def ErrorCode.code : ErrorCode → BitVec 3
  | .notEnoughData => 1
  | .invalidMagic => 2
  | .invalidChannelsValue => 3
  | .invalidColorSpaceValue => 4
  | .outputIsTooSmallD => 5
  | .notEnoughPixelData => 6
  | .outputIsTooSmallE => 7

/-- The three bits of `STATUS` (60_exceptions R322). -/
def Status.code : Status → BitVec 3
  | .ok => 0
  | .error e => e.code

/-- The direction register for a stream direction. -/
def StreamDir.toDir : StreamDir → Dir
  | .enc => .enc
  | .dec => .dec

end Sys2Proof.Machine
end

