-- ==== Sys2Proof/Machine/Ops.lean ====
section
/-! DEFINITION. The named operations over memory, buffers, registers and free values, and raising an error (60_exceptions R330), which
is this block's only exceptional event (R331: there is no trap entry, no handler and no return from one). -/

namespace Sys2Proof.Machine

/-! ### Host memory -/

/-- What an address that is not listed reads as. DESIGN CHOICE (log 2), unsafe: the spec says nothing of bytes the host has not placed. -/
def Memory.unlisted : Byte := 0

/-- The byte at an address. -/
def Memory.read : Memory → Nat → Byte
  | [], _ => Memory.unlisted
  | c :: m, a => if c.1 = a then c.2 else Memory.read m a

/-- Puts a cell in its place by address. -/
def Memory.insert (c : Host.Cell) : Memory → Memory
  | [] => [c]
  | d :: m => if c.1 < d.1 then c :: d :: m else d :: Memory.insert c m

/-- Memory without a cell for the address. -/
def Memory.erase (m : Memory) (a : Nat) : Memory := m.filter fun c => !decide (c.1 = a)

/-- Writes one byte, keeping the canonical form. -/
def Memory.write (m : Memory) (a : Nat) (b : Byte) : Memory :=
  if b = Memory.unlisted then m.erase a else Memory.insert (a, b) (m.erase a)

/-- The canonical form: addresses strictly rising, and no entry equal to what an unlisted address reads as. -/
def Memory.wf (m : Memory) : Bool :=
  decide (m.Pairwise fun c d => c.1 < d.1) && m.all fun c => !decide (c.2 = Memory.unlisted)

/-- `MemRead`: `n` bytes from `a` on, in increasing order (20_memory R56). -/
def Memory.readBytes (m : Memory) (a : Nat) : Nat → List Byte
  | 0 => []
  | n + 1 => m.read a :: Memory.readBytes m (a + 1) n

/-- `MemWrite`: the bytes from `a` on, in increasing order (20_memory R56). -/
def Memory.writeBytes (m : Memory) (a : Nat) : List Byte → Memory
  | [] => m
  | b :: bs => Memory.writeBytes (m.write a b) (a + 1) bs

/-! ### Buffers -/

/-- The sub-buffer of `len` bytes from offset `o` on, with its own offset 0 there (45_encoder R255). -/
def Region.sub (r : Region) (o len : Nat) : Region := ⟨r.base + o, len⟩

/-- Whether an address lies in the buffer. -/
def Region.holds (r : Region) (a : Nat) : Bool := decide (r.base ≤ a) && decide (a < r.base + r.len)

/-- Whether two buffers share a byte (20_memory R61). -/
def Region.overlaps (r q : Region) : Bool :=
  decide (max r.base q.base < min (r.base + r.len) (q.base + q.len))

/-- Starting a command on its buffers: every cursor is 0 (10_state R32). -/
def State.start (s : State) (inp out pix : Region) : State := { s with launch := ⟨inp, out, pix, 0, 0, 0⟩ }

/-- A buffer the command does not use. -/
def Region.empty : Region := ⟨0, 0⟩

/-! ### Inside a command -/

/-- How a command's pseudocode ends before its last line: it raises an error in some state (00_scope R10), or an opcode stopped. -/
inductive Halt where
  | raised (e : ErrorCode) (s : State)
  | fault (f : Fault)
  | refused (r : Refusal)
  deriving DecidableEq, Repr

/-- A piece of a command's pseudocode: it goes on with a value, or it ends. -/
abbrev Attempt (α : Type) := Except Halt α

/-- Going on after an opcode's meaning. -/
def Attempt.ofOutcome : Host.Outcome State Fault Refusal → Attempt State
  | .next s => .ok s
  | .fault f => .error (.fault f)
  | .refused r => .error (.refused r)

/-- `emit`, for bytes in order: they go to `OUT` at `OUT_POS`, which moves past them (00_scope R10). -/
def emit (bs : List Byte) (s : State) : Attempt State :=
  if s.launch.outPos + bs.length ≤ s.launch.outBuf.len then
    .ok { s with
      mem := s.mem.writeBytes (s.launch.outBuf.base + s.launch.outPos) bs
      launch := { s.launch with outPos := s.launch.outPos + bs.length } }
  else .error (.fault .outsideOut)

/-- The number of the pixel at `PIX_POS` (46_decoder: `k = PIX_POS / CH`). -/
def State.pixelNumber (s : State) : Nat := s.launch.pixPos / s.cfg.ch.bytes

/-- The address of pixel `k` of `PIX` (20_memory R51). -/
def State.pixelAddr (s : State) (k : Nat) : Nat := s.launch.pixBuf.base + k * s.cfg.ch.bytes

/-- Whether `PIX` holds all `CH` bytes of pixel `k`. -/
def State.hasPixel (s : State) (k : Nat) : Bool := decide (k * s.cfg.ch.bytes + s.cfg.ch.bytes ≤ s.launch.pixBuf.len)

/-- `LOAD_PIXEL(k)` (R118). -/
def loadPixel (k : Nat) (s : State) : Attempt Pixel :=
  if s.hasPixel k then .ok (Pixel.ofBytes s.cfg.ch (s.mem.readBytes (s.pixelAddr k) s.cfg.ch.bytes))
  else .error (.fault .outsidePix)

/-- `STORE_PIXEL(k, p)` (R119). -/
def storePixel (k : Nat) (p : Pixel) (s : State) : Host.Outcome State Fault Refusal :=
  if s.hasPixel k then .next { s with mem := s.mem.writeBytes (s.pixelAddr k) (p.toBytes s.cfg.ch) }
  else .fault .outsidePix

/-- `PIX_POS <- PIX_POS + CH`. -/
def State.nextPixel (s : State) : State :=
  { s with launch := { s.launch with pixPos := s.launch.pixPos + s.cfg.ch.bytes } }

/-- `IN_POS <- IN_POS + n`. -/
def State.advanceIn (s : State) (n : Nat) : State :=
  { s with launch := { s.launch with inPos := s.launch.inPos + n } }

/-- The bytes of `IN` from `IN_POS` on, as many as the longest opcode has, or as are left. -/
def State.opcodeBytes (s : State) : List Byte :=
  s.mem.readBytes (s.launch.inBuf.base + s.launch.inPos) (min maxOpLen (s.launch.inBuf.len - s.launch.inPos))

/-! ### Stream state -/

/-- `CACHE_UPDATE(px)` (43_cache_index R202). -/
def StreamState.store (ch : Channels) (px : Pixel) (st : StreamState) : StreamState := { st with cache := st.cache.set (px.hash ch) px }

/-- The stream-initial values (10_state R30). -/
def StreamState.initial : StreamState :=
  { cache := Vector.replicate 64 Pixel.new, prev := Pixel.newOpaque, run := 0, started := false }

/-- `STREAM_INIT(d)`'s writes (10_state R30). -/
def streamInit (d : StreamDir) (s : State) : State :=
  { s with stream := StreamState.initial, dir := d.toDir, status := .ok }

/-! ### Free values -/

/-- `n` free bytes from draw `d` on. -/
def freeBytes (d : Nat) : Nat → List Byte
  | 0 => []
  | n + 1 => Config.freeByte d :: freeBytes (d + 1) n

/-- A free pixel, from four draws. -/
def freePixel (d : Nat) : Pixel :=
  ⟨Config.freeByte d, Config.freeByte (d + 1), Config.freeByte (d + 2), Config.freeByte (d + 3)⟩

/-- How many draws a free stream state takes: 64 slots and `PREV` of four bytes each, `RUN`, `STARTED`. -/
def streamDraws : Nat := 262

/-- A stream state nothing is known of (60_exceptions R330, 93 U2). -/
def freeStream (d : Nat) : StreamState :=
  { cache := Vector.ofFn fun i => freePixel (d + 4 * i.val)
    prev := freePixel (d + 256)
    run := (Config.freeByte (d + 260)).setWidth 6
    started := (Config.freeByte (d + 261)).getLsbD 0 }

/-- How many draws a free header takes. -/
def headerDraws : Nat := 10

/-- A header nothing is known of but that its fields are legal (10_state R24, R34; 93 U3). -/
def freeHeader (d : Nat) : Header :=
  { w := u32be (Config.freeByte d) (Config.freeByte (d + 1)) (Config.freeByte (d + 2)) (Config.freeByte (d + 3))
    h := u32be (Config.freeByte (d + 4)) (Config.freeByte (d + 5)) (Config.freeByte (d + 6)) (Config.freeByte (d + 7))
    ch := if (Config.freeByte (d + 8)).getLsbD 0 then .four else .three
    cs := if (Config.freeByte (d + 9)).getLsbD 0 then .one else .zero }

/-! ### Raising an error -/

/-- `raise E` (60_exceptions R330) by a command whose output buffer is `out`: `STATUS` and `DIR` are written, the stream state and
every byte of the output buffer become free values, `CFG` and `CFG_VALID` stay. A command with no output buffer (HDR_DEC) leaves
everything except `STATUS` as it was; its `DIR` is NONE already. -/
def raiseError (e : ErrorCode) (out : Option Region) (s : State) : State :=
  match out with
  | none => { s with status := .error e, dir := .none, launch := Launch.idle, reply := .error e }
  | some b =>
    { s with
      status := .error e
      dir := .none
      launch := Launch.idle
      reply := .error e
      stream := freeStream s.draw
      mem := s.mem.writeBytes b.base (freeBytes (s.draw + streamDraws) b.len)
      draw := s.draw + streamDraws + b.len }

end Sys2Proof.Machine
end

