-- ==== Sys2Proof/Machine/Opcodes.lean ====
section
/-! DEFINITION. The meanings of the six opcodes (46_decoder R284 to R290). Each runs inside DEC_STEP (R281), which has fetched the
opcode, checked that all of it is there, moved `IN_POS` past it, and moves `PIX_POS` after it. -/

namespace Sys2Proof.Machine

/-- What every opcode does: `STORE_PIXEL(k, px)` for the pixel being produced, and the new stream state (R291: together or not at all). -/
def produce (px : Pixel) (st : StreamState) (s : State) : Host.Outcome State Fault Refusal :=
  match storePixel s.pixelNumber px s with
  | .next t => .next { t with stream := st }
  | .fault f => .fault f
  | .refused r => .refused r

/-- `PREV <- px; CACHE[HASH(px)] <- px`: a pixel that is neither a run nor an INDEX (43_cache_index R202). -/
def StreamState.accept (ch : Channels) (px : Pixel) (st : StreamState) : StreamState := { st with prev := px }.store ch px

/-- INDEX (R284). -/
def execIndex (i : Fin 64) (s : State) : Host.Outcome State Fault Refusal :=
  let px := Pixel.fromSlot s.cfg.ch s.stream.prev s.stream.cache[i]
  produce px { s.stream with prev := px } s

/-- DIFF (R285). -/
def execDiff (dr dg db : Int) (s : State) : Host.Outcome State Fault Refusal :=
  let px := s.stream.prev.addRgb dr dg db
  produce px (s.stream.accept s.cfg.ch px) s

/-- LUMA (R286): the red and blue operands are relative to the green delta (30_encoding R85). -/
def execLuma (dg drg dbg : Int) (s : State) : Host.Outcome State Fault Refusal :=
  let px := s.stream.prev.addRgb (dg + drg) dg (dg + dbg)
  produce px (s.stream.accept s.cfg.ch px) s

/-- RUN (R287): one copy of `PREV` now, and the payload, the run length minus one, in `RUN` (30_encoding R86). -/
def execRun (len : Nat) (s : State) : Host.Outcome State Fault Refusal :=
  produce s.stream.prev { s.stream with run := BitVec.ofNat 6 (len - 1) } s

/-- RGB (R288). -/
def execRgb (r g b : Byte) (s : State) : Host.Outcome State Fault Refusal :=
  let px := s.stream.prev.setRgb r g b
  produce px (s.stream.accept s.cfg.ch px) s

/-- RGBA (R289; with three channels R290: the alpha byte is read and discarded). -/
def execRgba (r g b a : Byte) (s : State) : Host.Outcome State Fault Refusal :=
  let px := s.stream.prev.setRgba s.cfg.ch r g b a
  produce px (s.stream.accept s.cfg.ch px) s

end Sys2Proof.Machine
end

