-- ==== Sys2Proof/Machine/Header.lean ====
section
/-! DEFINITION. The header serializer and deserializer (41_header_codec). -/

namespace Sys2Proof.Machine

/-- The 14 header bytes of `CFG` (41_header_codec R141, 30_encoding R93). -/
def Header.toBytes (h : Header) : List Byte :=
  headerLayout h.w h.h (BitVec.ofNat 8 h.ch.bytes) (BitVec.ofNat 8 h.cs.toNat)

/-- Parsing the header at offset 0 of a buffer of `len` bytes that begins with `bs`, the faults in the order of R144 (R143). -/
def parseHeader (len : Nat) (bs : List Byte) : Except ErrorCode Header :=
  if len < hdrLen then .error .notEnoughData
  else if bs.take 4 ≠ magic then .error .invalidMagic
  else
    match Channels.ofNat? (bs.getD 12 0).toNat with
    | none => .error .invalidChannelsValue
    | some ch =>
      match ColorSpace.ofNat? (bs.getD 13 0).toNat with
      | none => .error .invalidColorSpaceValue
      | some cs =>
        .ok { w := u32be (bs.getD 4 0) (bs.getD 5 0) (bs.getD 6 0) (bs.getD 7 0)
              h := u32be (bs.getD 8 0) (bs.getD 9 0) (bs.getD 10 0) (bs.getD 11 0)
              ch := ch
              cs := cs }

/-- Loading `CFG`: either write sets `CFG_VALID` (10_state R23). -/
def State.loadHeader (s : State) (h : Header) : State := { s with cfg := h, cfgValid := true, status := .ok }

/-- SET_HEADER (R140). A channel count or colour space outside the legal values is refused before this runs. -/
def setHeader (w h : Word32) (ch cs : Nat) (s : State) : Attempt State :=
  match Channels.ofNat? ch, ColorSpace.ofNat? cs with
  | some c, some k => .ok (s.loadHeader { w := w, h := h, ch := c, cs := k })
  | _, _ => .error (.refused .illegalHeaderField)

/-- HDR_ENC (R141), with the count it returns. -/
def hdrEnc (out : Region) (s : State) : Attempt (State × Nat) :=
  if out.len < hdrLen then .error (.raised .outputIsTooSmallE s)
  else do
    let t ← emit s.cfg.toBytes (s.start Region.empty out Region.empty)
    .ok ({ t with status := .ok }, hdrLen)

/-- HDR_DEC (R143), with the header it returns. -/
def hdrDec (inp : Region) (s : State) : Attempt (State × Header) :=
  match parseHeader inp.len (s.mem.readBytes inp.base hdrLen) with
  | .error e => .error (.raised e s)
  | .ok h => .ok (((s.start inp Region.empty Region.empty).advanceIn hdrLen).loadHeader h, h)

end Sys2Proof.Machine
end

