-- ==== Sys2Proof/Machine/Classifier.lean ====
section
/-! DEFINITION. The delta classifier (42_delta_classifier): which of RGBA, DIFF, LUMA and RGB the encoder emits for a pixel that missed
in the cache. -/

namespace Sys2Proof.Machine

/-- The DIFF byte of a delta that fits (42 R174). -/
def Delta.diffByte (v : Delta) : Byte := 0x40 ||| ((v.vr + 2) <<< 4) ||| ((v.vg + 2) <<< 2) ||| (v.vb + 2)

/-- The two LUMA bytes of a delta that fits (42 R176). -/
def Delta.lumaBytes (v : Delta) : List Byte :=
  [0x80 ||| (v.vg + 32), ((v.vr - v.vg + 8) <<< 4) ||| (v.vb - v.vg + 8)]

/-- `CLASSIFY(px, PREV)` (42 R180), steps 1 to 4 of the ladder (R170). -/
def classify (ch : Channels) (px prev : Pixel) : List Byte :=
  if ch = .four ∧ px.a ≠ prev.a then [0xFF, px.r, px.g, px.b, px.a]
  else if (px.var prev).diffFits then [(px.var prev).diffByte]
  else if (px.var prev).lumaFits then (px.var prev).lumaBytes
  else [0xFE, px.r, px.g, px.b]

/-- The INDEX byte of a slot (43_cache_index R201). -/
def indexByte (h : Fin 64) : Byte := BitVec.ofNat 8 h.val

end Sys2Proof.Machine
end

