-- ==== Sys2Proof/Machine/RunLength.lean ====
section
/-! DEFINITION. The run-length machine (44_run_length). Each operation gives the new stream state and the bytes it emits. -/

namespace Sys2Proof.Machine

/-- `RUN_MAX` (00_scope R6). -/
def runMax : BitVec 6 := 62

/-- The RUN byte of a pending run of `run` pixels: payload `run - 1` (R223). -/
def runByte (run : BitVec 6) : Byte := 0xC0 ||| (run - 1).setWidth 8

/-- Accumulating a pixel equal to `PREV`; a run of 62 is flushed at once (R221). -/
def accumulate (st : StreamState) : StreamState × List Byte :=
  if st.run + 1 = runMax then ({ st with run := 0 }, [0xFD]) else ({ st with run := st.run + 1 }, [])

/-- `FOLD_FLUSH` (R225): the flush of a run of one under the policy FOLD. -/
def foldFlush (ch : Channels) (st : StreamState) : StreamState × List Byte :=
  if st.started ∧ st.hits ch st.prev then ({ st with run := 0 }, [indexByte (st.prev.hash ch)])
  else if ¬ st.started ∧ ¬ st.hits ch st.prev then ({ st.store ch st.prev with run := 0, started := true }, [0x6A])
  else ({ st with run := 0 }, [0xC0])

/-- `FLUSH_RUN` (R226). -/
def flushRun (policy : Run1Policy) (ch : Channels) (st : StreamState) : StreamState × List Byte :=
  if st.run = 0 then (st, [])
  else if st.run = 1 ∧ policy = .fold then foldFlush ch st
  else ({ st with run := 0 }, [runByte st.run])

/-- The decoder's drain (R228): one owed copy of `PREV` goes to the output, and `RUN` counts down. -/
def drain (s : State) : Host.Outcome State Fault Refusal :=
  match storePixel s.pixelNumber s.stream.prev s with
  | .next t => .next { t with stream := { t.stream with run := t.stream.run - 1 } }
  | .fault f => .fault f
  | .refused r => .refused r

end Sys2Proof.Machine
end

