-- ==== Sys2Proof/Machine/Decoder.lean ====
section
/-! DEFINITION. The decoder sequencer (46_decoder): DEC_STEP and the commands DEC_RANGE, DEC_BODY and DEC. -/

namespace Sys2Proof.Machine

/-- `DEC_STEP()` (R281): an owed copy of a run, or the opcode at `IN_POS`; then the next pixel. Running out of input raises
`NotEnoughData` (R283). -/
def decStep (s : State) : Attempt State :=
  if s.stream.run = 0 then
    match decode s.opcodeBytes with
    | .error _ => .error (.raised .notEnoughData s)
    | .ok op => do
      let t ← Attempt.ofOutcome (exec op.1 (s.advanceIn op.2))
      .ok t.nextPixel
  else do
    let t ← Attempt.ofOutcome (drain s)
    .ok t.nextPixel

/-- DEC_RANGE's loop: the window takes one pixel a turn, so `while PIX_POS < PIX_LEN` runs once per pixel of the window (R280). -/
def decLoop : Nat → State → Attempt State
  | 0, s => .ok s
  | n + 1, s => do
    let t ← decStep s
    decLoop n t

/-- DEC_RANGE (R280), with the count it returns (R293). -/
def decRange (inp pix : Region) (s : State) : Attempt (State × Nat) := do
  let t ← decLoop (pix.len / s.cfg.ch.bytes) (s.start inp Region.empty pix)
  .ok ({ t with status := .ok }, t.launch.inPos)

/-- DEC_BODY (R294), with the count it returns. -/
def decBody (inp pix : Region) (s : State) : Attempt (State × Nat) :=
  if pix.len < s.cfg.nbytes then .error (.raised .outputIsTooSmallD s)
  else if s.cfg.nbytes = 0 then .ok ({ s with status := .ok }, 0)
  else do
    let c ← decRange inp (pix.sub 0 s.cfg.nbytes) (streamInit .dec s)
    .ok ({ c.1 with dir := .none, status := .ok }, c.2)

/-- DEC (R295), with the header it returns: HDR_DEC, then the body as DEC_BODY decodes it. -/
def decImage (inp pix : Region) (s : State) : Attempt (State × Header) := do
  let h ← hdrDec inp s
  let b ← decBody (inp.sub hdrLen (inp.len - hdrLen)) pix h.1
  .ok (b.1, h.2)

end Sys2Proof.Machine
end

