-- ==== Sys2Proof/Machine/Encoder.lean ====
section
/-! DEFINITION. The encoder sequencer (45_encoder). -/

namespace Sys2Proof.Machine

/-- `HEADROOM` (00_scope R6). -/
def headroom : Nat := 8

/-- The part of ENC_PIXEL after the flush: the cache lookup and the ladder, then `PREV` and `STARTED` (R251). -/
def encFresh (ch : Channels) (px : Pixel) (st : StreamState) : StreamState × List Byte :=
  if st.hits ch px then ({ st with prev := px, started := true }, [indexByte (px.hash ch)])
  else ({ st.store ch px with prev := px, started := true }, classify ch px st.prev)

/-- `ENC_PIXEL(px)` (R251): the new stream state and the bytes emitted, in order. -/
def encPixel (policy : Run1Policy) (ch : Channels) (px : Pixel) (st : StreamState) : StreamState × List Byte :=
  if px.eqIn ch st.prev then accumulate st
  else
    ((encFresh ch px (flushRun policy ch st).1).1,
      (flushRun policy ch st).2 ++ (encFresh ch px (flushRun policy ch st).1).2)

/-- `PIX_POS <- PIX_POS + CH; ENC_PIXEL(px)` (R250): the stream state and the bytes emitted. -/
def encStep (px : Pixel) (s : State) : Attempt State :=
  emit (encPixel s.params.run1Policy s.cfg.ch px s.stream).2
    { s.nextPixel with stream := (encPixel s.params.run1Policy s.cfg.ch px s.stream).1 }

/-- One turn of ENC_RANGE's loop (R250): the headroom check (R252), then the pixel at `PIX_POS`. -/
def encOne (s : State) : Attempt State :=
  if s.launch.outBuf.len - s.launch.outPos < headroom then .error (.raised .outputIsTooSmallE s)
  else do
    let px ← loadPixel s.pixelNumber s
    encStep px s

/-- ENC_RANGE's loop over `n` pixels. -/
def encLoop : Nat → State → Attempt State
  | 0, s => .ok s
  | n + 1, s => do
    let t ← encOne s
    encLoop n t

/-- ENC_RANGE (R250), with the count it returns (R256). -/
def encRange (pix out : Region) (s : State) : Attempt (State × Nat) := do
  let t ← encLoop (pix.len / s.cfg.ch.bytes) (s.start Region.empty out pix)
  .ok ({ t with status := .ok }, t.launch.outPos)

/-- The bytes ENC_FINISH needs (R254). -/
def finishNeed (st : StreamState) : Nat := (if st.run = 0 then 0 else 1) + trailer.length

/-- ENC_FINISH (R254), with the count it returns. -/
def encFinish (out : Region) (s : State) : Attempt (State × Nat) :=
  if out.len < finishNeed s.stream then .error (.raised .outputIsTooSmallE s)
  else do
    let t ← emit ((flushRun s.params.run1Policy s.cfg.ch s.stream).2 ++ trailer)
      { s.start Region.empty out Region.empty with stream := (flushRun s.params.run1Policy s.cfg.ch s.stream).1 }
    .ok ({ t with dir := .none, status := .ok }, t.launch.outPos)

/-- ENC (R255), with the count it returns (R256). -/
def encImage (pix out : Region) (s : State) : Attempt (State × Nat) :=
  if pix.len < s.cfg.nbytes then .error (.raised .notEnoughPixelData s)
  else if out.len < hdrLen then .error (.raised .outputIsTooSmallE s)
  else do
    let a ← hdrEnc (out.sub 0 hdrLen) s
    let b ← encRange (pix.sub 0 s.cfg.nbytes) (out.sub hdrLen (out.len - hdrLen)) (streamInit .enc a.1)
    let c ← encFinish (out.sub (hdrLen + b.2) (out.len - (hdrLen + b.2))) b.1
    .ok (c.1, hdrLen + b.2 + c.2)

end Sys2Proof.Machine
end

