-- ==== Sys2Proof/Machine/Commands.lean ====
section
/-! DEFINITION. The command set (60_exceptions R320): what each command needs, what it does, and its three outcomes (R321). -/

namespace Sys2Proof.Machine

/-- The `IN` buffer of a command (20_memory R50). -/
def Command.inBuf : Command → Option Region
  | .reset => none
  | .setHeader _ _ _ _ => none
  | .hdrEnc _ => none
  | .hdrDec inp => some inp
  | .getHeader => none
  | .getStatus => none
  | .streamInit _ => none
  | .streamClose => none
  | .encRange _ _ => none
  | .encFinish _ => none
  | .enc _ _ => none
  | .decRange inp _ => some inp
  | .decBody inp _ => some inp
  | .dec inp _ => some inp
  | .other _ => none

/-- The `OUT` buffer of a command. -/
def Command.outBuf : Command → Option Region
  | .reset => none
  | .setHeader _ _ _ _ => none
  | .hdrEnc out => some out
  | .hdrDec _ => none
  | .getHeader => none
  | .getStatus => none
  | .streamInit _ => none
  | .streamClose => none
  | .encRange _ out => some out
  | .encFinish out => some out
  | .enc _ out => some out
  | .decRange _ _ => none
  | .decBody _ _ => none
  | .dec _ _ => none
  | .other _ => none

/-- The `PIX` buffer of a command. -/
def Command.pixBuf : Command → Option Region
  | .reset => none
  | .setHeader _ _ _ _ => none
  | .hdrEnc _ => none
  | .hdrDec _ => none
  | .getHeader => none
  | .getStatus => none
  | .streamInit _ => none
  | .streamClose => none
  | .encRange pix _ => some pix
  | .encFinish _ => none
  | .enc pix _ => some pix
  | .decRange _ pix => some pix
  | .decBody _ pix => some pix
  | .dec _ pix => some pix
  | .other _ => none

/-- The buffer a command writes, which an error leaves unspecified (60_exceptions R330): `OUT` for the encode side, `PIX` for the
decode side. -/
def Command.written : Command → Option Region
  | .reset => none
  | .setHeader _ _ _ _ => none
  | .hdrEnc out => some out
  | .hdrDec _ => none
  | .getHeader => none
  | .getStatus => none
  | .streamInit _ => none
  | .streamClose => none
  | .encRange _ out => some out
  | .encFinish out => some out
  | .enc _ out => some out
  | .decRange _ pix => some pix
  | .decBody _ pix => some pix
  | .dec _ pix => some pix
  | .other _ => none

/-- The check `CFG_VALID = 1` (60_exceptions R320). -/
def needHeader (s : State) : Option Refusal := if s.cfgValid then none else some .noHeader

/-- The check `DIR = NONE` (70 R366). -/
def needIdle (s : State) : Option Refusal := if s.dir = .none then none else some .streamOpen

/-- The check of a chunk command's direction (70 R365). -/
def needDir (d : Dir) (s : State) : Option Refusal := if s.dir = d then none else some .wrongDirection

/-- The check `PIX_LEN mod CFG.CH = 0`. -/
def needWholePixels (pix : Region) (s : State) : Option Refusal :=
  if pix.len % s.cfg.ch.bytes = 0 then none else some .splitPixel

/-- The check of SET_HEADER's fields (41_header_codec R140). -/
def needLegalFields (ch cs : Nat) : Option Refusal :=
  if (Channels.ofNat? ch).isSome ∧ (ColorSpace.ofNat? cs).isSome then none else some .illegalHeaderField

/-- The preconditions of the command's row in 60_exceptions R320; the first that fails. -/
def Command.rowRefusal (c : Command) (s : State) : Option Refusal :=
  match c with
  | .reset => none
  | .setHeader _ _ ch cs => (needIdle s).or (needLegalFields ch cs)
  | .hdrEnc _ => (needHeader s).or (needIdle s)
  | .hdrDec _ => needIdle s
  | .getHeader => needHeader s
  | .getStatus => none
  | .streamInit _ => needHeader s
  | .streamClose => none
  | .encRange pix _ => (needDir .enc s).or (needWholePixels pix s)
  | .encFinish _ => needDir .enc s
  | .enc _ _ => (needHeader s).or (needIdle s)
  | .decRange _ pix => (needDir .dec s).or (needWholePixels pix s)
  | .decBody _ _ => (needHeader s).or (needIdle s)
  | .dec _ _ => needIdle s
  | .other _ => some .notACommand

/-- Whether a buffer operand is absent or within its limit. -/
def within (limit : Nat) : Option Region → Bool
  | none => true
  | some r => decide (r.len ≤ limit)

/-- Whether two buffer operands are absent or share no byte. -/
def apart : Option Region → Option Region → Bool
  | some r, some q => !r.overlaps q
  | _, _ => true

/-- The general preconditions of 60_exceptions R329 (b) and (c). -/
def Command.bufferRefusal (c : Command) (s : State) : Option Refusal :=
  if ¬ (within s.params.maxInLen c.inBuf ∧ within s.params.maxOutLen c.outBuf ∧ within s.params.maxPixLen c.pixBuf) then
    some .bufferTooLong
  else if ¬ (apart c.inBuf c.outBuf ∧ apart c.inBuf c.pixBuf ∧ apart c.outBuf c.pixBuf) then some .buffersOverlap
  else none

/-- Why a command is refused, if it is (60_exceptions R329), before any line of it runs (R324). -/
def Command.refusal (c : Command) (s : State) : Option Refusal := (c.rowRefusal s).or (c.bufferRefusal s)

/-- A state and the count returned. -/
def countReply (a : Attempt (State × Nat)) : Attempt (State × Reply) := a.map fun r => (r.1, .count r.2)

/-- A state and the header returned. -/
def headerReply (a : Attempt (State × Header)) : Attempt (State × Reply) := a.map fun r => (r.1, .header r.2)

/-- RESET (70 R360): `CFG_VALID`, `DIR` and `STATUS` as 10_state R34 says; `CFG` and the stream state are unspecified there, so they
become free values (log 3). Host memory and the parameters are not block state. -/
def resetBlock (s : State) : State :=
  { s with
    cfgValid := false
    cfg := freeHeader s.draw
    dir := .none
    stream := freeStream (s.draw + headerDraws)
    status := .ok
    draw := s.draw + headerDraws + streamDraws }

/-- STREAM_CLOSE (70 R372). -/
def streamClose (s : State) : State := { s with dir := .none, status := .ok }

/-- A command's pseudocode, with what it returns. -/
def perform (c : Command) (s : State) : Attempt (State × Reply) :=
  match c with
  | .reset => .ok (resetBlock s, .done)
  | .setHeader w h ch cs => (setHeader w h ch cs s).map fun t => (t, .done)
  | .hdrEnc out => countReply (hdrEnc out s)
  | .hdrDec inp => headerReply (hdrDec inp s)
  | .getHeader => .ok (s, .header s.cfg)
  | .getStatus => .ok (s, .status s.status)
  | .streamInit d => .ok (streamInit d s, .done)
  | .streamClose => .ok (streamClose s, .done)
  | .encRange pix out => countReply (encRange pix out s)
  | .encFinish out => countReply (encFinish out s)
  | .enc pix out => countReply (encImage pix out s)
  | .decRange inp pix => countReply (decRange inp pix s)
  | .decBody inp pix => countReply (decBody inp pix s)
  | .dec inp pix => headerReply (decImage inp pix s)
  | .other _ => .error (.refused .notACommand)

/-- How a command ends (60_exceptions R321): success delivers its reply, and its cursors are gone (10_state R32); an error has the
effects of R330. -/
def conclude (written : Option Region) : Attempt (State × Reply) → Host.Outcome State Fault Refusal
  | .ok r => .next { r.1 with launch := Launch.idle, reply := r.2 }
  | .error (.raised e s) => .next (raiseError e written s)
  | .error (.fault f) => .fault f
  | .error (.refused r) => .refused r

/-- One command, from its preconditions to its outcome: one atomic step (00_scope R5). -/
def issue (c : Command) (s : State) : Host.Outcome State Fault Refusal :=
  match c.refusal s with
  | some r => .refused r
  | none => conclude c.written (perform c s)

end Sys2Proof.Machine
end

