-- ==== Sys2Proof/Machine/Step.lean ====
section
/-! DEFINITION. One step of the machine: the host's next move. A command is one step, whatever its buffer lengths (00_scope R5, 70 R374);
with no move pending the block is idle and holds its state (60_exceptions R338). -/

namespace Sys2Proof.Machine

/-- The host's next move. -/
def step (s : State) : Host.Outcome State Fault Refusal :=
  match s.pending with
  | [] => .next s
  | .issue c :: rest => issue c { s with pending := rest }
  | .write a b :: rest => .next { s with pending := rest, mem := s.mem.write a b }

/-- The block with a decode stream open and no run owed: as it is where it is so already (but for the run), else a fresh decode stream
(10_state R30), over a header of one RGBA pixel where no header is loaded. -/
def State.openDecode (s : State) : State :=
  { s with
    cfg := if s.cfgValid then s.cfg else { w := 1, h := 1, ch := .four, cs := .zero }
    cfgValid := true
    dir := .dec
    stream := if s.cfgValid ∧ s.dir = .dec then { s.stream with run := 0 } else StreamState.initial }

/-- Where `withFetchWord` lays the opcode: `IN`, the first bytes of host memory. -/
def fetchIn : Region := ⟨0, maxOpLen⟩

/-- Where the opcode's pixel goes: a window of one pixel after it. -/
def fetchPix (s : State) : Region := ⟨maxOpLen, s.openDecode.cfg.ch.bytes⟩

/-- `s` with a word of the opcode table where `step` fetches its next opcode: the opcode's bytes stand in host memory, a decode stream
is open, and the next move of the host is DEC_RANGE over them with a window of one pixel, so that the next step decodes and runs
exactly that opcode (log 7). -/
def State.withFetchWord (s : State) (nbits w : Nat) : State :=
  { s.openDecode with
    mem := s.mem.writeBytes fetchIn.base (tableBytes nbits w)
    pending := .issue (.decRange fetchIn (fetchPix s)) :: s.pending
    params := { s.params with
      maxInLen := max s.params.maxInLen fetchIn.len
      maxPixLen := max s.params.maxPixLen (fetchPix s).len } }

end Sys2Proof.Machine
end

