-- ==== Sys2Proof/Safety.lean ====
section
/-! DEFINITION. What counts as a safe run, and the words the claims are written in: the invariant of command boundaries, the
preconditions of a command as 60_exceptions R320 and R329 list them, and the whole encoder as a function on pixels. No definition of the
machine uses this file. -/

namespace Sys2Proof.Machine

/-- The invariant of a command boundary. Each field names its rule. -/
structure Inv (s : State) : Prop where
  /-- Host memory is in its canonical form (log 2). -/
  memWf : s.mem.wf = true
  /-- `DIR != NONE => CFG_VALID = 1` (70 R373). -/
  headerLoaded : s.dir ≠ .none → s.cfgValid = true
  /-- `RUN` is 0..61 between pixel steps (10_state R27). -/
  runBound : s.dir ≠ .none → s.stream.run.toNat ≤ 61
  /-- With three channels `PREV.a` keeps the seed value 255 (10_state R26). -/
  alphaOpaque : s.dir ≠ .none → s.cfg.ch = .three → s.stream.prev.a = 255
  /-- Once `STARTED`, the slot of `PREV` holds it (43_cache_index R208). -/
  prevCached : s.dir = .enc → s.stream.started = true → s.stream.hits s.cfg.ch s.stream.prev = true
  /-- Nothing is in flight: the cursors do not survive a command (10_state R32, R33). -/
  nothingRunning : s.launch = Launch.idle

/-- The outcome is not a fault: no access fell outside a buffer (20_memory R50). -/
def NoFault (o : Host.Outcome State Fault Refusal) : Prop := ∀ f, o ≠ .fault f

/-- DEC_STEP has checked that the window has room for the pixel being produced (46_decoder, the opening of section 1). -/
def RoomForPixel (s : State) : Prop :=
  s.launch.pixPos / s.cfg.ch.bytes * s.cfg.ch.bytes + s.cfg.ch.bytes ≤ s.launch.pixBuf.len

/-- Lane `j` of a pixel, in the order they are stored: r, g, b, a (20_memory R51). -/
def Pixel.lane (p : Pixel) (j : Nat) : Byte :=
  if j = 0 then p.r else if j = 1 then p.g else if j = 2 then p.b else p.a

/-- `HASH(p)` as a number, written out (40_pixel_model R115, R116). -/
def slotOf (ch : Channels) (p : Pixel) : Nat :=
  (3 * p.r.toNat + 5 * p.g.toNat + 7 * p.b.toNat + 11 * (if ch = .four then p.a.toNat else 255)) % 64

/-- In `t` the pixel `px` stands where `s` stores the pixel it is producing: pixel `k = PIX_POS / CH` of `PIX`. -/
def PixelStored (s t : State) (px : Pixel) : Prop :=
  ∀ j, j < s.cfg.ch.bytes →
    t.mem.read (s.launch.pixBuf.base + s.launch.pixPos / s.cfg.ch.bytes * s.cfg.ch.bytes + j) = px.lane j

/-- The cache of `t` is that of `s` with `px` in the slot of its hash (43_cache_index R202). -/
def CachedOnly (s t : State) (px : Pixel) : Prop :=
  ∀ i : Fin 64, t.stream.cache[i] = if i.val = slotOf s.cfg.ch px then px else s.stream.cache[i]

/-- What an opcode leaves alone: everything but `CACHE`, `PREV`, `RUN` and the bytes of the pixel it stores at `PIX_POS` (46_decoder,
"State written" of R284 to R290). -/
def OpcodeFrame (s t : State) : Prop :=
  t.stream.started = s.stream.started ∧ t.cfg = s.cfg ∧ t.cfgValid = s.cfgValid ∧ t.dir = s.dir ∧ t.status = s.status ∧
  t.launch = s.launch ∧ t.pending = s.pending ∧ t.reply = s.reply ∧ t.params = s.params ∧ t.draw = s.draw ∧
  ∀ x, x < s.pixelAddr s.pixelNumber ∨ s.pixelAddr s.pixelNumber + s.cfg.ch.bytes ≤ x → t.mem.read x = s.mem.read x

/-- Every address outside `r` reads in `t` as in `s`. -/
def MemSameOutside (r : Option Region) (s t : State) : Prop :=
  ∀ a, (∀ b, r = some b → ¬ (b.base ≤ a ∧ a < b.base + b.len)) → t.mem.read a = s.mem.read a

/-- Two buffers share no byte (60_exceptions R329 (c)). -/
def Disjoint (r q : Region) : Prop :=
  ∀ a, ¬ ((r.base ≤ a ∧ a < r.base + r.len) ∧ (q.base ≤ a ∧ a < q.base + q.len))

/-- The preconditions of a command's row in 60_exceptions R320. -/
def RowPreconditions : Command → State → Prop
  | .reset, _ => True
  | .setHeader _ _ ch cs, s => s.dir = .none ∧ (ch = 3 ∨ ch = 4) ∧ (cs = 0 ∨ cs = 1)
  | .hdrEnc _, s => s.cfgValid = true ∧ s.dir = .none
  | .hdrDec _, s => s.dir = .none
  | .getHeader, s => s.cfgValid = true
  | .getStatus, _ => True
  | .streamInit _, s => s.cfgValid = true
  | .streamClose, _ => True
  | .encRange pix _, s => s.dir = .enc ∧ pix.len % s.cfg.ch.bytes = 0
  | .encFinish _, s => s.dir = .enc
  | .enc _ _, s => s.cfgValid = true ∧ s.dir = .none
  | .decRange _ pix, s => s.dir = .dec ∧ pix.len % s.cfg.ch.bytes = 0
  | .decBody _ _, s => s.cfgValid = true ∧ s.dir = .none
  | .dec _ _, s => s.dir = .none
  | .other _, _ => False

/-- The general preconditions of 60_exceptions R329 (b) and (c). -/
def BufferPreconditions : Command → State → Prop
  | .reset, _ => True
  | .setHeader _ _ _ _, _ => True
  | .hdrEnc out, s => out.len ≤ s.params.maxOutLen
  | .hdrDec inp, s => inp.len ≤ s.params.maxInLen
  | .getHeader, _ => True
  | .getStatus, _ => True
  | .streamInit _, _ => True
  | .streamClose, _ => True
  | .encRange pix out, s => pix.len ≤ s.params.maxPixLen ∧ out.len ≤ s.params.maxOutLen ∧ Disjoint pix out
  | .encFinish out, s => out.len ≤ s.params.maxOutLen
  | .enc pix out, s => pix.len ≤ s.params.maxPixLen ∧ out.len ≤ s.params.maxOutLen ∧ Disjoint pix out
  | .decRange inp pix, s => inp.len ≤ s.params.maxInLen ∧ pix.len ≤ s.params.maxPixLen ∧ Disjoint inp pix
  | .decBody inp pix, s => inp.len ≤ s.params.maxInLen ∧ pix.len ≤ s.params.maxPixLen ∧ Disjoint inp pix
  | .dec inp pix, s => inp.len ≤ s.params.maxInLen ∧ pix.len ≤ s.params.maxPixLen ∧ Disjoint inp pix
  | .other _, _ => True

/-- Every precondition of a command holds: it is not refused (60_exceptions R321, R329). -/
def Accepted (c : Command) (s : State) : Prop := RowPreconditions c s ∧ BufferPreconditions c s

/-- Where a precondition fails, the command is refused (60_exceptions R329). -/
def RefusedUnlessAccepted (c : Command) (s : State) : Prop := ¬ Accepted c s → ∃ r, issue c s = .refused r

/-- The errors of a command's row in 60_exceptions R320. -/
def rowErrors : Command → List ErrorCode
  | .reset => []
  | .setHeader _ _ _ _ => []
  | .hdrEnc _ => [.outputIsTooSmallE]
  | .hdrDec _ => [.notEnoughData, .invalidMagic, .invalidChannelsValue, .invalidColorSpaceValue]
  | .getHeader => []
  | .getStatus => []
  | .streamInit _ => []
  | .streamClose => []
  | .encRange _ _ => [.outputIsTooSmallE]
  | .encFinish _ => [.outputIsTooSmallE]
  | .enc _ _ => [.notEnoughPixelData, .outputIsTooSmallE]
  | .decRange _ _ => [.notEnoughData]
  | .decBody _ _ => [.outputIsTooSmallD, .notEnoughData]
  | .dec _ _ =>
    [.notEnoughData, .invalidMagic, .invalidChannelsValue, .invalidColorSpaceValue, .outputIsTooSmallD]
  | .other _ => []

/-- The `n` pixels of a buffer, in order (20_memory R51, R52; 40_pixel_model R118). -/
def pixelsAt (ch : Channels) (m : Memory) (base : Nat) : Nat → List Pixel
  | 0 => []
  | n + 1 => Pixel.ofBytes ch (m.readBytes base ch.bytes) :: pixelsAt ch m (base + ch.bytes) n

/-- ENC_PIXEL over a list of pixels: the stream state and the bytes emitted. -/
def encPixels (policy : Run1Policy) (ch : Channels) : List Pixel → StreamState → StreamState × List Byte
  | [], st => (st, [])
  | px :: pxs, st =>
    let one := encPixel policy ch px st
    let more := encPixels policy ch pxs one.1
    (more.1, one.2 ++ more.2)

/-- The complete opcode stream of an image, the final flush included (45_encoder R257: its length is `L*`). -/
def opcodeStream (policy : Run1Policy) (ch : Channels) (pxs : List Pixel) : List Byte :=
  let all := encPixels policy ch pxs StreamState.initial
  all.2 ++ (flushRun policy ch all.1).2

/-- The opcode stream ENC writes for the image of `CFG` in the buffer `pix`. -/
def State.imageOpcodes (s : State) (pix : Region) : List Byte :=
  opcodeStream s.params.run1Policy s.cfg.ch (pixelsAt s.cfg.ch s.mem pix.base (s.cfg.w.toNat * s.cfg.h.toNat))

end Sys2Proof.Machine
end

