-- ==== Sys2Proof/Certificates/Slice0/Obligations.lean ====
section
/-! DEFINITION. The statements about the codec block, each from a rule of spec/. A statement whose docstring names a log entry rests on a
choice of the model there. -/

open Sys2Proof Sys2Proof.Machine

/-! ### Encoding (30_encoding) -/

/-- R81 to R88, R95: decoding the bytes of a well-formed opcode, whatever follows them, gives back the opcode, with every operand at
every value the encoding admits, and its length. -/
def Obligations.DecodeOfEncodeIsTheOpcode : Prop :=
  ∀ (i : Instr) (rest : List Byte), WellFormed i →
    decode (encode i ++ rest) = .ok (i, (encode i).length)

/-- The other direction: what decodes is a well-formed opcode, and the bytes it was read from are its encoding, so no byte sequence has
two readings and no bit is ignored. -/
def Obligations.EncodeOfDecodeIsTheBytes : Prop :=
  ∀ (bs : List Byte) (i : Instr) (n : Nat), decode bs = .ok (i, n) →
    WellFormed i ∧ n ≤ bs.length ∧ encode i = bs.take n

/-- R89, R82: the tag byte alone selects the opcode and its length, range by range. -/
def Obligations.TagByteSelectsOpcodeAndLength : Prop :=
  ∀ (t : Byte) (d : List Byte), 4 ≤ d.length →
    (t.toNat ≤ 0x3F → ∃ i, decode (t :: d) = .ok (.index i, 1)) ∧
    (0x40 ≤ t.toNat ∧ t.toNat ≤ 0x7F → ∃ r g b, decode (t :: d) = .ok (.diff r g b, 1)) ∧
    (0x80 ≤ t.toNat ∧ t.toNat ≤ 0xBF → ∃ g r b, decode (t :: d) = .ok (.luma g r b, 2)) ∧
    (0xC0 ≤ t.toNat ∧ t.toNat ≤ 0xFD → ∃ n, decode (t :: d) = .ok (.run n, 1)) ∧
    (t.toNat = 0xFE → ∃ r g b, decode (t :: d) = .ok (.rgb r g b, 4)) ∧
    (t.toNat = 0xFF → ∃ r g b a, decode (t :: d) = .ok (.rgba r g b a, 5))

/-- One word of each opcode written out from the patterns of R81. -/
def Obligations.SampleBytesDecode : Prop :=
  decode [0b00001110#8] = .ok (.index 14, 1) ∧
  decode [0b01110110#8] = .ok (.diff 1 (-1) 0, 1) ∧
  decode [0b10101010#8, 0b10001000#8] = .ok (.luma 10 0 0, 2) ∧
  decode [0b11000100#8] = .ok (.run 5, 1) ∧
  decode [0b11111110#8, 200#8, 100#8, 50#8] = .ok (.rgb 200 100 50, 4) ∧
  decode [0b11111111#8, 1#8, 2#8, 3#8, 4#8] = .ok (.rgba 1 2 3 4, 5)

/-- R95: an assembler refuses an operand outside its range, and no other. -/
def Obligations.AssemblerRefusesOutOfRangeOperands : Prop :=
  (∀ i : Fin 64, (assembleLine (.op (.index i))).isSome) ∧
  (∀ dr dg db : Int, (assembleLine (.op (.diff dr dg db))).isSome ↔
    (-2 ≤ dr ∧ dr ≤ 1) ∧ (-2 ≤ dg ∧ dg ≤ 1) ∧ (-2 ≤ db ∧ db ≤ 1)) ∧
  (∀ dg drg dbg : Int, (assembleLine (.op (.luma dg drg dbg))).isSome ↔
    (-32 ≤ dg ∧ dg ≤ 31) ∧ (-8 ≤ drg ∧ drg ≤ 7) ∧ (-8 ≤ dbg ∧ dbg ≤ 7)) ∧
  (∀ len : Nat, (assembleLine (.op (.run len))).isSome ↔ 1 ≤ len ∧ len ≤ 62) ∧
  (∀ r g b : Byte, (assembleLine (.op (.rgb r g b))).isSome) ∧
  (∀ r g b a : Byte, (assembleLine (.op (.rgba r g b a))).isSome)

/-! ### The six opcodes (46_decoder): results -/

/-- R284: INDEX, whose slot is bits 5 to 0 of the tag, outputs the slot's pixel, with the alpha of `PREV` when there are three channels,
and makes it `PREV`; it writes nothing else. -/
def Obligations.IndexOutputsTheSlot : Prop :=
  (∀ (b : Byte) (d : List Byte), b.toNat ≤ 0x3F → decode (b :: d) = .ok (.index (b.extractLsb' 0 6).toFin, 1)) ∧
  ∀ (i : Fin 64) (s : State), RoomForPixel s →
    ∃ t, exec (.index i) s = .next t ∧
      t.stream.prev.r = s.stream.cache[i].r ∧ t.stream.prev.g = s.stream.cache[i].g ∧ t.stream.prev.b = s.stream.cache[i].b ∧
      t.stream.prev.a = (if s.cfg.ch = .four then s.stream.cache[i].a else s.stream.prev.a) ∧
      PixelStored s t t.stream.prev ∧
      t.stream.cache = s.stream.cache ∧ t.stream.run = s.stream.run ∧ OpcodeFrame s t

/-- R285: DIFF, whose deltas are the three two-bit fields of the tag minus 2, adds them modulo 256, outputs the pixel, makes it `PREV` and
stores it in the slot of its hash; it writes nothing else. -/
def Obligations.DiffAddsTheDeltas : Prop :=
  (∀ (b : Byte) (d : List Byte), 0x40 ≤ b.toNat → b.toNat ≤ 0x7F →
    decode (b :: d) =
      .ok (.diff ((b.extractLsb' 4 2).toNat - 2) ((b.extractLsb' 2 2).toNat - 2) ((b.extractLsb' 0 2).toNat - 2), 1)) ∧
  ∀ (dr dg db : Int) (s : State), RoomForPixel s →
    ∃ t, exec (.diff dr dg db) s = .next t ∧
      (t.stream.prev.r.toNat : Int) = ((s.stream.prev.r.toNat : Int) + dr) % 256 ∧
      (t.stream.prev.g.toNat : Int) = ((s.stream.prev.g.toNat : Int) + dg) % 256 ∧
      (t.stream.prev.b.toNat : Int) = ((s.stream.prev.b.toNat : Int) + db) % 256 ∧
      t.stream.prev.a = s.stream.prev.a ∧
      PixelStored s t t.stream.prev ∧ CachedOnly s t t.stream.prev ∧ t.stream.run = s.stream.run ∧ OpcodeFrame s t

/-- R286: LUMA, a green delta of six bits minus 32 and relative red and blue deltas of four bits minus 8, adds the green delta to green
and, with the relative ones, to red and blue, modulo 256; it outputs and keeps the pixel as DIFF does. -/
def Obligations.LumaAddsTheRelativeDeltas : Prop :=
  (∀ (b b1 : Byte) (d : List Byte), 0x80 ≤ b.toNat → b.toNat ≤ 0xBF →
    decode (b :: b1 :: d) =
      .ok (.luma ((b.extractLsb' 0 6).toNat - 32) ((b1.extractLsb' 4 4).toNat - 8) ((b1.extractLsb' 0 4).toNat - 8), 2)) ∧
  ∀ (dg drg dbg : Int) (s : State), RoomForPixel s →
    ∃ t, exec (.luma dg drg dbg) s = .next t ∧
      (t.stream.prev.r.toNat : Int) = ((s.stream.prev.r.toNat : Int) + dg + drg) % 256 ∧
      (t.stream.prev.g.toNat : Int) = ((s.stream.prev.g.toNat : Int) + dg) % 256 ∧
      (t.stream.prev.b.toNat : Int) = ((s.stream.prev.b.toNat : Int) + dg + dbg) % 256 ∧
      t.stream.prev.a = s.stream.prev.a ∧
      PixelStored s t t.stream.prev ∧ CachedOnly s t t.stream.prev ∧ t.stream.run = s.stream.run ∧ OpcodeFrame s t

/-- R287: RUN, whose payload is bits 5 to 0 of the tag and its length one more, outputs one copy of `PREV` and leaves the payload in
`RUN`; it writes nothing else. -/
def Obligations.RunOutputsOneCopyAndOwesTheRest : Prop :=
  (∀ (b : Byte) (d : List Byte), 0xC0 ≤ b.toNat → b.toNat ≤ 0xFD →
    decode (b :: d) = .ok (.run ((b.extractLsb' 0 6).toNat + 1), 1)) ∧
  ∀ (len : Nat) (s : State), WellFormed (.run len) → RoomForPixel s →
    ∃ t, exec (.run len) s = .next t ∧
      t.stream.run.toNat + 1 = len ∧ PixelStored s t s.stream.prev ∧
      t.stream.prev = s.stream.prev ∧ t.stream.cache = s.stream.cache ∧ OpcodeFrame s t

/-- R288: RGB outputs the three literal bytes with the alpha of `PREV`, and keeps the pixel as DIFF does. -/
def Obligations.RgbSetsTheColour : Prop :=
  (∀ (r g b : Byte) (d : List Byte), decode (0xFE :: r :: g :: b :: d) = .ok (.rgb r g b, 4)) ∧
  ∀ (r g b : Byte) (s : State), RoomForPixel s →
    ∃ t, exec (.rgb r g b) s = .next t ∧
      t.stream.prev.r = r ∧ t.stream.prev.g = g ∧ t.stream.prev.b = b ∧ t.stream.prev.a = s.stream.prev.a ∧
      PixelStored s t t.stream.prev ∧ CachedOnly s t t.stream.prev ∧ t.stream.run = s.stream.run ∧ OpcodeFrame s t

/-- R289, R290: RGBA outputs the four literal bytes; with three channels the alpha byte is read and discarded. It keeps the pixel as DIFF
does. -/
def Obligations.RgbaSetsColourAndAlpha : Prop :=
  (∀ (r g b a : Byte) (d : List Byte), decode (0xFF :: r :: g :: b :: a :: d) = .ok (.rgba r g b a, 5)) ∧
  ∀ (r g b a : Byte) (s : State), RoomForPixel s →
    ∃ t, exec (.rgba r g b a) s = .next t ∧
      t.stream.prev.r = r ∧ t.stream.prev.g = g ∧ t.stream.prev.b = b ∧
      t.stream.prev.a = (if s.cfg.ch = .four then a else s.stream.prev.a) ∧
      PixelStored s t t.stream.prev ∧ CachedOnly s t t.stream.prev ∧ t.stream.run = s.stream.run ∧ OpcodeFrame s t

/-! ### The six opcodes: frames -/

/-- The frame of DIFF, LUMA, RGB and RGBA: only `PREV`, the slot of the new pixel's hash and the pixel's own bytes of `PIX` may change. -/
def Obligations.PixelOpcodesFrame : Prop :=
  ∀ (i : Instr) (s t : State),
    ((∃ dr dg db, i = .diff dr dg db) ∨ (∃ dg drg dbg, i = .luma dg drg dbg) ∨ (∃ r g b, i = .rgb r g b) ∨
      (∃ r g b a, i = .rgba r g b a)) →
    exec i s = .next t →
      t.stream.run = s.stream.run ∧ t.stream.started = s.stream.started ∧
      (∀ k : Fin 64, k.val ≠ slotOf s.cfg.ch t.stream.prev → t.stream.cache[k] = s.stream.cache[k]) ∧
      t.cfg = s.cfg ∧ t.cfgValid = s.cfgValid ∧ t.dir = s.dir ∧ t.status = s.status ∧ t.launch = s.launch ∧
      t.pending = s.pending ∧ t.reply = s.reply ∧ t.params = s.params ∧ t.draw = s.draw ∧
      (∀ a, s.pixelAddr s.pixelNumber = a →
        ∀ x, x < a ∨ a + s.cfg.ch.bytes ≤ x → t.mem.read x = s.mem.read x)

/-- The frame of INDEX and RUN: INDEX may change only `PREV` and the pixel's bytes, RUN only `RUN` and the pixel's bytes; neither
touches the cache (43_cache_index R203, R204). -/
def Obligations.IndexAndRunFrame : Prop :=
  ∀ (i : Instr) (s t : State),
    ((∃ k, i = .index k) ∨ (∃ len, i = .run len)) → exec i s = .next t →
      ((∃ k, i = .index k) → t.stream.run = s.stream.run) ∧
      ((∃ len, i = .run len) → t.stream.prev = s.stream.prev) ∧
      t.stream.cache = s.stream.cache ∧ t.stream.started = s.stream.started ∧
      t.cfg = s.cfg ∧ t.cfgValid = s.cfgValid ∧ t.dir = s.dir ∧ t.status = s.status ∧ t.launch = s.launch ∧
      t.pending = s.pending ∧ t.reply = s.reply ∧ t.params = s.params ∧ t.draw = s.draw ∧
      (∀ a, s.pixelAddr s.pixelNumber = a →
        ∀ x, x < a ∨ a + s.cfg.ch.bytes ≤ x → t.mem.read x = s.mem.read x)

/-- 20_memory R50: an opcode whose window has no room stores nothing and stops; it does so in no other case. That
it stops by a fault is the model's choice (log 9). -/
def Obligations.OpcodeStopsExactlyWithoutRoom : Prop :=
  ∀ (i : Instr) (s : State), (∀ t, exec i s ≠ .next t) ↔ ¬ RoomForPixel s

/-! ### The step and DEC_STEP -/

/-- A step runs the decoded opcode: with a decode stream open, no run owed, and DEC_RANGE over a window of one pixel as the host's next
move, the opcode decoded at the start of `IN` is run by `exec`, with `IN_POS` moved past it; then the command ends and returns its
length. -/
def Obligations.StepRunsTheDecodedOpcode : Prop :=
  ∀ (s : State) (inp pix : Region) (rest : List HostMove) (i : Instr) (n : Nat),
    s.pending = .issue (.decRange inp pix) :: rest → s.dir = .dec → s.stream.run = 0 → pix.len = s.cfg.ch.bytes →
    BufferPreconditions (.decRange inp pix) s →
    decode (s.mem.readBytes inp.base (min maxOpLen inp.len)) = .ok (i, n) →
      (∀ t, exec i { s with pending := rest, launch := ⟨inp, Region.empty, pix, n, 0, 0⟩ } = .next t →
        step s = .next { t with launch := Launch.idle, status := .ok, reply := .count n }) ∧
      (∃ t, exec i { s with pending := rest, launch := ⟨inp, Region.empty, pix, n, 0, 0⟩ } = .next t)

/-- The word that `withFetchWord` places is the opcode that the next step runs (log 7). -/
def Obligations.FetchWordRunsItsOpcode : Prop :=
  ∀ (s : State) (nbits w : Nat) (i : Instr), decodeTableWord nbits w = some i →
    ∃ t u, exec i { s.withFetchWord nbits w with
        pending := s.pending, launch := ⟨fetchIn, Region.empty, fetchPix s, i.length, 0, 0⟩ } = .next t ∧
      step (s.withFetchWord nbits w) = .next u ∧
      u.stream = t.stream ∧ u.mem = t.mem ∧ u.pending = s.pending ∧ u.reply = .count i.length

/-- R281, R228: while a run is owed, a decode step pays one copy of `PREV` and reads no input. -/
def Obligations.DecStepPaysAnOwedCopy : Prop :=
  ∀ s : State, s.stream.run ≠ 0 → RoomForPixel s →
    ∃ t, decStep s = .ok t ∧ PixelStored s t s.stream.prev ∧
      t.stream.run.toNat + 1 = s.stream.run.toNat ∧ t.stream.prev = s.stream.prev ∧ t.stream.cache = s.stream.cache ∧
      t.launch.inPos = s.launch.inPos ∧ t.launch.pixPos = s.launch.pixPos + s.cfg.ch.bytes

/-- R281, R283: with no run owed, a decode step raises `NotEnoughData` when no byte is left, or fewer than the tag byte announces;
otherwise it completes, with `IN_POS` moved past all of the opcode and `PIX_POS` past its pixel. -/
def Obligations.DecStepNeedsAWholeOpcode : Prop :=
  ∀ s : State, s.stream.run = 0 → RoomForPixel s →
    let left := s.launch.inBuf.len - s.launch.inPos
    let need := opLen (s.mem.read (s.launch.inBuf.base + s.launch.inPos))
    (left = 0 ∨ left < need → decStep s = .error (.raised .notEnoughData s)) ∧
    (0 < left → need ≤ left →
      ∃ t, decStep s = .ok t ∧ t.launch.inPos = s.launch.inPos + need ∧
        t.launch.pixPos = s.launch.pixPos + s.cfg.ch.bytes ∧ t.launch.outPos = s.launch.outPos)

/-- R229: the pixels an image decodes to do not depend on how the output is cut into windows: two DEC_RANGE over adjacent windows, the
second given the input from where the first stopped (70 R364), leave the machine as one over both, which consumes their sum.
The spec marks this as its own inference. -/
def Obligations.DecodeDoesNotDependOnWindows : Prop :=
  ∀ (s t u : State) (inp : Region) (base a b c d : Nat),
    issue (.decRange inp ⟨base, a⟩) s = .next t → t.reply = .count c →
    issue (.decRange (inp.sub c (inp.len - c)) ⟨base + a, b⟩) t = .next u → u.reply = .count d →
    Accepted (.decRange inp ⟨base, a + b⟩) s →
      issue (.decRange inp ⟨base, a + b⟩) s = .next { u with reply := .count (c + d) }

/-- R296: DEC_BODY and DEC read no byte after the last opcode they need. A body cut anywhere after that opcode, or followed by anything,
decodes to the same state; and so does a whole image, which DEC decodes as HDR_DEC and then DEC_BODY do. -/
def Obligations.DecodeIgnoresBytesAfterTheLastOpcode : Prop :=
  (∀ (s t : State) (inp pix : Region) (c len : Nat),
    issue (.decBody inp pix) s = .next t → t.reply = .count c → c ≤ len →
    Accepted (.decBody ⟨inp.base, len⟩ pix) s →
      issue (.decBody ⟨inp.base, len⟩ pix) s = .next t) ∧
  (∀ (s t u : State) (inp pix : Region) (c len : Nat),
    issue (.hdrDec inp) s = .next t → t.status = .ok →
    issue (.decBody (inp.sub 14 (inp.len - 14)) pix) t = .next u → u.reply = .count c → c ≤ len →
    Accepted (.dec ⟨inp.base, 14 + len⟩ pix) s →
      issue (.dec ⟨inp.base, 14 + len⟩ pix) s = .next { u with reply := .header t.cfg })

/-- R298: DEC of a valid header of a zero-area image succeeds, whatever follows the header, and writes no byte of `PIX`. -/
def Obligations.DecodeOfZeroAreaImage : Prop :=
  ∀ (s : State) (inp pix : Region) (h : Header), Accepted (.dec inp pix) s →
    parseHeader inp.len (s.mem.readBytes inp.base hdrLen) = .ok h → h.w = 0 ∨ h.h = 0 →
      issue (.dec inp pix) s =
        .next { s with cfg := h, cfgValid := true, status := .ok, launch := Launch.idle, reply := .header h }

/-! ### The pixel ALU, the classifier, the cache, the run machine -/

/-- R111: two pixels are equal when their colours are, and with four channels their alphas too. -/
def Obligations.PixelEqualityByChannels : Prop :=
  (∀ p q : Pixel, p.eqIn .four q = true ↔ p = q) ∧
  (∀ p q : Pixel, p.eqIn .three q = true ↔ p.r = q.r ∧ p.g = q.g ∧ p.b = q.b)

/-- R115, R116: the hash of a pixel, with alpha read as 255 when there are three channels. The multipliers are the spec's decision D4
(log 6). -/
def Obligations.HashOfAPixel : Prop :=
  ∀ p : Pixel,
    (p.hash .four).val = (3 * p.r.toNat + 5 * p.g.toNat + 7 * p.b.toNat + 11 * p.a.toNat) % 64 ∧
    (p.hash .three).val = (3 * p.r.toNat + 5 * p.g.toNat + 7 * p.b.toNat + 11 * 255) % 64

/-- R173, R175: DIFF fits exactly when each delta, read as a signed byte, lies in -2..1; LUMA fits exactly when the green delta lies in
-32..31 and the red and blue deltas minus it lie in -8..7.
The spec marks this as its own inference. -/
def Obligations.FitTestsAsSignedRanges : Prop :=
  ∀ v : Delta,
    (v.diffFits = true ↔
      (-2 ≤ v.vr.toInt ∧ v.vr.toInt ≤ 1) ∧ (-2 ≤ v.vg.toInt ∧ v.vg.toInt ≤ 1) ∧ (-2 ≤ v.vb.toInt ∧ v.vb.toInt ≤ 1)) ∧
    (v.lumaFits = true ↔
      (-32 ≤ v.vg.toInt ∧ v.vg.toInt ≤ 31) ∧ (-8 ≤ (v.vr - v.vg).toInt ∧ (v.vr - v.vg).toInt ≤ 7) ∧
      (-8 ≤ (v.vb - v.vg).toInt ∧ (v.vb - v.vg).toInt ≤ 7))

/-- R181: decoding the bytes of CLASSIFY against `PREV` gives one opcode of that length, and running it yields a pixel equal to the
one classified.
The spec marks this as its own inference. -/
def Obligations.ClassifierIsSound : Prop :=
  ∀ (s : State) (px : Pixel), RoomForPixel s →
    ∃ i t, decode (classify s.cfg.ch px s.stream.prev) = .ok (i, (classify s.cfg.ch px s.stream.prev).length) ∧
      exec i s = .next t ∧ t.stream.prev.eqIn s.cfg.ch px = true

/-- The encoder's lookup and ladder keep a decoder in step (43_cache_index R206, the part of one pixel that is no run): a decoder with
the encoder's cache and `PREV` that runs the bytes emitted ends with the encoder's new cache and `PREV`. With three channels the alpha
lanes are the opaque ones that LOAD_PIXEL and R26 give.
The spec marks this as its own inference. -/
def Obligations.FreshPixelKeepsDecoderInStep : Prop :=
  ∀ (s : State) (e : StreamState) (px : Pixel), RoomForPixel s →
    e.cache = s.stream.cache → e.prev = s.stream.prev →
    (s.cfg.ch = .three → px.a = 255 ∧ e.prev.a = 255) →
      ∃ i t, decode (encFresh s.cfg.ch px e).2 = .ok (i, (encFresh s.cfg.ch px e).2.length) ∧
        exec i s = .next t ∧
        t.stream.cache = (encFresh s.cfg.ch px e).1.cache ∧ t.stream.prev = (encFresh s.cfg.ch px e).1.prev ∧
        t.stream.prev = px

/-- The flush of a pending run keeps a decoder in step (44_run_length R225: "Every case decodes to one copy of `PREV`", and R223, R224):
its one byte decodes to an opcode that outputs `PREV`, owes the rest of the run, and leaves the cache as the encoder's.
The spec marks this as its own inference. -/
def Obligations.RunFlushKeepsDecoderInStep : Prop :=
  ∀ (s : State) (policy : Run1Policy) (e : StreamState), RoomForPixel s →
    e.cache = s.stream.cache → e.prev = s.stream.prev → s.stream.run = 0 →
    e.run ≠ 0 → e.run.toNat ≤ 61 →
      ∃ i t, decode (flushRun policy s.cfg.ch e).2 = .ok (i, 1) ∧ exec i s = .next t ∧
        t.stream.cache = (flushRun policy s.cfg.ch e).1.cache ∧ t.stream.prev = e.prev ∧
        t.stream.run.toNat + 1 = e.run.toNat ∧ PixelStored s t e.prev

/-- R226: FLUSH_RUN emits exactly one byte when a run is pending and none when not, leaves no run pending, and keeps `PREV`.
The spec marks this as its own inference. -/
def Obligations.FlushEmitsOneByteForARun : Prop :=
  ∀ (policy : Run1Policy) (ch : Channels) (st : StreamState),
    (flushRun policy ch st).2.length = (if st.run = 0 then 0 else 1) ∧
    (flushRun policy ch st).1.run = 0 ∧ (flushRun policy ch st).1.prev = st.prev

/-- R223, R224: the flush of a run of two or more, and of a run of one under the policy RUN, is the one byte of RUN with the run's length
minus one as its payload; it leaves no run and writes nothing else. -/
def Obligations.RunOpcodeFlush : Prop :=
  ∀ (policy : Run1Policy) (ch : Channels) (st : StreamState),
    (2 ≤ st.run.toNat →
      flushRun policy ch st = ({ st with run := 0 }, [0xC0#8 ||| BitVec.ofNat 8 (st.run.toNat - 1)])) ∧
    (st.run = 1 → flushRun .run ch st = ({ st with run := 0 }, [0xC0#8]))

/-- R225: the flush of a one-pixel run under FOLD: INDEX of its slot where the stream has started and the slot hits, the zero DIFF with
the cache update where neither holds, and RUN of one otherwise. -/
def Obligations.FoldFlushCases : Prop :=
  ∀ (ch : Channels) (st : StreamState), st.run = 1 →
    (st.started = true → st.hits ch st.prev = true →
      (flushRun .fold ch st).2 = [BitVec.ofNat 8 (slotOf ch st.prev)] ∧ (flushRun .fold ch st).1 = { st with run := 0 }) ∧
    (st.started = false → st.hits ch st.prev = false →
      (flushRun .fold ch st).2 = [0x6A#8] ∧
      (flushRun .fold ch st).1 = { cache := st.cache.set (st.prev.hash ch) st.prev, prev := st.prev, run := 0, started := true }) ∧
    (st.started ≠ st.hits ch st.prev →
      (flushRun .fold ch st).2 = [0xC0#8] ∧ (flushRun .fold ch st).1 = { st with run := 0 })

/-- R221: a pixel equal to `PREV` counts up the run and emits nothing, until the 62nd, which emits `0xFD` and leaves no run; `PREV`, the
cache and `STARTED` stay. -/
def Obligations.EqualPixelExtendsTheRun : Prop :=
  ∀ (policy : Run1Policy) (ch : Channels) (px : Pixel) (st : StreamState), px.eqIn ch st.prev = true → st.run.toNat ≤ 61 →
    (st.run.toNat < 61 → (encPixel policy ch px st).2 = [] ∧ (encPixel policy ch px st).1.run.toNat = st.run.toNat + 1) ∧
    (st.run.toNat = 61 → (encPixel policy ch px st).2 = [0xFD#8] ∧ (encPixel policy ch px st).1.run = 0) ∧
    (encPixel policy ch px st).1.prev = st.prev ∧ (encPixel policy ch px st).1.cache = st.cache ∧
    (encPixel policy ch px st).1.started = st.started

/-- R251: one pixel makes the encoder emit at most 6 bytes, and at most 5 with three channels; a pixel that differs from `PREV` becomes
`PREV` and sets `STARTED`, and no run is pending after it.
The spec marks this as its own inference. -/
def Obligations.DifferentPixelIsEmitted : Prop :=
  ∀ (policy : Run1Policy) (ch : Channels) (px : Pixel) (st : StreamState),
    (encPixel policy ch px st).2.length ≤ 6 ∧ (ch = .three → (encPixel policy ch px st).2.length ≤ 5) ∧
    (px.eqIn ch st.prev = false →
      1 ≤ (encPixel policy ch px st).2.length ∧ (encPixel policy ch px st).1.prev = px ∧
      (encPixel policy ch px st).1.started = true ∧ (encPixel policy ch px st).1.run = 0)

/-! ### The header commands (41_header_codec) -/

/-- R140: SET_HEADER loads the four fields, and writes nothing else of the block but `CFG_VALID` and `STATUS`; while a stream is open, or
with an illegal field, it is refused. -/
def Obligations.SetHeaderLoadsCfg : Prop :=
  ∀ (w h : Word32) (ch cs : Nat) (s : State),
    (s.dir = .none → (ch = 3 ∨ ch = 4) → (cs = 0 ∨ cs = 1) →
      ∃ t, issue (.setHeader w h ch cs) s = .next t ∧
        t.cfg.w = w ∧ t.cfg.h = h ∧ t.cfg.ch.bytes = ch ∧ t.cfg.cs.toNat = cs ∧ t.cfgValid = true ∧ t.status = .ok ∧
        t.dir = s.dir ∧ t.stream = s.stream ∧ t.mem = s.mem ∧ t.params = s.params ∧ t.draw = s.draw ∧
        t.pending = s.pending ∧ t.reply = .done) ∧
    (¬ (s.dir = .none ∧ (ch = 3 ∨ ch = 4) ∧ (cs = 0 ∨ cs = 1)) → ∃ r, issue (.setHeader w h ch cs) s = .refused r)

/-- R141: HDR_ENC writes the 14 header bytes, big-endian, and returns 14; with fewer than 14 bytes of output it raises
`OutputIsTooSmall_E`; without a header or with a stream open it is refused. -/
def Obligations.HdrEncWritesFourteenBytes : Prop :=
  ∀ (s : State) (out : Region), RefusedUnlessAccepted (.hdrEnc out) s ∧ (Accepted (.hdrEnc out) s →
    (out.len < 14 → ∃ t, issue (.hdrEnc out) s = .next t ∧ t.status = .error .outputIsTooSmallE ∧ t.cfg = s.cfg) ∧
    (14 ≤ out.len → ∃ t, issue (.hdrEnc out) s = .next t ∧ t.status = .ok ∧ t.reply = .count 14 ∧
      t.mem.readBytes out.base 14 =
        [0x71#8, 0x6F#8, 0x69#8, 0x66#8,
         BitVec.ofNat 8 (s.cfg.w.toNat / 2 ^ 24), BitVec.ofNat 8 (s.cfg.w.toNat / 2 ^ 16),
         BitVec.ofNat 8 (s.cfg.w.toNat / 2 ^ 8), BitVec.ofNat 8 s.cfg.w.toNat,
         BitVec.ofNat 8 (s.cfg.h.toNat / 2 ^ 24), BitVec.ofNat 8 (s.cfg.h.toNat / 2 ^ 16),
         BitVec.ofNat 8 (s.cfg.h.toNat / 2 ^ 8), BitVec.ofNat 8 s.cfg.h.toNat,
         BitVec.ofNat 8 s.cfg.ch.bytes, BitVec.ofNat 8 s.cfg.cs.toNat] ∧
      (∀ a, a < out.base ∨ out.base + 14 ≤ a → t.mem.read a = s.mem.read a) ∧
      t.stream = s.stream ∧ t.cfg = s.cfg ∧ t.cfgValid = s.cfgValid ∧ t.dir = s.dir))

/-- R143, R144: HDR_DEC raises the first of the four header errors that applies, in the order length, magic, channels, colour space, and
then leaves everything except `STATUS` (and the reply) as it was; with none of them it loads the header. -/
def Obligations.HdrDecParsesOrRaisesInOrder : Prop :=
  ∀ (s : State) (inp : Region), RefusedUnlessAccepted (.hdrDec inp) s ∧ (Accepted (.hdrDec inp) s → s.launch = Launch.idle →
    let byte := fun j => (s.mem.read (inp.base + j)).toNat
    let failsWith := fun e : ErrorCode => issue (.hdrDec inp) s = .next { s with status := .error e, reply := .error e }
    let badMagic := ¬ (byte 0 = 0x71 ∧ byte 1 = 0x6F ∧ byte 2 = 0x69 ∧ byte 3 = 0x66)
    let badChannels := ¬ (byte 12 = 3 ∨ byte 12 = 4)
    let badColour := ¬ (byte 13 = 0 ∨ byte 13 = 1)
    (inp.len < 14 → failsWith .notEnoughData) ∧
    (14 ≤ inp.len → badMagic → failsWith .invalidMagic) ∧
    (14 ≤ inp.len → ¬ badMagic → badChannels → failsWith .invalidChannelsValue) ∧
    (14 ≤ inp.len → ¬ badMagic → ¬ badChannels → badColour → failsWith .invalidColorSpaceValue) ∧
    (14 ≤ inp.len → ¬ badMagic → ¬ badChannels → ¬ badColour →
      ∃ h : Header, issue (.hdrDec inp) s =
          .next { s with cfg := h, cfgValid := true, status := .ok, reply := .header h } ∧
        h.w.toNat = byte 4 * 2 ^ 24 + byte 5 * 2 ^ 16 + byte 6 * 2 ^ 8 + byte 7 ∧
        h.h.toNat = byte 8 * 2 ^ 24 + byte 9 * 2 ^ 16 + byte 10 * 2 ^ 8 + byte 11 ∧
        h.ch.bytes = byte 12 ∧ h.cs.toNat = byte 13))

/-- R146: SET_HEADER, then HDR_ENC into a buffer of 14 or more bytes, then HDR_DEC of those bytes, leaves `CFG` at the fields set.
The spec marks this as its own inference. -/
def Obligations.HeaderRoundTrip : Prop :=
  ∀ (s : State) (w h : Word32) (ch cs : Nat) (buf : Region),
    s.dir = .none → (ch = 3 ∨ ch = 4) → (cs = 0 ∨ cs = 1) → 14 ≤ buf.len →
    buf.len ≤ s.params.maxOutLen → buf.len ≤ s.params.maxInLen →
      ∃ t u v, issue (.setHeader w h ch cs) s = .next t ∧ issue (.hdrEnc buf) t = .next u ∧
        issue (.hdrDec buf) u = .next v ∧
        v.cfg.w = w ∧ v.cfg.h = h ∧ v.cfg.ch.bytes = ch ∧ v.cfg.cs.toNat = cs ∧ v.status = .ok

/-- R145, R339: GET_HEADER returns `CFG` and GET_STATUS returns `STATUS`; neither writes anything of the block
(`launch` is idle between commands, and `reply` is what the host is given). GET_HEADER without a header is refused. That `STATUS` too
stays as it was is the model's choice between R145 and R339, by which they write nothing, and R321, by which every success sets it to 0
(log 10). -/
def Obligations.ReadCommandsWriteNothing : Prop :=
  (∀ s : State, s.cfgValid = true →
    issue .getHeader s = .next { s with launch := Launch.idle, reply := .header s.cfg }) ∧
  (∀ s : State, s.cfgValid = false → ∃ r, issue .getHeader s = .refused r) ∧
  (∀ s : State, issue .getStatus s = .next { s with launch := Launch.idle, reply := .status s.status })

/-! ### Streams and reset (10_state, 70_reset_and_hazards) -/

/-- R30, R371: STREAM_INIT, whatever stream is open, writes the stream-initial values and the direction, and nothing else;
without a header it is refused. -/
def Obligations.StreamInitWritesInitialValues : Prop :=
  (∀ (s : State) (d : StreamDir), s.cfgValid = false → ∃ r, issue (.streamInit d) s = .refused r) ∧
  ∀ (s : State) (d : StreamDir), s.cfgValid = true →
    ∃ t, issue (.streamInit d) s = .next t ∧
      (∀ i : Fin 64, t.stream.cache[i] = ⟨0, 0, 0, 0⟩) ∧ t.stream.prev = ⟨0, 0, 0, 255⟩ ∧ t.stream.run = 0 ∧
      t.stream.started = false ∧ t.dir = (match d with | .enc => .enc | .dec => .dec) ∧ t.status = .ok ∧
      t.cfg = s.cfg ∧ t.cfgValid = s.cfgValid ∧ t.mem = s.mem ∧ t.params = s.params ∧ t.pending = s.pending

/-- R372: STREAM_CLOSE needs nothing, sets `DIR` to NONE and `STATUS` to 0; the stream registers keep their values. -/
def Obligations.StreamCloseEndsTheStream : Prop :=
  ∀ s : State, issue .streamClose s = .next { s with dir := .none, status := .ok, launch := Launch.idle, reply := .done }

/-- R360: the RESET command puts `CFG_VALID` to 0, `DIR` to NONE and `STATUS` to 0 from any state; host memory and the parameters are
not touched. -/
def Obligations.ResetCommandClearsControl : Prop :=
  ∀ s : State, ∃ t, issue .reset s = .next t ∧ t.cfgValid = false ∧ t.dir = .none ∧ t.status = .ok ∧
    t.launch = Launch.idle ∧ t.mem = s.mem ∧ t.params = s.params ∧ t.pending = s.pending

/-- R34: the machine after power-on reset: the values the spec gives. -/
def Obligations.ResetStateHasTheGivenValues : Prop :=
  State.reset.cfgValid = false ∧ State.reset.dir = .none ∧ State.reset.status = .ok ∧ State.reset.status.code = 0

/-! ### The encoder commands (45_encoder) -/

/-- R252: ENC_RANGE raises `OutputIsTooSmall_E` before a pixel for which fewer than 8 bytes of `OUT` are free, and does so before it
loads or encodes it; with 8 bytes free the pixel is encoded, and what it emits stays inside `OUT`. -/
def Obligations.HeadroomIsCheckedBeforeAPixel : Prop :=
  ∀ (s : State) (n : Nat),
    (s.launch.outBuf.len - s.launch.outPos < 8 → encLoop (n + 1) s = .error (.raised .outputIsTooSmallE s)) ∧
    (8 ≤ s.launch.outBuf.len - s.launch.outPos → s.hasPixel s.pixelNumber = true →
      ∃ t, encOne s = .ok t ∧ encLoop (n + 1) s = encLoop n t ∧ t.launch.outPos ≤ s.launch.outBuf.len)

/-- R250, R251: ENC_RANGE over enough output (8 bytes free for each pixel always suffice) emits the bytes of ENC_PIXEL over its pixels in
order, returns their count, and leaves the stream open with the run pending. -/
def Obligations.EncRangeEncodesItsPixels : Prop :=
  ∀ (s : State) (pix out : Region), Accepted (.encRange pix out) s →
    8 * (pix.len / s.cfg.ch.bytes) ≤ out.len →
      let r := encPixels s.params.run1Policy s.cfg.ch
        (pixelsAt s.cfg.ch s.mem pix.base (pix.len / s.cfg.ch.bytes)) s.stream
      ∃ t, issue (.encRange pix out) s = .next t ∧ t.reply = .count r.2.length ∧ t.stream = r.1 ∧ t.dir = .enc ∧
        t.status = .ok ∧ t.mem.readBytes out.base r.2.length = r.2 ∧
        (∀ a, a < out.base ∨ out.base + r.2.length ≤ a → t.mem.read a = s.mem.read a)

/-- R227: when every chunk succeeds, the encoded bytes do not depend on how the pixels are cut into chunks: two ENC_RANGE over adjacent
pixels, the second writing where the first stopped, leave the machine as one over both.
The spec marks this as its own inference. -/
def Obligations.EncodeDoesNotDependOnChunks : Prop :=
  ∀ (s t u : State) (out : Region) (base a b c d : Nat),
    issue (.encRange ⟨base, a⟩ out) s = .next t → t.reply = .count c →
    issue (.encRange ⟨base + a, b⟩ (out.sub c (out.len - c))) t = .next u → u.reply = .count d →
    Accepted (.encRange ⟨base, a + b⟩ out) s →
      issue (.encRange ⟨base, a + b⟩ out) s = .next { u with reply := .count (c + d) }

/-- R254: ENC_FINISH needs 8 bytes, and one more when a run is pending; with them it writes the flush and the trailer, closes the stream
and returns 8 or 9; without them it raises `OutputIsTooSmall_E`; with no encode stream open it is refused. -/
def Obligations.EncFinishFlushesAndWritesTrailer : Prop :=
  ∀ (s : State) (out : Region), RefusedUnlessAccepted (.encFinish out) s ∧ (Accepted (.encFinish out) s →
    let need := (if s.stream.run = 0 then 0 else 1) + 8
    (out.len < need → ∃ t, issue (.encFinish out) s = .next t ∧ t.status = .error .outputIsTooSmallE ∧ t.dir = .none) ∧
    (need ≤ out.len → ∃ t, issue (.encFinish out) s = .next t ∧ t.status = .ok ∧ t.dir = .none ∧ t.stream.run = 0 ∧
      t.stream = (flushRun s.params.run1Policy s.cfg.ch s.stream).1 ∧ t.cfg = s.cfg ∧ t.cfgValid = s.cfgValid ∧
      t.reply = .count need ∧
      t.mem.readBytes out.base need =
        (flushRun s.params.run1Policy s.cfg.ch s.stream).2 ++ [0#8, 0#8, 0#8, 0#8, 0#8, 0#8, 0#8, 1#8] ∧
      (∀ a, a < out.base ∨ out.base + need ≤ a → t.mem.read a = s.mem.read a)))

/-- R255, R257: ENC writes the header, the opcode stream of the image and the trailer, and returns their length, exactly when `OUT` has
room for all three; with less room it raises `OutputIsTooSmall_E`, and with too few pixel bytes `NotEnoughPixelData`, which comes
first (R325).
The exact room (R257) is an inference the spec marks as its own. -/
def Obligations.EncWritesHeaderStreamTrailer : Prop :=
  ∀ (s : State) (pix out : Region), Accepted (.enc pix out) s →
    let body := s.imageOpcodes pix
    let total := 14 + body.length + 8
    (pix.len < s.cfg.nbytes → ∃ t, issue (.enc pix out) s = .next t ∧ t.status = .error .notEnoughPixelData) ∧
    (s.cfg.nbytes ≤ pix.len → out.len < total →
      ∃ t, issue (.enc pix out) s = .next t ∧ t.status = .error .outputIsTooSmallE) ∧
    (s.cfg.nbytes ≤ pix.len → total ≤ out.len →
      ∃ t, issue (.enc pix out) s = .next t ∧ t.status = .ok ∧ t.reply = .count total ∧ t.dir = .none ∧ t.cfg = s.cfg ∧
        t.mem.readBytes out.base total = s.cfg.toBytes ++ body ++ [0#8, 0#8, 0#8, 0#8, 0#8, 0#8, 0#8, 1#8] ∧
        (∀ a, a < out.base ∨ out.base + total ≤ a → t.mem.read a = s.mem.read a))

/-- R258: ENC is a function of `CFG`, `RUN1_POLICY` and the first `N` bytes of `PIX`: two machines that agree on these, whatever else
they hold and wherever the buffers lie, return the same count and write the same bytes.
The spec marks this as its own inference. -/
def Obligations.EncIsAFunctionOfItsPixels : Prop :=
  ∀ (s s' t t' : State) (pix pix' out out' : Region) (n n' : Nat),
    s.cfg = s'.cfg → s.params.run1Policy = s'.params.run1Policy →
    (∀ j, j < s.cfg.nbytes → s.mem.read (pix.base + j) = s'.mem.read (pix'.base + j)) →
    issue (.enc pix out) s = .next t → t.reply = .count n →
    issue (.enc pix' out') s' = .next t' → t'.reply = .count n' →
      n = n' ∧ t.mem.readBytes out.base n = t'.mem.readBytes out'.base n

/-- R299: DEC of what ENC wrote gives back the pixels and the header, in both channel modes, under either policy, with a zero area too.
The spec marks this as its own inference. -/
def Obligations.DecodeOfEncodeIsTheImage : Prop :=
  ∀ (s t : State) (pix out back : Region) (n : Nat),
    issue (.enc pix out) s = .next t → t.reply = .count n →
    back.len = s.cfg.nbytes → n ≤ s.params.maxInLen → back.len ≤ s.params.maxPixLen → Disjoint ⟨out.base, n⟩ back →
      ∃ u, issue (.dec ⟨out.base, n⟩ back) t = .next u ∧ u.status = .ok ∧ u.reply = .header s.cfg ∧ u.cfg = s.cfg ∧
        ∀ j, j < s.cfg.nbytes → u.mem.read (back.base + j) = s.mem.read (pix.base + j)

/-! ### Refusals, errors, whole-machine rules (60_exceptions) -/

/-- R320, R321, R324, R329: a command is refused exactly when one of its preconditions fails; an accepted command ends in a next state, a
success or an error, and never stops. -/
def Obligations.CommandsAreRefusedOrComplete : Prop :=
  ∀ (c : Command) (s : State),
    ((∃ r, issue c s = .refused r) ↔ ¬ Accepted c s) ∧ (Accepted c s → ∃ t, issue c s = .next t)

/-- 20_memory R50, R63: no access outside a buffer is ever issued: no step of the machine, in any state, is a fault. The
fault itself is the model's (log 9). -/
def Obligations.NoStepFaults : Prop :=
  ∀ s : State, NoFault (step s)

/-- R330: an error writes its code to `STATUS`, sets `DIR` to NONE, keeps `CFG` and `CFG_VALID` (but for DEC, which keeps a header it has
parsed), and leaves every byte outside the output buffer as it was. -/
def Obligations.ErrorEndsTheStreamAndKeepsCfg : Prop :=
  ∀ (c : Command) (s t : State) (e : ErrorCode), issue c s = .next t → t.reply = .error e →
    t.status = .error e ∧ t.dir = .none ∧
    ((∀ inp pix, c ≠ .dec inp pix) → t.cfg = s.cfg ∧ t.cfgValid = s.cfgValid) ∧
    MemSameOutside c.written s t

/-- R320, R323: a command raises only the errors of its row. -/
def Obligations.CommandsRaiseOnlyTheirErrors : Prop :=
  ∀ (c : Command) (s t : State) (e : ErrorCode), issue c s = .next t → t.reply = .error e → e ∈ rowErrors c

/-- R31, R322: `STATUS` holds the outcome of the last command that completed or failed: the error it raised, or 0 (the two commands that
only read leave it); its codes are those of R322. That the two reading commands leave it is read from their own rules (log 10). -/
def Obligations.StatusReportsTheOutcome : Prop :=
  (∀ (c : Command) (s t : State) (e : ErrorCode), issue c s = .next t → t.reply = .error e → t.status = .error e) ∧
  (∀ (c : Command) (s t : State), issue c s = .next t → (∀ e, t.reply ≠ .error e) → c ≠ .getHeader → c ≠ .getStatus →
    t.status = .ok) ∧
  Status.ok.code = 0 ∧ (Status.error .notEnoughData).code = 1 ∧ (Status.error .invalidMagic).code = 2 ∧
  (Status.error .invalidChannelsValue).code = 3 ∧ (Status.error .invalidColorSpaceValue).code = 4 ∧
  (Status.error .outputIsTooSmallD).code = 5 ∧ (Status.error .notEnoughPixelData).code = 6 ∧
  (Status.error .outputIsTooSmallE).code = 7

/-- R326: the order of DEC's errors: the header's (R144), then `OutputIsTooSmall_D`, then the body's `NotEnoughData`; a header that
parsed is kept. DEC_BODY raises `OutputIsTooSmall_D` before `NotEnoughData`, and DEC_RANGE only `NotEnoughData`. -/
def Obligations.DecErrorOrder : Prop :=
  ∀ (s : State) (inp pix : Region),
    (Accepted (.dec inp pix) s →
      (∀ e, parseHeader inp.len (s.mem.readBytes inp.base hdrLen) = .error e →
        ∃ t, issue (.dec inp pix) s = .next t ∧ t.status = .error e ∧ t.cfg = s.cfg ∧ t.cfgValid = s.cfgValid) ∧
      (∀ h, parseHeader inp.len (s.mem.readBytes inp.base hdrLen) = .ok h →
        (pix.len < h.nbytes → ∃ t, issue (.dec inp pix) s = .next t ∧ t.status = .error .outputIsTooSmallD ∧
          t.cfg = h ∧ t.cfgValid = true) ∧
        (h.nbytes ≤ pix.len → ∃ t, issue (.dec inp pix) s = .next t ∧
          (t.status = .ok ∧ t.reply = .header h ∨ t.status = .error .notEnoughData) ∧ t.cfg = h ∧ t.cfgValid = true))) ∧
    (Accepted (.decBody inp pix) s →
      (pix.len < s.cfg.nbytes → ∃ t, issue (.decBody inp pix) s = .next t ∧ t.status = .error .outputIsTooSmallD) ∧
      (s.cfg.nbytes ≤ pix.len → ∃ t, issue (.decBody inp pix) s = .next t ∧
        (t.status = .ok ∨ t.status = .error .notEnoughData))) ∧
    (Accepted (.decRange inp pix) s → ∃ t, issue (.decRange inp pix) s = .next t ∧
      (t.status = .ok ∨ t.status = .error .notEnoughData))

/-- 10_state R23: `CFG` and `CFG_VALID` are written by SET_HEADER, HDR_DEC and DEC, and by RESET, and by no other command. -/
def Obligations.OnlyHeaderCommandsWriteCfg : Prop :=
  ∀ (c : Command) (s t : State), issue c s = .next t → c ≠ .reset →
    (∀ w h ch cs, c ≠ .setHeader w h ch cs) → (∀ inp, c ≠ .hdrDec inp) → (∀ inp pix, c ≠ .dec inp pix) →
      t.cfg = s.cfg ∧ t.cfgValid = s.cfgValid

/-- 20_memory R62: a command, whatever its outcome, writes no byte outside its output buffer. -/
def Obligations.CommandsWriteOnlyTheirOutputBuffer : Prop :=
  ∀ (c : Command) (s t : State), issue c s = .next t → MemSameOutside c.written s t

/-- 20_memory R62: a successful encode command writes `OUT` only below the count it returns, and DEC and DEC_BODY write `PIX` only below
`NBYTES`. -/
def Obligations.SuccessWritesOnlyWhatItProduces : Prop :=
  (∀ (c : Command) (s t : State) (out : Region) (n : Nat), issue c s = .next t → t.reply = .count n →
    (c = .hdrEnc out ∨ c = .encFinish out ∨ ∃ pix, c = .encRange pix out ∨ c = .enc pix out) →
      n ≤ out.len ∧ ∀ a, a < out.base ∨ out.base + n ≤ a → t.mem.read a = s.mem.read a) ∧
  (∀ (c : Command) (s t : State) (inp pix : Region), issue c s = .next t → t.status = .ok →
    (c = .dec inp pix ∨ c = .decBody inp pix) →
      t.cfg.nbytes ≤ pix.len ∧ ∀ a, a < pix.base ∨ pix.base + t.cfg.nbytes ≤ a → t.mem.read a = s.mem.read a)

/-- The invariant of command boundaries (10_state R26, R27, R32; 43_cache_index R208; 70 R373; the canonical memory, log 2) is kept by
every step, from every state that meets it.
The spec marks this as its own inference. -/
def Obligations.StepKeepsTheInvariant : Prop :=
  ∀ s t : State, Inv s → step s = .next t → Inv t

/-- The invariant holds after power-on reset. -/
def Obligations.ResetMeetsTheInvariant : Prop := Inv State.reset

/-- R338: between commands the block is idle and holds its state; the host's byte writes (20_memory R61) change host memory and no
register of the block. The list of the host's moves is the model's (log 4). -/
def Obligations.IdleBlockHoldsItsState : Prop :=
  (∀ s : State, s.pending = [] → step s = .next s) ∧
  (∀ (s : State) (a : Nat) (b : Byte) (rest : List HostMove), s.pending = .write a b :: rest →
    ∃ t, step s = .next t ∧ t.mem.read a = b ∧ (∀ x, x ≠ a → t.mem.read x = s.mem.read x) ∧
      t.cfg = s.cfg ∧ t.cfgValid = s.cfgValid ∧ t.dir = s.dir ∧ t.stream = s.stream ∧ t.status = s.status ∧
      t.pending = rest)
end

