-- ==== Sys2Proof/Laws/Memory.lean ====
section
/-! SUPPORT. The laws of host memory: what is read after a write, and that every memory operation keeps the canonical form. -/

namespace Sys2Proof.Machine

theorem Memory.read_insert (c : Host.Cell) (m : Memory) (a : Nat) (h : ∀ d ∈ m, d.1 ≠ c.1) :
    (Memory.insert c m).read a = if c.1 = a then c.2 else m.read a := by
  induction m with
  | nil => simp [Memory.insert, Memory.read]
  | cons d m ih =>
    have hd : d.1 ≠ c.1 := h d (by simp)
    have ih' := ih fun e he => h e (by simp [he])
    by_cases hlt : c.1 < d.1
    · simp [Memory.insert, hlt, Memory.read]
    · simp only [Memory.insert, hlt, if_false, Memory.read, ih']
      by_cases hda : d.1 = a
      · have : c.1 ≠ a := fun e => hd (hda.trans e.symm)
        simp [hda, this]
      · simp [hda]

theorem Memory.read_erase (m : Memory) (x a : Nat) :
    (m.erase x).read a = if x = a then Memory.unlisted else m.read a := by
  induction m with
  | nil => simp [Memory.erase, Memory.read]
  | cons d m ih =>
    unfold Memory.erase at ih ⊢
    by_cases hd : d.1 = x
    · rw [List.filter_cons_of_neg (by simp [hd]), ih]
      by_cases hx : x = a <;> simp [Memory.read, hd, hx]
    · rw [List.filter_cons_of_pos (by simp [hd])]
      by_cases hda : d.1 = a
      · have : x ≠ a := fun e => hd (hda.trans e.symm)
        simp [Memory.read, hda, this]
      · simp [Memory.read, hda, ih]

theorem Memory.mem_erase {m : Memory} {x : Nat} {d : Host.Cell} (h : d ∈ m.erase x) : d ∈ m ∧ d.1 ≠ x := by
  simpa [Memory.erase] using h

/-- Reading after a write: the byte written there, and every other address as before. -/
@[simp] theorem Memory.read_write (m : Memory) (x a : Nat) (b : Byte) :
    (m.write x b).read a = if x = a then b else m.read a := by
  unfold Memory.write
  split
  · next h => simp [Memory.read_erase, h]
  · rw [Memory.read_insert _ _ _ fun d hd => (Memory.mem_erase hd).2, Memory.read_erase]
    by_cases hx : x = a <;> simp [hx]

/-- Reading after a write of bytes in a row. -/
theorem Memory.read_writeBytes (m : Memory) (x a : Nat) (bs : List Byte) :
    (m.writeBytes x bs).read a = if x ≤ a ∧ a < x + bs.length then bs.getD (a - x) 0 else m.read a := by
  induction bs generalizing m x with
  | nil =>
    have : ¬ (x ≤ a ∧ a < x + ([] : List Byte).length) := by simp
    simp only [Memory.writeBytes, if_neg this]
  | cons b bs ih =>
    simp only [Memory.writeBytes, ih, Memory.read_write, List.length_cons]
    by_cases hx : x = a
    · subst hx; simp
    · by_cases hin : x + 1 ≤ a ∧ a < x + 1 + bs.length
      · have h2 : x ≤ a ∧ a < x + (bs.length + 1) := by omega
        rw [if_pos hin, if_pos h2]
        obtain ⟨k, hk⟩ : ∃ k, a - x = k + 1 := ⟨a - x - 1, by omega⟩
        have hk' : a - (x + 1) = k := by omega
        simp [hk, hk']
      · have h2 : ¬ (x ≤ a ∧ a < x + (bs.length + 1)) := by omega
        rw [if_neg hin, if_neg h2, if_neg hx]

theorem Memory.read_writeBytes_outside (m : Memory) (x a : Nat) (bs : List Byte) (h : a < x ∨ x + bs.length ≤ a) :
    (m.writeBytes x bs).read a = m.read a := by
  rw [Memory.read_writeBytes, if_neg (by omega)]

theorem Memory.writeBytes_append (m : Memory) (x : Nat) (as bs : List Byte) :
    m.writeBytes x (as ++ bs) = (m.writeBytes x as).writeBytes (x + as.length) bs := by
  induction as generalizing m x with
  | nil => simp [Memory.writeBytes]
  | cons a as ih => simp [Memory.writeBytes, ih, Nat.add_assoc, Nat.add_comm 1]

@[simp] theorem Memory.length_readBytes (m : Memory) (a n : Nat) : (m.readBytes a n).length = n := by
  induction n generalizing a with
  | zero => rfl
  | succ n ih => simp [Memory.readBytes, ih]

theorem Memory.getD_readBytes (m : Memory) (a n j : Nat) (h : j < n) : (m.readBytes a n).getD j 0 = m.read (a + j) := by
  induction n generalizing a j with
  | zero => omega
  | succ n ih =>
    cases j with
    | zero => simp [Memory.readBytes]
    | succ j =>
      have := ih (a + 1) j (by omega)
      simpa [Memory.readBytes, Nat.add_assoc, Nat.add_comm 1] using this

/-- Two memories that agree on an interval give the same bytes of it. -/
theorem Memory.readBytes_congr (m m' : Memory) (a n : Nat) (h : ∀ x, a ≤ x → x < a + n → m.read x = m'.read x) :
    m.readBytes a n = m'.readBytes a n := by
  induction n generalizing a with
  | zero => rfl
  | succ n ih =>
    simp only [Memory.readBytes]
    rw [h a (by omega) (by omega), ih (a + 1) fun x h1 h2 => h x (by omega) (by omega)]

theorem Memory.readBytes_writeBytes (m : Memory) (x : Nat) (bs : List Byte) :
    (m.writeBytes x bs).readBytes x bs.length = bs := by
  apply List.ext_getElem (by simp)
  intro j h1 h2
  have hg := Memory.getD_readBytes (m.writeBytes x bs) x bs.length j h2
  rw [Memory.read_writeBytes, if_pos ⟨by omega, by omega⟩] at hg
  simpa [List.getD_eq_getElem?_getD, h2] using hg

theorem Memory.mem_insert {c e : Host.Cell} {m : Memory} (h : e ∈ Memory.insert c m) : e = c ∨ e ∈ m := by
  induction m with
  | nil => simpa [Memory.insert] using h
  | cons d m ih =>
    unfold Memory.insert at h
    split at h
    · simpa using h
    · rcases List.mem_cons.1 h with rfl | h
      · simp
      · rcases ih h with h | h <;> simp [h]

theorem Memory.insert_pairwise (c : Host.Cell) (m : Memory) (h : m.Pairwise fun c d => c.1 < d.1)
    (hne : ∀ d ∈ m, d.1 ≠ c.1) : (Memory.insert c m).Pairwise fun c d => c.1 < d.1 := by
  induction m with
  | nil => simp [Memory.insert]
  | cons d m ih =>
    have hd := List.pairwise_cons.1 h
    unfold Memory.insert
    split
    · next hlt =>
      refine List.pairwise_cons.2 ⟨fun e he => ?_, h⟩
      rcases List.mem_cons.1 he with rfl | he
      · exact hlt
      · exact Nat.lt_trans hlt (hd.1 e he)
    · next hlt =>
      refine List.pairwise_cons.2 ⟨fun e he => ?_, ih hd.2 fun e he => hne e (by simp [he])⟩
      rcases Memory.mem_insert he with rfl | he
      · have := hne d (by simp); omega
      · exact hd.1 e he

/-- Writing a byte keeps the canonical form. -/
theorem Memory.wf_write (m : Memory) (x : Nat) (b : Byte) (h : m.wf = true) : (m.write x b).wf = true := by
  simp only [Memory.wf, Bool.and_eq_true, decide_eq_true_eq, List.all_eq_true, Bool.not_eq_true',
    decide_eq_false_iff_not] at h ⊢
  have herase : (m.erase x).Pairwise fun c d => c.1 < d.1 := h.1.filter _
  unfold Memory.write
  split
  · exact ⟨herase, fun c hc => h.2 c (Memory.mem_erase hc).1⟩
  · next hb =>
    refine ⟨Memory.insert_pairwise _ _ herase fun d hd => (Memory.mem_erase hd).2, fun c hc => ?_⟩
    rcases Memory.mem_insert hc with rfl | hc
    · exact hb
    · exact h.2 c (Memory.mem_erase hc).1

/-- Writing bytes keeps the canonical form. -/
theorem Memory.wf_writeBytes (m : Memory) (x : Nat) (bs : List Byte) (h : m.wf = true) : (m.writeBytes x bs).wf = true := by
  induction bs generalizing m x with
  | nil => exact h
  | cons b bs ih => exact ih _ _ (Memory.wf_write m x b h)

/-- Host memory is in canonical form after reset. -/
theorem State.reset_mem_wf : State.reset.mem.wf = true := by decide

end Sys2Proof.Machine
end

