-- ==== Sys2Proof/Laws/State.lean ====
section
/-! SUPPORT. One lemma per field of State per named update, each true by definition, so that no later proof unfolds an update. -/

namespace Sys2Proof.Machine

/-! ### start -/

@[simp] theorem start_cfgValid (s : State) (inp out pix : Region) : (s.start inp out pix).cfgValid = s.cfgValid := rfl
@[simp] theorem start_cfg (s : State) (inp out pix : Region) : (s.start inp out pix).cfg = s.cfg := rfl
@[simp] theorem start_dir (s : State) (inp out pix : Region) : (s.start inp out pix).dir = s.dir := rfl
@[simp] theorem start_stream (s : State) (inp out pix : Region) : (s.start inp out pix).stream = s.stream := rfl
@[simp] theorem start_status (s : State) (inp out pix : Region) : (s.start inp out pix).status = s.status := rfl
@[simp] theorem start_launch (s : State) (inp out pix : Region) : (s.start inp out pix).launch = ⟨inp, out, pix, 0, 0, 0⟩ := rfl
@[simp] theorem start_mem (s : State) (inp out pix : Region) : (s.start inp out pix).mem = s.mem := rfl
@[simp] theorem start_pending (s : State) (inp out pix : Region) : (s.start inp out pix).pending = s.pending := rfl
@[simp] theorem start_reply (s : State) (inp out pix : Region) : (s.start inp out pix).reply = s.reply := rfl
@[simp] theorem start_params (s : State) (inp out pix : Region) : (s.start inp out pix).params = s.params := rfl
@[simp] theorem start_draw (s : State) (inp out pix : Region) : (s.start inp out pix).draw = s.draw := rfl

/-! ### nextPixel -/

@[simp] theorem nextPixel_cfgValid (s : State) : (s.nextPixel).cfgValid = s.cfgValid := rfl
@[simp] theorem nextPixel_cfg (s : State) : (s.nextPixel).cfg = s.cfg := rfl
@[simp] theorem nextPixel_dir (s : State) : (s.nextPixel).dir = s.dir := rfl
@[simp] theorem nextPixel_stream (s : State) : (s.nextPixel).stream = s.stream := rfl
@[simp] theorem nextPixel_status (s : State) : (s.nextPixel).status = s.status := rfl
@[simp] theorem nextPixel_launch (s : State) : (s.nextPixel).launch = { s.launch with pixPos := s.launch.pixPos + s.cfg.ch.bytes } := rfl
@[simp] theorem nextPixel_mem (s : State) : (s.nextPixel).mem = s.mem := rfl
@[simp] theorem nextPixel_pending (s : State) : (s.nextPixel).pending = s.pending := rfl
@[simp] theorem nextPixel_reply (s : State) : (s.nextPixel).reply = s.reply := rfl
@[simp] theorem nextPixel_params (s : State) : (s.nextPixel).params = s.params := rfl
@[simp] theorem nextPixel_draw (s : State) : (s.nextPixel).draw = s.draw := rfl

/-! ### advanceIn -/

@[simp] theorem advanceIn_cfgValid (s : State) (n : Nat) : (s.advanceIn n).cfgValid = s.cfgValid := rfl
@[simp] theorem advanceIn_cfg (s : State) (n : Nat) : (s.advanceIn n).cfg = s.cfg := rfl
@[simp] theorem advanceIn_dir (s : State) (n : Nat) : (s.advanceIn n).dir = s.dir := rfl
@[simp] theorem advanceIn_stream (s : State) (n : Nat) : (s.advanceIn n).stream = s.stream := rfl
@[simp] theorem advanceIn_status (s : State) (n : Nat) : (s.advanceIn n).status = s.status := rfl
@[simp] theorem advanceIn_launch (s : State) (n : Nat) : (s.advanceIn n).launch = { s.launch with inPos := s.launch.inPos + n } := rfl
@[simp] theorem advanceIn_mem (s : State) (n : Nat) : (s.advanceIn n).mem = s.mem := rfl
@[simp] theorem advanceIn_pending (s : State) (n : Nat) : (s.advanceIn n).pending = s.pending := rfl
@[simp] theorem advanceIn_reply (s : State) (n : Nat) : (s.advanceIn n).reply = s.reply := rfl
@[simp] theorem advanceIn_params (s : State) (n : Nat) : (s.advanceIn n).params = s.params := rfl
@[simp] theorem advanceIn_draw (s : State) (n : Nat) : (s.advanceIn n).draw = s.draw := rfl

/-! ### loadHeader -/

@[simp] theorem loadHeader_cfgValid (s : State) (h : Header) : (s.loadHeader h).cfgValid = true := rfl
@[simp] theorem loadHeader_cfg (s : State) (h : Header) : (s.loadHeader h).cfg = h := rfl
@[simp] theorem loadHeader_dir (s : State) (h : Header) : (s.loadHeader h).dir = s.dir := rfl
@[simp] theorem loadHeader_stream (s : State) (h : Header) : (s.loadHeader h).stream = s.stream := rfl
@[simp] theorem loadHeader_status (s : State) (h : Header) : (s.loadHeader h).status = .ok := rfl
@[simp] theorem loadHeader_launch (s : State) (h : Header) : (s.loadHeader h).launch = s.launch := rfl
@[simp] theorem loadHeader_mem (s : State) (h : Header) : (s.loadHeader h).mem = s.mem := rfl
@[simp] theorem loadHeader_pending (s : State) (h : Header) : (s.loadHeader h).pending = s.pending := rfl
@[simp] theorem loadHeader_reply (s : State) (h : Header) : (s.loadHeader h).reply = s.reply := rfl
@[simp] theorem loadHeader_params (s : State) (h : Header) : (s.loadHeader h).params = s.params := rfl
@[simp] theorem loadHeader_draw (s : State) (h : Header) : (s.loadHeader h).draw = s.draw := rfl

/-! ### streamInit -/

@[simp] theorem streamInit_cfgValid (d : StreamDir) (s : State) : (streamInit d s).cfgValid = s.cfgValid := rfl
@[simp] theorem streamInit_cfg (d : StreamDir) (s : State) : (streamInit d s).cfg = s.cfg := rfl
@[simp] theorem streamInit_dir (d : StreamDir) (s : State) : (streamInit d s).dir = d.toDir := rfl
@[simp] theorem streamInit_stream (d : StreamDir) (s : State) : (streamInit d s).stream = StreamState.initial := rfl
@[simp] theorem streamInit_status (d : StreamDir) (s : State) : (streamInit d s).status = .ok := rfl
@[simp] theorem streamInit_launch (d : StreamDir) (s : State) : (streamInit d s).launch = s.launch := rfl
@[simp] theorem streamInit_mem (d : StreamDir) (s : State) : (streamInit d s).mem = s.mem := rfl
@[simp] theorem streamInit_pending (d : StreamDir) (s : State) : (streamInit d s).pending = s.pending := rfl
@[simp] theorem streamInit_reply (d : StreamDir) (s : State) : (streamInit d s).reply = s.reply := rfl
@[simp] theorem streamInit_params (d : StreamDir) (s : State) : (streamInit d s).params = s.params := rfl
@[simp] theorem streamInit_draw (d : StreamDir) (s : State) : (streamInit d s).draw = s.draw := rfl

/-! ### streamClose -/

@[simp] theorem streamClose_cfgValid (s : State) : (streamClose s).cfgValid = s.cfgValid := rfl
@[simp] theorem streamClose_cfg (s : State) : (streamClose s).cfg = s.cfg := rfl
@[simp] theorem streamClose_dir (s : State) : (streamClose s).dir = .none := rfl
@[simp] theorem streamClose_stream (s : State) : (streamClose s).stream = s.stream := rfl
@[simp] theorem streamClose_status (s : State) : (streamClose s).status = .ok := rfl
@[simp] theorem streamClose_launch (s : State) : (streamClose s).launch = s.launch := rfl
@[simp] theorem streamClose_mem (s : State) : (streamClose s).mem = s.mem := rfl
@[simp] theorem streamClose_pending (s : State) : (streamClose s).pending = s.pending := rfl
@[simp] theorem streamClose_reply (s : State) : (streamClose s).reply = s.reply := rfl
@[simp] theorem streamClose_params (s : State) : (streamClose s).params = s.params := rfl
@[simp] theorem streamClose_draw (s : State) : (streamClose s).draw = s.draw := rfl

/-! ### resetBlock -/

@[simp] theorem resetBlock_cfgValid (s : State) : (resetBlock s).cfgValid = false := rfl
@[simp] theorem resetBlock_cfg (s : State) : (resetBlock s).cfg = freeHeader s.draw := rfl
@[simp] theorem resetBlock_dir (s : State) : (resetBlock s).dir = .none := rfl
@[simp] theorem resetBlock_stream (s : State) : (resetBlock s).stream = freeStream (s.draw + headerDraws) := rfl
@[simp] theorem resetBlock_status (s : State) : (resetBlock s).status = .ok := rfl
@[simp] theorem resetBlock_launch (s : State) : (resetBlock s).launch = s.launch := rfl
@[simp] theorem resetBlock_mem (s : State) : (resetBlock s).mem = s.mem := rfl
@[simp] theorem resetBlock_pending (s : State) : (resetBlock s).pending = s.pending := rfl
@[simp] theorem resetBlock_reply (s : State) : (resetBlock s).reply = s.reply := rfl
@[simp] theorem resetBlock_params (s : State) : (resetBlock s).params = s.params := rfl
@[simp] theorem resetBlock_draw (s : State) : (resetBlock s).draw = s.draw + headerDraws + streamDraws := rfl

/-! ### raiseError_none -/

@[simp] theorem raiseError_none_cfgValid (e : ErrorCode) (s : State) : (raiseError e none s).cfgValid = s.cfgValid := rfl
@[simp] theorem raiseError_none_cfg (e : ErrorCode) (s : State) : (raiseError e none s).cfg = s.cfg := rfl
@[simp] theorem raiseError_none_dir (e : ErrorCode) (s : State) : (raiseError e none s).dir = .none := rfl
@[simp] theorem raiseError_none_stream (e : ErrorCode) (s : State) : (raiseError e none s).stream = s.stream := rfl
@[simp] theorem raiseError_none_status (e : ErrorCode) (s : State) : (raiseError e none s).status = .error e := rfl
@[simp] theorem raiseError_none_launch (e : ErrorCode) (s : State) : (raiseError e none s).launch = Launch.idle := rfl
@[simp] theorem raiseError_none_mem (e : ErrorCode) (s : State) : (raiseError e none s).mem = s.mem := rfl
@[simp] theorem raiseError_none_pending (e : ErrorCode) (s : State) : (raiseError e none s).pending = s.pending := rfl
@[simp] theorem raiseError_none_reply (e : ErrorCode) (s : State) : (raiseError e none s).reply = .error e := rfl
@[simp] theorem raiseError_none_params (e : ErrorCode) (s : State) : (raiseError e none s).params = s.params := rfl
@[simp] theorem raiseError_none_draw (e : ErrorCode) (s : State) : (raiseError e none s).draw = s.draw := rfl

/-! ### raiseError_some -/

@[simp] theorem raiseError_some_cfgValid (e : ErrorCode) (b : Region) (s : State) : (raiseError e (some b) s).cfgValid = s.cfgValid := rfl
@[simp] theorem raiseError_some_cfg (e : ErrorCode) (b : Region) (s : State) : (raiseError e (some b) s).cfg = s.cfg := rfl
@[simp] theorem raiseError_some_dir (e : ErrorCode) (b : Region) (s : State) : (raiseError e (some b) s).dir = .none := rfl
@[simp] theorem raiseError_some_stream (e : ErrorCode) (b : Region) (s : State) : (raiseError e (some b) s).stream = freeStream s.draw := rfl
@[simp] theorem raiseError_some_status (e : ErrorCode) (b : Region) (s : State) : (raiseError e (some b) s).status = .error e := rfl
@[simp] theorem raiseError_some_launch (e : ErrorCode) (b : Region) (s : State) : (raiseError e (some b) s).launch = Launch.idle := rfl
@[simp] theorem raiseError_some_mem (e : ErrorCode) (b : Region) (s : State) : (raiseError e (some b) s).mem = s.mem.writeBytes b.base (freeBytes (s.draw + streamDraws) b.len) := rfl
@[simp] theorem raiseError_some_pending (e : ErrorCode) (b : Region) (s : State) : (raiseError e (some b) s).pending = s.pending := rfl
@[simp] theorem raiseError_some_reply (e : ErrorCode) (b : Region) (s : State) : (raiseError e (some b) s).reply = .error e := rfl
@[simp] theorem raiseError_some_params (e : ErrorCode) (b : Region) (s : State) : (raiseError e (some b) s).params = s.params := rfl
@[simp] theorem raiseError_some_draw (e : ErrorCode) (b : Region) (s : State) : (raiseError e (some b) s).draw = s.draw + streamDraws + b.len := rfl

end Sys2Proof.Machine
end

