-- ==== Sys2Proof/Laws/Ops.lean ====
section
/-! SUPPORT. What each shared operation can do, said once: a piece of pseudocode that goes on (`.ok`), an opcode that answers a next
state, an error that is raised. Later proofs cite these and do not unfold the operations. -/

namespace Sys2Proof.Machine

/-! ### Sequencing -/

@[simp] theorem Attempt.ok_bind {α β : Type} (a : α) (f : α → Attempt β) : ((Except.ok a : Attempt α) >>= f) = f a := rfl

@[simp] theorem Attempt.error_bind {α β : Type} (h : Halt) (f : α → Attempt β) :
    ((Except.error h : Attempt α) >>= f) = .error h := rfl

/-- A sequence goes on exactly when both parts do. -/
theorem Attempt.bind_eq_ok {α β : Type} {x : Attempt α} {f : α → Attempt β} {b : β} :
    (x >>= f) = .ok b ↔ ∃ a, x = .ok a ∧ f a = .ok b := by
  cases x <;> simp

/-- A sequence ends early in its first part, or in its second. -/
theorem Attempt.bind_eq_error {α β : Type} {x : Attempt α} {f : α → Attempt β} {h : Halt} :
    (x >>= f) = .error h ↔ x = .error h ∨ ∃ a, x = .ok a ∧ f a = .error h := by
  cases x <;> simp

theorem Attempt.map_eq_ok {α β : Type} {x : Attempt α} {f : α → β} {b : β} :
    Except.map f x = .ok b ↔ ∃ a, x = .ok a ∧ f a = b := by
  cases x <;> simp [Except.map]

theorem Attempt.map_eq_error {α β : Type} {x : Attempt α} {f : α → β} {h : Halt} :
    Except.map f x = .error h ↔ x = .error h := by
  cases x <;> simp [Except.map]

@[simp] theorem Attempt.ofOutcome_eq_ok {o : Host.Outcome State Fault Refusal} {t : State} :
    Attempt.ofOutcome o = .ok t ↔ o = .next t := by
  cases o <;> simp [Attempt.ofOutcome]

/-! ### Channels and pixels -/

theorem Channels.bytes_pos (ch : Channels) : 0 < ch.bytes := by cases ch <;> decide

@[simp] theorem Pixel.length_toBytes (ch : Channels) (p : Pixel) : (p.toBytes ch).length = ch.bytes := by cases ch <;> rfl

@[simp] theorem Pixel.eqIn_refl (ch : Channels) (p : Pixel) : p.eqIn ch p = true := by simp [Pixel.eqIn]

theorem Pixel.eqIn_four {p q : Pixel} : p.eqIn .four q = true ↔ p = q := by
  cases p; cases q; simp [Pixel.eqIn, and_assoc]

theorem Pixel.eqIn_three {p q : Pixel} : p.eqIn .three q = true ↔ p.r = q.r ∧ p.g = q.g ∧ p.b = q.b := by
  simp [Pixel.eqIn, and_assoc]

theorem Pixel.eqIn_comm (ch : Channels) (p q : Pixel) : p.eqIn ch q = q.eqIn ch p := by
  simp [Pixel.eqIn, eq_comm]

/-- Equal pixels have one hash. -/
theorem Pixel.hash_congr {ch : Channels} {p q : Pixel} (h : p.eqIn ch q = true) : p.hash ch = q.hash ch := by
  cases ch
  · obtain ⟨h1, h2, h3⟩ := Pixel.eqIn_three.1 h
    simp [Pixel.hash, h1, h2, h3]
  · rw [Pixel.eqIn_four.1 h]

/-! ### The cache -/

@[simp] theorem StreamState.store_prev (ch : Channels) (px : Pixel) (st : StreamState) : (st.store ch px).prev = st.prev := rfl
@[simp] theorem StreamState.store_run (ch : Channels) (px : Pixel) (st : StreamState) : (st.store ch px).run = st.run := rfl
@[simp] theorem StreamState.store_started (ch : Channels) (px : Pixel) (st : StreamState) : (st.store ch px).started = st.started := rfl
@[simp] theorem StreamState.store_cache (ch : Channels) (px : Pixel) (st : StreamState) :
    (st.store ch px).cache = st.cache.set (px.hash ch) px := rfl

theorem StreamState.store_get (ch : Channels) (px : Pixel) (st : StreamState) (i : Fin 64) :
    (st.store ch px).cache[i] = if i = px.hash ch then px else st.cache[i] := by
  by_cases h : i = px.hash ch
  · subst h; simp
  · have hv : (px.hash ch).val ≠ i.val := fun e => h (Fin.ext e.symm)
    simp [h, hv]

@[simp] theorem StreamState.accept_prev (ch : Channels) (px : Pixel) (st : StreamState) : (st.accept ch px).prev = px := rfl
@[simp] theorem StreamState.accept_run (ch : Channels) (px : Pixel) (st : StreamState) : (st.accept ch px).run = st.run := rfl
@[simp] theorem StreamState.accept_started (ch : Channels) (px : Pixel) (st : StreamState) : (st.accept ch px).started = st.started := rfl
@[simp] theorem StreamState.accept_cache (ch : Channels) (px : Pixel) (st : StreamState) :
    (st.accept ch px).cache = st.cache.set (px.hash ch) px := rfl

/-! ### Buffers -/

/-- `emit` goes on exactly when the bytes fit, and writes them at `OUT_POS`. -/
theorem emit_eq_ok {bs : List Byte} {s t : State} :
    emit bs s = .ok t ↔ s.launch.outPos + bs.length ≤ s.launch.outBuf.len ∧
      t = { s with
        mem := s.mem.writeBytes (s.launch.outBuf.base + s.launch.outPos) bs
        launch := { s.launch with outPos := s.launch.outPos + bs.length } } := by
  unfold emit
  split
  · next h => simp only [Except.ok.injEq, h, true_and]; exact eq_comm
  · next h => simp [h]

/-- `emit` never raises an error: it goes on, or the bytes do not fit. -/
theorem emit_eq_error {bs : List Byte} {s : State} {h : Halt} :
    emit bs s = .error h ↔ s.launch.outBuf.len < s.launch.outPos + bs.length ∧ h = .fault .outsideOut := by
  unfold emit
  split
  · simp; omega
  · simp [eq_comm]; omega

theorem hasPixel_iff {s : State} {k : Nat} :
    s.hasPixel k = true ↔ k * s.cfg.ch.bytes + s.cfg.ch.bytes ≤ s.launch.pixBuf.len := by simp [State.hasPixel]

theorem loadPixel_eq_ok {k : Nat} {s : State} {p : Pixel} :
    loadPixel k s = .ok p ↔ s.hasPixel k = true ∧ p = Pixel.ofBytes s.cfg.ch (s.mem.readBytes (s.pixelAddr k) s.cfg.ch.bytes) := by
  unfold loadPixel
  split
  · next h => simp only [Except.ok.injEq, h, true_and]; exact eq_comm
  · next h => simp [h]

theorem storePixel_eq_next {k : Nat} {p : Pixel} {s t : State} :
    storePixel k p s = .next t ↔ s.hasPixel k = true ∧
      t = { s with mem := s.mem.writeBytes (s.pixelAddr k) (p.toBytes s.cfg.ch) } := by
  unfold storePixel
  split
  · next h => simp only [Host.Outcome.next.injEq, h, true_and]; exact eq_comm
  · next h => simp [h]

/-- An opcode answers a next state exactly when the window has room, and changes memory by its pixel and the stream state, no more. -/
theorem produce_eq_next {px : Pixel} {st : StreamState} {s t : State} :
    produce px st s = .next t ↔ s.hasPixel s.pixelNumber = true ∧
      t = { s with mem := s.mem.writeBytes (s.pixelAddr s.pixelNumber) (px.toBytes s.cfg.ch), stream := st } := by
  by_cases h : s.hasPixel s.pixelNumber = true
  · simp only [produce, storePixel, h, if_true, Host.Outcome.next.injEq, true_and]
    exact eq_comm
  · simp [produce, storePixel, h]

/-- The drain answers a next state exactly when the window has room: one copy of `PREV`, and `RUN` one less. -/
theorem drain_eq_next {s t : State} :
    drain s = .next t ↔ s.hasPixel s.pixelNumber = true ∧
      t = { s with
        mem := s.mem.writeBytes (s.pixelAddr s.pixelNumber) (s.stream.prev.toBytes s.cfg.ch)
        stream := { s.stream with run := s.stream.run - 1 } } := by
  by_cases h : s.hasPixel s.pixelNumber = true
  · simp only [drain, storePixel, h, if_true, Host.Outcome.next.injEq, true_and]
    exact eq_comm
  · simp [drain, storePixel, h]

@[simp] theorem length_freeBytes (d n : Nat) : (freeBytes d n).length = n := by
  induction n generalizing d with
  | zero => rfl
  | succ n ih => simp [freeBytes, ih]

@[simp] theorem length_headerBytes (h : Header) : h.toBytes.length = hdrLen := rfl

end Sys2Proof.Machine
end

