-- ==== Sys2Proof/Laws/Opcodes.lean ====
section
/-! SUPPORT. What running an opcode can do, said once for all six. -/

namespace Sys2Proof.Machine

/-- What an opcode makes of the stream state, the pixel it outputs being the new `PREV`. -/
def OpcodeEffect (ch : Channels) (i : Instr) (st st' : StreamState) : Prop :=
  (∃ k px, i = .index k ∧ px = Pixel.fromSlot ch st.prev st.cache[k] ∧ st' = { st with prev := px }) ∨
  (∃ dr dg db px, i = .diff dr dg db ∧ px = st.prev.addRgb dr dg db ∧ st' = st.accept ch px) ∨
  (∃ dg drg dbg px, i = .luma dg drg dbg ∧ px = st.prev.addRgb (dg + drg) dg (dg + dbg) ∧ st' = st.accept ch px) ∨
  (∃ len, i = .run len ∧ st' = { st with run := BitVec.ofNat 6 (len - 1) }) ∨
  (∃ r g b px, i = .rgb r g b ∧ px = st.prev.setRgb r g b ∧ st' = st.accept ch px) ∨
  (∃ r g b a px, i = .rgba r g b a ∧ px = Pixel.setRgba ch st.prev r g b a ∧ st' = st.accept ch px)

/-- The state an opcode that outputs `px` and makes the stream `st` leads to. -/
def State.afterPixel (s : State) (px : Pixel) (st : StreamState) : State :=
  { s with mem := s.mem.writeBytes (s.pixelAddr s.pixelNumber) (px.toBytes s.cfg.ch), stream := st }

/-- An opcode answers a next state only with room in the window; it then stores its pixel, the new `PREV`, and changes the stream state
as its rule says, and nothing else. -/
theorem exec_next {i : Instr} {s t : State} (h : exec i s = .next t) :
    s.hasPixel s.pixelNumber = true ∧ t = s.afterPixel t.stream.prev t.stream ∧ OpcodeEffect s.cfg.ch i s.stream t.stream := by
  cases i <;> obtain ⟨h1, rfl⟩ := produce_eq_next.1 h <;> refine ⟨h1, rfl, ?_⟩
  · exact .inl ⟨_, _, rfl, rfl, rfl⟩
  · exact .inr (.inl ⟨_, _, _, _, rfl, rfl, rfl⟩)
  · exact .inr (.inr (.inl ⟨_, _, _, _, rfl, rfl, rfl⟩))
  · exact .inr (.inr (.inr (.inl ⟨_, rfl, rfl⟩)))
  · exact .inr (.inr (.inr (.inr (.inl ⟨_, _, _, _, rfl, rfl, rfl⟩))))
  · exact .inr (.inr (.inr (.inr (.inr ⟨_, _, _, _, _, rfl, rfl, rfl⟩))))

/-- With room in the window every opcode answers a next state. -/
theorem exec_of_hasPixel (i : Instr) {s : State} (h : s.hasPixel s.pixelNumber = true) : ∃ t, exec i s = .next t := by
  cases i <;> exact ⟨_, produce_eq_next.2 ⟨h, rfl⟩⟩

theorem roomForPixel_iff {s : State} : RoomForPixel s ↔ s.hasPixel s.pixelNumber = true := by
  simp [RoomForPixel, hasPixel_iff, State.pixelNumber]

/-- The slot of a pixel's hash, as a number. -/
theorem Pixel.hash_val (ch : Channels) (p : Pixel) : (p.hash ch).val = slotOf ch p := by cases ch <;> rfl

/-- A slot equal to the pixel before it, in the channels that count, gives that pixel back. -/
theorem Pixel.fromSlot_eq {ch : Channels} {c p : Pixel} (h : c.eqIn ch p = true) : Pixel.fromSlot ch p c = p := by
  cases ch
  · obtain ⟨x, y, z⟩ := Pixel.eqIn_three.1 h
    simp [Pixel.fromSlot, x, y, z]
  · exact Pixel.eqIn_four.1 h

/-- Equal pixels are stored as the same bytes. -/
theorem Pixel.toBytes_congr {ch : Channels} {p q : Pixel} (h : p.eqIn ch q = true) : p.toBytes ch = q.toBytes ch := by
  cases ch
  · obtain ⟨x, y, z⟩ := Pixel.eqIn_three.1 h
    simp [Pixel.toBytes, x, y, z]
  · rw [Pixel.eqIn_four.1 h]

/-- Adding an integer delta modulo 256. -/
theorem toNat_add_ofInt (a : Byte) (d : Int) : ((a + BitVec.ofInt 8 d).toNat : Int) = ((a.toNat : Int) + d) % 256 := by
  simp [BitVec.toNat_add, BitVec.toNat_ofInt]
  omega

end Sys2Proof.Machine
end

