-- ==== Sys2Proof/Laws/Encoder.lean ====
section
/-! SUPPORT. The encoder's loop, said once: the bytes it emits, the memory it changes, and when it raises an error. -/

namespace Sys2Proof.Machine

/-! ### One pixel -/

theorem length_classify (ch : Channels) (p q : Pixel) :
    1 ≤ (classify ch p q).length ∧ (classify ch p q).length ≤ 5 := by
  unfold classify Delta.lumaBytes
  split
  · simp
  · split
    · simp
    · split <;> simp

theorem length_encFresh (ch : Channels) (px : Pixel) (st : StreamState) : (encFresh ch px st).2.length ≤ 5 := by
  unfold encFresh
  split
  · simp
  · exact (length_classify ..).2

theorem length_flushRun (policy : Run1Policy) (ch : Channels) (st : StreamState) :
    (flushRun policy ch st).2.length = if st.run = 0 then 0 else 1 := by
  unfold flushRun foldFlush
  split
  · rfl
  · split
    · split
      · rfl
      · split <;> rfl
    · rfl

/-- One pixel emits at most 6 bytes (45_encoder R251), fewer than the headroom. -/
theorem length_encPixel (policy : Run1Policy) (ch : Channels) (px : Pixel) (st : StreamState) :
    (encPixel policy ch px st).2.length ≤ 6 := by
  have h1 := length_flushRun policy ch st
  have h2 := length_encFresh ch px (flushRun policy ch st).1
  unfold encPixel accumulate
  split
  · split <;> simp
  · simp only [List.length_append]
    split at h1 <;> omega

/-- One turn of the loop: what it leaves when it goes on. -/
def State.afterEncode (s : State) : State :=
  let r := encPixel s.params.run1Policy s.cfg.ch (Pixel.ofBytes s.cfg.ch (s.mem.readBytes (s.pixelAddr s.pixelNumber) s.cfg.ch.bytes))
    s.stream
  { s with
    stream := r.1
    mem := s.mem.writeBytes (s.launch.outBuf.base + s.launch.outPos) r.2
    launch := { s.launch with
      outPos := s.launch.outPos + r.2.length
      pixPos := s.launch.pixPos + s.cfg.ch.bytes } }

/-- One turn of the loop with a pixel left: it raises the error without headroom, and goes on otherwise. -/
theorem encOne_eq (s : State) (h : s.hasPixel s.pixelNumber = true) :
    encOne s = if s.launch.outBuf.len - s.launch.outPos < 8 then .error (.raised .outputIsTooSmallE s) else .ok s.afterEncode := by
  have hload := loadPixel_eq_ok.2 ⟨h, rfl⟩
  have hlen := length_encPixel s.params.run1Policy s.cfg.ch
    (Pixel.ofBytes s.cfg.ch (s.mem.readBytes (s.pixelAddr s.pixelNumber) s.cfg.ch.bytes)) s.stream
  unfold encOne headroom encStep
  split
  · rfl
  · rw [hload, Attempt.ok_bind]
    exact emit_eq_ok.2 ⟨by simp only [nextPixel_launch]; omega, rfl⟩

/-! ### The pixels of a buffer -/

theorem length_pixelsAt (ch : Channels) (m : Memory) (base n : Nat) : (pixelsAt ch m base n).length = n := by
  induction n generalizing base with
  | zero => rfl
  | succ n ih => simp [pixelsAt, ih]

/-- Memories that agree on the buffer hold the same pixels in it. -/
theorem pixelsAt_congr (ch : Channels) (m m' : Memory) (base n : Nat)
    (h : ∀ a, base ≤ a → a < base + n * ch.bytes → m.read a = m'.read a) : pixelsAt ch m base n = pixelsAt ch m' base n := by
  induction n generalizing base with
  | zero => rfl
  | succ n ih =>
    have hn : (n + 1) * ch.bytes = ch.bytes + n * ch.bytes := by rw [Nat.add_mul, Nat.one_mul, Nat.add_comm]
    simp only [pixelsAt]
    rw [Memory.readBytes_congr m m' base ch.bytes fun a h1 h2 => h a h1 (by omega),
      ih (base + ch.bytes) fun a h1 h2 => h a (by omega) (by omega)]

theorem encPixels_append (policy : Run1Policy) (ch : Channels) (as bs : List Pixel) (st : StreamState) :
    encPixels policy ch (as ++ bs) st =
      ((encPixels policy ch bs (encPixels policy ch as st).1).1,
        (encPixels policy ch as st).2 ++ (encPixels policy ch bs (encPixels policy ch as st).1).2) := by
  induction as generalizing st with
  | nil => rfl
  | cons a as ih => simp [encPixels, ih]

/-! ### The loop -/

/-- Where the loop is: pixel `k` of the buffer is the next, and the two buffers share no byte. -/
structure EncAt (s : State) (k n : Nat) : Prop where
  pos : s.launch.pixPos = k * s.cfg.ch.bytes
  room : (k + n) * s.cfg.ch.bytes ≤ s.launch.pixBuf.len
  apart : Disjoint s.launch.pixBuf s.launch.outBuf

/-- What the loop over `n` pixels from pixel `k` on leaves when it goes on. -/
def State.encoded (s : State) (k n : Nat) : State :=
  let r := encPixels s.params.run1Policy s.cfg.ch
    (pixelsAt s.cfg.ch s.mem (s.launch.pixBuf.base + k * s.cfg.ch.bytes) n) s.stream
  { s with
    stream := r.1
    mem := s.mem.writeBytes (s.launch.outBuf.base + s.launch.outPos) r.2
    launch := { s.launch with
      outPos := s.launch.outPos + r.2.length
      pixPos := s.launch.pixPos + n * s.cfg.ch.bytes } }

/-- The bytes the loop emits. -/
def State.encodedBytes (s : State) (k n : Nat) : List Byte :=
  (encPixels s.params.run1Policy s.cfg.ch
    (pixelsAt s.cfg.ch s.mem (s.launch.pixBuf.base + k * s.cfg.ch.bytes) n) s.stream).2

/-- Two states that differ, if at all, in the stream state, the cursors, and the bytes of the output buffer. -/
structure SameBut (out : Region) (s t : State) : Prop where
  cfg : t.cfg = s.cfg
  cfgValid : t.cfgValid = s.cfgValid
  dir : t.dir = s.dir
  status : t.status = s.status
  pending : t.pending = s.pending
  reply : t.reply = s.reply
  params : t.params = s.params
  draw : t.draw = s.draw
  mem : ∀ a, ¬ (out.base ≤ a ∧ a < out.base + out.len) → t.mem.read a = s.mem.read a
  wf : s.mem.wf = true → t.mem.wf = true

theorem SameBut.refl (out : Region) (s : State) : SameBut out s s :=
  ⟨rfl, rfl, rfl, rfl, rfl, rfl, rfl, rfl, fun _ _ => rfl, id⟩

theorem SameBut.trans {out : Region} {s t u : State} (h : SameBut out s t) (k : SameBut out t u) : SameBut out s u :=
  ⟨k.cfg.trans h.cfg, k.cfgValid.trans h.cfgValid, k.dir.trans h.dir, k.status.trans h.status, k.pending.trans h.pending,
    k.reply.trans h.reply, k.params.trans h.params, k.draw.trans h.draw, fun a ha => (k.mem a ha).trans (h.mem a ha),
    fun hw => k.wf (h.wf hw)⟩

theorem EncAt.hasPixel {s : State} {k n : Nat} (h : EncAt s k (n + 1)) : s.hasPixel s.pixelNumber = true := by
  rw [hasPixel_iff, State.pixelNumber, h.pos, Nat.mul_div_cancel _ (Channels.bytes_pos _)]
  have := h.room
  have e : (k + (n + 1)) * s.cfg.ch.bytes = k * s.cfg.ch.bytes + s.cfg.ch.bytes + n * s.cfg.ch.bytes := by ring
  omega

theorem EncAt.next {s : State} {k n : Nat} (h : EncAt s k (n + 1)) : EncAt s.afterEncode (k + 1) n := by
  refine ⟨?_, ?_, h.apart⟩
  · simp only [State.afterEncode, h.pos]; ring
  · have := h.room
    simp only [State.afterEncode]
    rwa [Nat.add_assoc, Nat.add_comm 1 n]

/-- The turn's output lies in the buffer, so it disturbs nothing else. -/
theorem afterEncode_sameBut {s : State} (hroom : ¬ s.launch.outBuf.len - s.launch.outPos < 8) :
    SameBut s.launch.outBuf s s.afterEncode := by
  refine ⟨rfl, rfl, rfl, rfl, rfl, rfl, rfl, rfl, fun a ha => ?_, fun hw => Memory.wf_writeBytes _ _ _ hw⟩
  have hlen := length_encPixel s.params.run1Policy s.cfg.ch
    (Pixel.ofBytes s.cfg.ch (s.mem.readBytes (s.pixelAddr s.pixelNumber) s.cfg.ch.bytes)) s.stream
  simp only [State.afterEncode]
  exact Memory.read_writeBytes_outside _ _ _ _ (by omega)

/-- The loop's output is its first turn's output and then the rest's. -/
theorem EncAt.encoded_succ {s : State} {k n : Nat} (h : EncAt s k (n + 1))
    (hroom : ¬ s.launch.outBuf.len - s.launch.outPos < 8) :
    s.encoded k (n + 1) = s.afterEncode.encoded (k + 1) n ∧
      s.encodedBytes k (n + 1) =
        (encPixel s.params.run1Policy s.cfg.ch
          (Pixel.ofBytes s.cfg.ch (s.mem.readBytes (s.pixelAddr s.pixelNumber) s.cfg.ch.bytes)) s.stream).2 ++
          s.afterEncode.encodedBytes (k + 1) n := by
  have hnum : s.pixelNumber = k := by rw [State.pixelNumber, h.pos, Nat.mul_div_cancel _ (Channels.bytes_pos _)]
  have hsame := afterEncode_sameBut hroom
  have hstream : s.afterEncode.stream = (encPixel s.params.run1Policy s.cfg.ch
      (Pixel.ofBytes s.cfg.ch (s.mem.readBytes (s.pixelAddr k) s.cfg.ch.bytes)) s.stream).1 := by
    rw [← hnum]; rfl
  have hadd : (k + 1) * s.cfg.ch.bytes = k * s.cfg.ch.bytes + s.cfg.ch.bytes := by ring
  have hpix : pixelsAt s.cfg.ch s.afterEncode.mem (s.launch.pixBuf.base + (k + 1) * s.cfg.ch.bytes) n =
      pixelsAt s.cfg.ch s.mem (s.launch.pixBuf.base + k * s.cfg.ch.bytes + s.cfg.ch.bytes) n := by
    rw [hadd, ← Nat.add_assoc]
    refine pixelsAt_congr _ _ _ _ _ fun a h1 h2 => hsame.mem a fun hin => h.apart a ⟨⟨by omega, ?_⟩, hin⟩
    have := h.room
    have e : (k + (n + 1)) * s.cfg.ch.bytes = k * s.cfg.ch.bytes + s.cfg.ch.bytes + n * s.cfg.ch.bytes := by ring
    omega
  have hb : s.afterEncode.encodedBytes (k + 1) n = (encPixels s.params.run1Policy s.cfg.ch
      (pixelsAt s.cfg.ch s.mem (s.launch.pixBuf.base + k * s.cfg.ch.bytes + s.cfg.ch.bytes) n) s.afterEncode.stream).2 := by
    rw [← hpix]; rfl
  refine ⟨?_, ?_⟩
  · have hs : (encPixels s.params.run1Policy s.cfg.ch
        (pixelsAt s.cfg.ch s.mem (s.launch.pixBuf.base + k * s.cfg.ch.bytes) (n + 1)) s.stream) =
        ((encPixels s.params.run1Policy s.cfg.ch (pixelsAt s.cfg.ch s.afterEncode.mem
            (s.launch.pixBuf.base + (k + 1) * s.cfg.ch.bytes) n) s.afterEncode.stream).1,
          (encPixel s.params.run1Policy s.cfg.ch (Pixel.ofBytes s.cfg.ch
            (s.mem.readBytes (s.pixelAddr s.pixelNumber) s.cfg.ch.bytes)) s.stream).2 ++
          (encPixels s.params.run1Policy s.cfg.ch (pixelsAt s.cfg.ch s.afterEncode.mem
            (s.launch.pixBuf.base + (k + 1) * s.cfg.ch.bytes) n) s.afterEncode.stream).2) := by
      rw [hpix, hnum, hstream]; rfl
    have hl : s.launch.pixPos + (n + 1) * s.cfg.ch.bytes = s.launch.pixPos + s.cfg.ch.bytes + n * s.cfg.ch.bytes := by ring
    unfold State.encoded
    rw [hs]
    simp only [State.afterEncode, Memory.writeBytes_append, List.length_append, hl, Nat.add_assoc]
  · rw [hb, hnum, hstream]
    rfl

/-- The loop of ENC_RANGE: it goes on to the encoded state, whose bytes fit, or raises `OutputIsTooSmall_E`, and then the bytes of the
whole loop with the 8 of the trailer do not fit. -/
theorem encLoop_cases (n : Nat) {s : State} {k : Nat} (h : EncAt s k n) :
    (encLoop n s = .ok (s.encoded k n) ∧ SameBut s.launch.outBuf s (s.encoded k n) ∧
      (n ≠ 0 → s.launch.outPos + (s.encodedBytes k n).length ≤ s.launch.outBuf.len)) ∨
    (∃ t, encLoop n s = .error (.raised .outputIsTooSmallE t) ∧ SameBut s.launch.outBuf s t ∧
      s.launch.outBuf.len < s.launch.outPos + (s.encodedBytes k n).length + 8) := by
  induction n generalizing s k with
  | zero =>
    refine .inl ⟨?_, ?_, by simp⟩
    · simp [encLoop, State.encoded, pixelsAt, encPixels, Memory.writeBytes]
    · simpa [State.encoded, pixelsAt, encPixels, Memory.writeBytes] using SameBut.refl s.launch.outBuf s
  | succ n ih =>
    have hone := encOne_eq s h.hasPixel
    by_cases hroom : s.launch.outBuf.len - s.launch.outPos < 8
    · refine .inr ⟨s, ?_, SameBut.refl _ _, by omega⟩
      simp only [encLoop, hone, if_pos hroom, Attempt.error_bind]
    · obtain ⟨hst, hbytes⟩ := h.encoded_succ hroom
      have hsame := afterEncode_sameBut hroom
      have hlen := length_encPixel s.params.run1Policy s.cfg.ch
        (Pixel.ofBytes s.cfg.ch (s.mem.readBytes (s.pixelAddr s.pixelNumber) s.cfg.ch.bytes)) s.stream
      have hpos : s.afterEncode.launch.outPos = s.launch.outPos + (encPixel s.params.run1Policy s.cfg.ch
        (Pixel.ofBytes s.cfg.ch (s.mem.readBytes (s.pixelAddr s.pixelNumber) s.cfg.ch.bytes)) s.stream).2.length := rfl
      have hout : s.afterEncode.launch.outBuf = s.launch.outBuf := rfl
      have hloop : encLoop (n + 1) s = encLoop n s.afterEncode := by
        simp only [encLoop, hone, if_neg hroom, Attempt.ok_bind]
      rw [hloop, hst, hbytes, List.length_append, ← Nat.add_assoc, ← hpos, ← hout]
      rcases ih h.next with ⟨h1, h2, h3⟩ | ⟨t, h1, h2, h3⟩
      · refine .inl ⟨h1, hsame.trans h2, fun _ => ?_⟩
        by_cases hn : n = 0
        · subst hn
          have : (s.afterEncode.encodedBytes (k + 1) 0).length = 0 := rfl
          rw [this, hout, hpos]; omega
        · exact h3 hn
      · exact .inr ⟨t, h1, hsame.trans h2, by omega⟩

/-! ### The commands -/

/-- The bytes ENC_RANGE emits over the pixels of `pix`. -/
def State.rangeBytes (s : State) (pix : Region) : List Byte :=
  (encPixels s.params.run1Policy s.cfg.ch (pixelsAt s.cfg.ch s.mem pix.base (pix.len / s.cfg.ch.bytes)) s.stream).2

/-- The stream state ENC_RANGE leaves. -/
def State.rangeStream (s : State) (pix : Region) : StreamState :=
  (encPixels s.params.run1Policy s.cfg.ch (pixelsAt s.cfg.ch s.mem pix.base (pix.len / s.cfg.ch.bytes)) s.stream).1

/-- ENC_RANGE goes on with its bytes at the start of `out`, or raises `OutputIsTooSmall_E`, and then they and the 8 of the trailer do not
fit. -/
theorem encRange_cases (s : State) (pix out : Region) (h : Disjoint pix out) :
    (∃ t, encRange pix out s = .ok (t, (s.rangeBytes pix).length) ∧ SameBut out { s with status := .ok } t ∧
      t.stream = s.rangeStream pix ∧ t.mem = s.mem.writeBytes out.base (s.rangeBytes pix) ∧
      (pix.len / s.cfg.ch.bytes ≠ 0 → (s.rangeBytes pix).length ≤ out.len)) ∨
    (∃ t, encRange pix out s = .error (.raised .outputIsTooSmallE t) ∧ SameBut out s t ∧
      out.len < (s.rangeBytes pix).length + 8) := by
  have hat : EncAt (s.start Region.empty out pix) 0 (pix.len / s.cfg.ch.bytes) :=
    ⟨by simp, by simpa using Nat.div_mul_le_self _ _, h⟩
  have hbytes : (s.start Region.empty out pix).encodedBytes 0 (pix.len / s.cfg.ch.bytes) = s.rangeBytes pix := by
    simp [State.encodedBytes, State.rangeBytes]
  unfold encRange
  rcases encLoop_cases _ hat with ⟨h1, h2, h3⟩ | ⟨t, h1, h2, h3⟩
  · rw [hbytes] at h3
    refine .inl ⟨{ (s.start Region.empty out pix).encoded 0 (pix.len / s.cfg.ch.bytes) with status := .ok }, ?_, ?_, ?_, ?_, ?_⟩
    · rw [h1, Attempt.ok_bind]
      simp [State.encoded, State.rangeBytes]
    · exact ⟨h2.cfg, h2.cfgValid, h2.dir, rfl, h2.pending, h2.reply, h2.params, h2.draw, h2.mem, h2.wf⟩
    · simp [State.encoded, State.rangeStream]
    · simp [State.encoded, State.rangeBytes]
    · simpa using h3
  · rw [hbytes] at h3
    refine .inr ⟨t, by rw [h1, Attempt.error_bind], ⟨h2.cfg, h2.cfgValid, h2.dir, h2.status, h2.pending, h2.reply, h2.params,
      h2.draw, h2.mem, h2.wf⟩, by simpa using h3⟩

/-- HDR_ENC writes the header bytes at the start of `out`, or raises `OutputIsTooSmall_E` when they do not fit. -/
theorem hdrEnc_cases (s : State) (out : Region) :
    (14 ≤ out.len ∧ ∃ t, hdrEnc out s = .ok (t, 14) ∧ SameBut out { s with status := .ok } t ∧ t.stream = s.stream ∧
      t.mem = s.mem.writeBytes out.base s.cfg.toBytes) ∨
    (out.len < 14 ∧ hdrEnc out s = .error (.raised .outputIsTooSmallE s)) := by
  unfold hdrEnc hdrLen
  split
  · next h => exact .inr ⟨h, rfl⟩
  · next h =>
    refine .inl ⟨by omega, { s with
      mem := s.mem.writeBytes out.base s.cfg.toBytes
      launch := ⟨Region.empty, out, Region.empty, 0, s.cfg.toBytes.length, 0⟩
      status := .ok }, ?_, ?_, rfl, rfl⟩
    · rw [emit_eq_ok.2 ⟨by simp [hdrLen]; omega, rfl⟩, Attempt.ok_bind]
      simp
    · refine ⟨rfl, rfl, rfl, rfl, rfl, rfl, rfl, rfl, fun a ha => ?_, fun hw => Memory.wf_writeBytes _ _ _ hw⟩
      refine Memory.read_writeBytes_outside _ _ _ _ ?_
      simp [hdrLen]; omega

/-- The bytes ENC_FINISH writes. -/
def State.finishBytes (s : State) : List Byte := (flushRun s.params.run1Policy s.cfg.ch s.stream).2 ++ trailer

theorem length_finishBytes (s : State) : s.finishBytes.length = (if s.stream.run = 0 then 0 else 1) + 8 := by
  simp only [State.finishBytes, List.length_append, length_flushRun]; rfl

/-- ENC_FINISH writes the flush and the trailer, or raises `OutputIsTooSmall_E` when they do not fit. -/
theorem encFinish_cases (s : State) (out : Region) :
    (s.finishBytes.length ≤ out.len ∧ ∃ t, encFinish out s = .ok (t, s.finishBytes.length) ∧
      SameBut out { s with status := .ok, dir := .none } t ∧
      t.stream = (flushRun s.params.run1Policy s.cfg.ch s.stream).1 ∧ t.mem = s.mem.writeBytes out.base s.finishBytes) ∨
    (out.len < s.finishBytes.length ∧ encFinish out s = .error (.raised .outputIsTooSmallE s)) := by
  have hneed : finishNeed s.stream = s.finishBytes.length := by rw [length_finishBytes]; rfl
  unfold encFinish
  rw [hneed]
  split
  · next h => exact .inr ⟨h, rfl⟩
  · next h =>
    refine .inl ⟨by omega, { s with
      stream := (flushRun s.params.run1Policy s.cfg.ch s.stream).1
      mem := s.mem.writeBytes out.base s.finishBytes
      launch := ⟨Region.empty, out, Region.empty, 0, s.finishBytes.length, 0⟩
      dir := .none
      status := .ok }, ?_, ?_, rfl, rfl⟩
    · have hfit : 0 + ((flushRun s.params.run1Policy s.cfg.ch s.stream).2 ++ trailer).length ≤ out.len := by
        have : (flushRun s.params.run1Policy s.cfg.ch s.stream).2 ++ trailer = s.finishBytes := rfl
        rw [this]; omega
      rw [emit_eq_ok.2 ⟨hfit, rfl⟩, Attempt.ok_bind]
      simp [State.finishBytes]
    · refine ⟨rfl, rfl, rfl, rfl, rfl, rfl, rfl, rfl, fun a ha => ?_, fun hw => Memory.wf_writeBytes _ _ _ hw⟩
      refine Memory.read_writeBytes_outside _ _ _ _ ?_
      omega

end Sys2Proof.Machine
end

