-- ==== Sys2Proof/Laws/Decoder.lean ====
section
/-! SUPPORT. DEC_STEP and the decoder's loop, said once: what a step can do, what the loop changes, and when it raises an error. -/

namespace Sys2Proof.Machine

/-- DEC_STEP with room in the window: it pays an owed copy, runs the opcode decoded at `IN_POS`, or raises `NotEnoughData` where none
can be read; nothing else. -/
theorem decStep_cases (s : State) (h : s.hasPixel s.pixelNumber = true) :
    (s.stream.run ≠ 0 ∧
      decStep s = .ok (s.afterPixel s.stream.prev { s.stream with run := s.stream.run - 1 }).nextPixel) ∨
    (∃ i n t, s.stream.run = 0 ∧ decode s.opcodeBytes = .ok (i, n) ∧ exec i (s.advanceIn n) = .next t ∧
      decStep s = .ok t.nextPixel) ∨
    (∃ e, s.stream.run = 0 ∧ decode s.opcodeBytes = .error e ∧ decStep s = .error (.raised .notEnoughData s)) := by
  unfold decStep
  split
  · next hrun =>
    cases hd : decode s.opcodeBytes with
    | error e => exact .inr (.inr ⟨e, hrun, rfl, rfl⟩)
    | ok op =>
      obtain ⟨t, ht⟩ := exec_of_hasPixel op.1 (s := s.advanceIn op.2) h
      exact .inr (.inl ⟨op.1, op.2, t, hrun, rfl, ht, by simp [ht, Attempt.ofOutcome]⟩)
  · next hrun =>
    have hdrain := drain_eq_next.2 ⟨h, rfl⟩
    refine .inl ⟨hrun, ?_⟩
    rw [hdrain]
    rfl

/-- Where the decoder's loop is: pixel `k` of the window is the next. -/
structure DecAt (s : State) (k n : Nat) : Prop where
  pos : s.launch.pixPos = k * s.cfg.ch.bytes
  room : (k + n) * s.cfg.ch.bytes ≤ s.launch.pixBuf.len

theorem DecAt.hasPixel {s : State} {k n : Nat} (h : DecAt s k (n + 1)) : s.hasPixel s.pixelNumber = true := by
  rw [hasPixel_iff, State.pixelNumber, h.pos, Nat.mul_div_cancel _ (Channels.bytes_pos _)]
  have := h.room
  have e : (k + (n + 1)) * s.cfg.ch.bytes = k * s.cfg.ch.bytes + s.cfg.ch.bytes + n * s.cfg.ch.bytes := by ring
  omega

theorem DecAt.pixelNumber {s : State} {k n : Nat} (h : DecAt s k n) : s.pixelNumber = k := by
  rw [State.pixelNumber, h.pos, Nat.mul_div_cancel _ (Channels.bytes_pos _)]

/-- Storing the next pixel of the window disturbs nothing outside it. -/
theorem afterPixel_sameBut {s : State} (h : s.hasPixel s.pixelNumber = true) (px : Pixel) (st : StreamState) :
    SameBut s.launch.pixBuf s (s.afterPixel px st) := by
  refine ⟨rfl, rfl, rfl, rfl, rfl, rfl, rfl, rfl, fun a ha => ?_, fun hw => Memory.wf_writeBytes _ _ _ hw⟩
  rw [hasPixel_iff] at h
  refine Memory.read_writeBytes_outside _ _ _ _ ?_
  rw [Pixel.length_toBytes, State.pixelAddr]
  omega

/-- A decode step that goes on: the next pixel of the window is produced, and nothing outside the window changes but the cursors and
the stream state. -/
theorem decStep_ok {s t : State} {k n : Nat} (h : DecAt s k (n + 1)) (ht : decStep s = .ok t) :
    DecAt t (k + 1) n ∧ SameBut s.launch.pixBuf s t ∧ t.launch.pixBuf = s.launch.pixBuf ∧ t.launch.inBuf = s.launch.inBuf ∧
      t.launch.outPos = s.launch.outPos ∧
      (∃ px, t.mem = s.mem.writeBytes (s.pixelAddr k) (px.toBytes s.cfg.ch) ∧ px = t.stream.prev) ∧
      ((s.stream.run ≠ 0 ∧ t.stream = { s.stream with run := s.stream.run - 1 } ∧ t.launch.inPos = s.launch.inPos) ∨
        ∃ i len, s.stream.run = 0 ∧ decode s.opcodeBytes = .ok (i, len) ∧ OpcodeEffect s.cfg.ch i s.stream t.stream ∧
          t.launch.inPos = s.launch.inPos + len) := by
  have hnext : ∀ u : State, u.launch.pixPos = s.launch.pixPos → u.launch.pixBuf = s.launch.pixBuf → u.cfg = s.cfg →
      DecAt u.nextPixel (k + 1) n := by
    intro u h1 h2 h3
    refine ⟨?_, ?_⟩
    · simp only [nextPixel_launch, nextPixel_cfg, h1, h3, h.pos]; ring
    · have := h.room
      simp only [nextPixel_launch, nextPixel_cfg, h2, h3]
      rwa [Nat.add_assoc, Nat.add_comm 1 n]
  have hk := h.pixelNumber
  rcases decStep_cases s h.hasPixel with ⟨h1, h2⟩ | ⟨i, len, u, h1, h2, h3, h4⟩ | ⟨e, h1, h2, h3⟩
  · obtain rfl : _ = t := Except.ok.inj (h2.symm.trans ht)
    have hsame := afterPixel_sameBut h.hasPixel s.stream.prev { s.stream with run := s.stream.run - 1 }
    exact ⟨hnext _ rfl rfl rfl,
      ⟨hsame.cfg, hsame.cfgValid, hsame.dir, hsame.status, hsame.pending, hsame.reply, hsame.params, hsame.draw, hsame.mem, hsame.wf⟩,
      rfl, rfl, rfl, ⟨s.stream.prev, by rw [← hk]; rfl, rfl⟩, .inl ⟨h1, rfl, rfl⟩⟩
  · obtain rfl : _ = t := Except.ok.inj (h4.symm.trans ht)
    obtain ⟨_, hu, heff⟩ := exec_next h3
    have hsame := afterPixel_sameBut (s := s.advanceIn len) h.hasPixel u.stream.prev u.stream
    rw [← hu] at hsame
    have hl : u.launch = (s.advanceIn len).launch := by rw [hu]; rfl
    have hc : u.cfg = s.cfg := hsame.cfg
    refine ⟨hnext u (by rw [hl]; rfl) (by rw [hl]; rfl) hc,
      ⟨hsame.cfg, hsame.cfgValid, hsame.dir, hsame.status, hsame.pending, hsame.reply, hsame.params, hsame.draw, hsame.mem, hsame.wf⟩,
      by simp [hl], by simp [hl], by simp [hl], ⟨u.stream.prev, ?_, rfl⟩, .inr ⟨i, len, h1, h2, heff, by simp [hl]⟩⟩
    rw [nextPixel_mem, ← hk]
    exact congrArg State.mem hu
  · rw [h3] at ht; simp at ht

/-- A decode step that ends early raises `NotEnoughData`, in the state it began in. -/
theorem decStep_error {s : State} {x : Halt} {k n : Nat} (h : DecAt s k (n + 1)) (hx : decStep s = .error x) :
    x = .raised .notEnoughData s := by
  rcases decStep_cases s h.hasPixel with ⟨_, h2⟩ | ⟨_, _, _, _, _, _, h4⟩ | ⟨_, _, _, h3⟩
  · rw [h2] at hx; simp at hx
  · rw [h4] at hx; simp at hx
  · rw [h3] at hx; simpa using hx.symm

/-- What every decode step keeps, the loop keeps. -/
theorem decLoop_induction (P : State → Prop) (hstep : ∀ s t, P s → decStep s = .ok t → P t) (n : Nat) {s t : State} (h : P s)
    (ht : decLoop n s = .ok t) : P t := by
  induction n generalizing s with
  | zero => simp only [decLoop, Except.ok.injEq] at ht; exact ht ▸ h
  | succ n ih =>
    obtain ⟨u, hu, hv⟩ := Attempt.bind_eq_ok.1 ht
    exact ih (hstep _ _ h hu) hv

/-- A loop in two parts. -/
theorem decLoop_add (m n : Nat) (s : State) : decLoop (m + n) s = decLoop m s >>= decLoop n := by
  induction m generalizing s with
  | zero => simp [decLoop]
  | succ m ih =>
    rw [Nat.add_right_comm]
    simp only [decLoop]
    cases decStep s with
    | error x => rfl
    | ok t => simp [ih]

/-- The decoder's loop goes on to the end of its window, or raises `NotEnoughData`; either way nothing outside the window changes but
the cursors and the stream state. -/
theorem decLoop_cases (n : Nat) {s : State} {k : Nat} (h : DecAt s k n) :
    (∃ t, decLoop n s = .ok t ∧ SameBut s.launch.pixBuf s t ∧ DecAt t (k + n) 0 ∧ t.launch.pixBuf = s.launch.pixBuf ∧
      t.launch.inBuf = s.launch.inBuf) ∨
    (∃ t, decLoop n s = .error (.raised .notEnoughData t) ∧ SameBut s.launch.pixBuf s t) := by
  induction n generalizing s k with
  | zero => exact .inl ⟨s, rfl, SameBut.refl _ _, h, rfl, rfl⟩
  | succ n ih =>
    cases hs : decStep s with
    | error x =>
      have := decStep_error h hs
      subst this
      exact .inr ⟨s, by simp [decLoop, hs], SameBut.refl _ _⟩
    | ok u =>
      obtain ⟨h1, h2, h3, h4, -⟩ := decStep_ok h hs
      have hloop : decLoop (n + 1) s = decLoop n u := by simp [decLoop, hs]
      rw [hloop, ← h3]
      rcases ih h1 with ⟨t, k1, k2, k3, k4, k5⟩ | ⟨t, k1, k2⟩
      · exact .inl ⟨t, k1, (h3 ▸ h2).trans k2, by rwa [Nat.add_right_comm, Nat.add_assoc] at k3, k4, k5.trans h4⟩
      · exact .inr ⟨t, k1, (h3 ▸ h2).trans k2⟩

end Sys2Proof.Machine
end

