-- ==== Sys2Proof/Laws/PerInstr.lean ====
section
/-! SUPPORT. Statements made per instruction, one lemma for each constructor of Instr. -/

/-- The encoding of an opcode is as long as 30_encoding R81 says. -/
def Sys2Proof.Laws.EncodeLength.Statement (i : Sys2Proof.Instr) : Prop :=
  (Sys2Proof.encode i).length = i.length

theorem Sys2Proof.Laws.EncodeLength.index (k : Fin 64) : Sys2Proof.Laws.EncodeLength.Statement (.index k) := rfl

theorem Sys2Proof.Laws.EncodeLength.diff (dr dg db : Int) : Sys2Proof.Laws.EncodeLength.Statement (.diff dr dg db) := rfl

theorem Sys2Proof.Laws.EncodeLength.luma (dg drg dbg : Int) :
    Sys2Proof.Laws.EncodeLength.Statement (.luma dg drg dbg) := rfl

theorem Sys2Proof.Laws.EncodeLength.run (len : Nat) : Sys2Proof.Laws.EncodeLength.Statement (.run len) := rfl

theorem Sys2Proof.Laws.EncodeLength.rgb (r g b : Sys2Proof.Byte) : Sys2Proof.Laws.EncodeLength.Statement (.rgb r g b) := rfl

theorem Sys2Proof.Laws.EncodeLength.rgba (r g b a : Sys2Proof.Byte) :
    Sys2Proof.Laws.EncodeLength.Statement (.rgba r g b a) := rfl
end

