-- ==== Sys2Proof/Tests/Slice0.lean ====
section
/-! SUPPORT. Tests whose expected results come from spec/ (the vector's name in 95_test_vectors stands beside each), and for every
obligation with hypotheses a witness that meets them. -/

namespace Sys2Proof.Tests

open Sys2Proof Sys2Proof.Machine

/-! ### Well-formedness: each check refuses an ill-formed term (30_encoding R95) -/

theorem test_wf_diff_ranges :
    [Instr.diff (-3) 0 0, .diff 2 0 0, .diff 0 (-3) 0, .diff 0 2 0, .diff 0 0 (-3), .diff 0 0 2].all (fun i => !i.wf) = true := by
  decide

theorem test_wf_luma_ranges :
    [Instr.luma (-33) 0 0, .luma 32 0 0, .luma 0 (-9) 0, .luma 0 8 0, .luma 0 0 (-9), .luma 0 0 8].all (fun i => !i.wf) = true := by
  decide

theorem test_wf_run_range : (Instr.run 0).wf = false ∧ (Instr.run 63).wf = false := by decide

theorem test_wf_accepts_bounds :
    [Instr.index 0, .index 63, .diff (-2) 1 (-2), .diff 1 (-2) 1, .luma (-32) 7 (-8), .luma 31 (-8) 7, .run 1, .run 62,
      .rgb 0 128 255, .rgba 255 0 128 1].all Instr.wf = true := by decide

/-- 30_encoding R95: `RUN 63` is refused by the assembler. -/
theorem test_assemble_refuses : assemble [.op (.run 63)] = none ∧ assemble [.header 1 1 5 0] = none := by decide

/-- Program P1 of 95_test_vectors: its listing and its 30 bytes. -/
theorem test_assemble_p1 :
    assemble [.header 2 2 4 0, .op (.rgba 1 2 3 4), .op (.diff 1 (-1) 0), .op (.index 14), .op (.run 1), .trailer] =
      some [0x71, 0x6F, 0x69, 0x66, 0, 0, 0, 2, 0, 0, 0, 2, 4, 0, 0xFF, 1, 2, 3, 4, 0x76, 0x0E, 0xC0,
        0, 0, 0, 0, 0, 0, 0, 1] := by decide

/-! ### Decoding: words written bit by bit from the patterns of 30_encoding R81 -/

theorem test_decode_index : decodeTableWord 8 0b00001110 = some (.index 14) := by decide
theorem test_decode_diff : decodeTableWord 8 0b01110110 = some (.diff 1 (-1) 0) := by decide
/-- P-chunk vector of 95_test_vectors: `9B 79` is LUMA -5, -1, 1. -/
theorem test_decode_luma : decodeTableWord 16 0b0111100110011011 = some (.luma (-5) (-1) 1) := by decide
theorem test_decode_run : decodeTableWord 8 0b11111101 = some (.run 62) := by decide
theorem test_decode_rgb : decodeTableWord 32 0x3264C8FE = some (.rgb 200 100 50) := by decide
theorem test_decode_rgba : decodeTableWord 40 0x04030201FF = some (.rgba 1 2 3 4) := by decide

/-- 30_encoding R91: the only two ways not to decode. -/
theorem test_decode_short :
    (match decode [] with | .error .noByte => true | _ => false) = true ∧
    (match decode [0xFE, 1, 2] with | .error (.truncated 4 3) => true | _ => false) = true := by decide

set_option maxRecDepth 8000 in
/-- 30_encoding R90: every tag byte is taken by exactly one row, and the decoder reads that row's opcode. -/
theorem test_rows_partition :
    ∀ t : Fin 256,
      (match decode [BitVec.ofFin t, 0, 0, 0, 0] with | .ok r => [r.1.mnemonic] | .error _ => []) =
        (opRows.filter fun r => r.takes (BitVec.ofFin t)).map OpRow.mnemonic := by decide

/-! ### Small states -/

/-- A block with a header and a fresh stream of direction `d`, and `bytes` in host memory from address 0. -/
def ready (d : Dir) (ch : Channels) (bytes : List Byte) : State :=
  { State.reset with
    cfgValid := true
    cfg := { w := 1, h := 1, ch := ch, cs := .zero }
    dir := d
    stream := StreamState.initial
    mem := Memory.writeBytes [] 0 bytes }

/-- `ready` with an image size. -/
def sized (w h : Word32) (s : State) : State := { s with cfg := { s.cfg with w := w, h := h } }

/-- Whether a command ends in a next state. -/
def completes (c : Command) (s : State) : Bool :=
  match issue c s with
  | .next _ => true
  | .fault _ => false
  | .refused _ => false

/-- The state after a command, or the state before it where it stops. -/
def after (c : Command) (s : State) : State :=
  match issue c s with
  | .next t => t
  | .fault _ => s
  | .refused _ => s

/-- Why a command is refused. -/
def refusedWith (c : Command) (s : State) : Option Refusal :=
  match issue c s with
  | .next _ => none
  | .fault _ => none
  | .refused r => some r

theorem issue_eq {c : Command} {s : State} (h : completes c s = true) : issue c s = .next (after c s) := by
  unfold completes at h
  unfold after
  split at h <;> simp_all

/-- A run of commands. -/
def afterAll : List Command → State → State
  | [], s => s
  | c :: cs, s => afterAll cs (after c s)

/-- The `IN` buffer of the tests, at address 0. -/
def inp (len : Nat) : Region := ⟨0, len⟩
/-- The `PIX` buffer of the decode tests. -/
def pix (len : Nat) : Region := ⟨100, len⟩
/-- The `OUT` buffer of the encode tests. -/
def out (len : Nat) : Region := ⟨200, len⟩

/-- What the section 8 vectors of 95_test_vectors list: the return value, `PIX`, `PREV` and the run left, of one DEC_RANGE on fresh
state. -/
def decoded (ch : Channels) (bytes : List Byte) (len : Nat) : Reply × List Byte × Pixel × BitVec 6 :=
  let t := after (.decRange (inp bytes.length) (pix len)) (ready .dec ch bytes)
  (t.reply, t.mem.readBytes 100 len, t.stream.prev, t.stream.run)

/-! ### The six opcodes, each through one DEC_RANGE (95_test_vectors section 8) -/

/-- D2. -/
theorem test_index_keeps_alpha : decoded .three [0x05] 3 = (.count 1, [0, 0, 0], ⟨0, 0, 0, 255⟩, 0) := by decide
/-- D12. -/
theorem test_index_reads_back :
    decoded .three [0xFE, 10, 10, 10, 0x0B] 6 = (.count 5, [10, 10, 10, 10, 10, 10], ⟨10, 10, 10, 255⟩, 0) := by decide
/-- D3. -/
theorem test_diff_wraps_down : decoded .four [0x40] 4 = (.count 1, [0xFE, 0xFE, 0xFE, 0xFF], ⟨254, 254, 254, 255⟩, 0) := by decide
/-- P1, its second opcode. -/
theorem test_diff_order :
    decoded .four [0xFF, 1, 2, 3, 4, 0x76] 8 = (.count 6, [1, 2, 3, 4, 2, 1, 3, 4], ⟨2, 1, 3, 4⟩, 0) := by decide
/-- D6. -/
theorem test_luma_low : decoded .four [0x80, 0x00] 4 = (.count 2, [0xD8, 0xE0, 0xD8, 0xFF], ⟨216, 224, 216, 255⟩, 0) := by decide
/-- The chunk vector of section 7: `9B 79` from (7,7,7) is (1,2,3). -/
theorem test_luma_relative :
    decoded .three [0xA7, 0x88, 0x9B, 0x79] 6 = (.count 4, [7, 7, 7, 1, 2, 3], ⟨1, 2, 3, 255⟩, 0) := by decide
/-- Section 6, decoder, third row. -/
theorem test_run_ends_mid_run : decoded .four [0xC4] 8 = (.count 1, [0, 0, 0, 255, 0, 0, 0, 255], ⟨0, 0, 0, 255⟩, 3) := by decide
/-- Section 6, decoder, last row. -/
theorem test_run_longest : decoded .four [0xFD] 4 = (.count 1, [0, 0, 0, 255], ⟨0, 0, 0, 255⟩, 61) := by decide
/-- D9. -/
theorem test_rgb_keeps_alpha :
    decoded .four [0xFE, 200, 100, 50] 4 = (.count 4, [200, 100, 50, 255], ⟨200, 100, 50, 255⟩, 0) := by decide
/-- D13 and its cache write: `HASH((1,2,3,255)) = 23`. -/
theorem test_rgb_caches :
    (after (.decRange (inp 5) (pix 4)) (ready .dec .four [0xFE, 1, 2, 3, 0xAA])).stream.cache[(23 : Fin 64)] = ⟨1, 2, 3, 255⟩ := by
  decide
/-- D10. -/
theorem test_rgba_then_index :
    decoded .four [0xFF, 1, 2, 3, 4, 0x0E] 8 = (.count 6, [1, 2, 3, 4, 1, 2, 3, 4], ⟨1, 2, 3, 4⟩, 0) := by decide
/-- D11. -/
theorem test_rgba_three_channels :
    decoded .three [0xFF, 1, 2, 3, 4, 0x17] 6 = (.count 6, [1, 2, 3, 1, 2, 3], ⟨1, 2, 3, 255⟩, 0) := by decide

/-! ### Commands -/

/-- D14 to D17: input exhaustion; D18: an empty window reads nothing. -/
theorem test_dec_range_exhaustion :
    (decoded .four [0xFE, 1, 2] 4).1 = .error .notEnoughData ∧ (decoded .four [0x80] 4).1 = .error .notEnoughData ∧
    (decoded .three [0xFF, 1, 2, 3] 3).1 = .error .notEnoughData ∧ (decoded .four [] 4).1 = .error .notEnoughData ∧
    (decoded .four [0xFE, 1, 2] 0).1 = .count 0 := by decide

/-- ENC of an image whose pixel bytes stand from address 0: the reply and the body between header and trailer. -/
def encoded (policy : Run1Policy) (ch : Channels) (w h : Word32) (bytes : List Byte) (len : Nat) : Reply × List Byte :=
  let s := sized w h (ready .none ch bytes)
  let t := after (.enc (inp bytes.length) (out len)) { s with params := { s.params with run1Policy := policy } }
  (t.reply, (t.mem.readBytes 200 len).drop 14)

/-- S1, E2, E4, E5: exact room, one byte less, the headroom check, the header check. -/
theorem test_enc_room :
    encoded .fold .four 1 1 [1, 2, 3, 4] 27 = (.count 27, [0xFF, 1, 2, 3, 4, 0, 0, 0, 0, 0, 0, 0, 1]) ∧
    (encoded .fold .four 1 1 [1, 2, 3, 4] 26).1 = .error .outputIsTooSmallE ∧
    (encoded .fold .four 1 1 [1, 2, 3, 4] 21).1 = .error .outputIsTooSmallE ∧
    (encoded .fold .four 1 1 [1, 2, 3, 4] 13).1 = .error .outputIsTooSmallE := by decide

/-- S2 under both policies. -/
theorem test_enc_policies :
    encoded .fold .three 1 2 [10, 10, 10, 10, 10, 10] 25 = (.count 25, [0xAA, 0x88, 0x0B, 0, 0, 0, 0, 0, 0, 0, 1]) ∧
    encoded .run .three 1 2 [10, 10, 10, 10, 10, 10] 25 = (.count 25, [0xAA, 0x88, 0xC0, 0, 0, 0, 0, 0, 0, 0, 1]) := by decide

/-- The three cases of 44_run_length R225: section 6, first and fifth row; S2 is the other. -/
theorem test_enc_fold_seed :
    encoded .fold .four 1 1 [0, 0, 0, 255] 23 = (.count 23, [0x6A, 0, 0, 0, 0, 0, 0, 0, 1]) ∧
    encoded .fold .three 2 1 [0, 0, 0, 5, 5, 5] 25 = (.count 25, [0xC0, 0xA5, 0x88, 0, 0, 0, 0, 0, 0, 0, 1]) := by decide

/-- E11 and S4e: too few pixels, which comes first. -/
theorem test_enc_pixels_first :
    (encoded .fold .three 2 2 [0, 0, 0, 0, 0, 0, 0, 0, 0, 0, 0] 60).1 = .error .notEnoughPixelData ∧
    (encoded .fold .four 1 1 [] 0).1 = .error .notEnoughPixelData := by decide

/-- E14 and E13: the headroom check before the second pixel. -/
theorem test_enc_range_headroom :
    ((after (.encRange (inp 6) (out 12)) (ready .enc .three [200, 100, 50, 1, 99, 200])).mem.readBytes 200 8 =
      [0xFE, 200, 100, 50, 0xFE, 1, 99, 200]) ∧
    (after (.encRange (inp 6) (out 11)) (ready .enc .three [200, 100, 50, 1, 99, 200])).reply =
      .error .outputIsTooSmallE := by decide

/-- M7 and E16. -/
theorem test_enc_finish_room :
    (after (.encFinish (out 8)) (ready .enc .four [])).reply = .count 8 ∧
    (afterAll [.encRange (inp 3) (out 8), .encFinish (out 8)] (ready .enc .three [])).reply = .error .outputIsTooSmallE := by
  decide

/-- S5. -/
theorem test_header_bytes :
    (afterAll [.setHeader 0x01020304 0xA0B0C0D0 3 1, .hdrEnc (out 14)] State.reset).mem.readBytes 200 14 =
      [0x71, 0x6F, 0x69, 0x66, 1, 2, 3, 4, 0xA0, 0xB0, 0xC0, 0xD0, 3, 1] := by decide

/-- S4a, S4b; P5, first command. -/
theorem test_hdr_dec_errors :
    (after (.hdrDec (inp 13)) (ready .none .four [0x71, 0x6F, 0x69, 0x66, 0, 0, 0, 1, 0, 0, 0, 1, 3])).status.code = 1 ∧
    (after (.hdrDec (inp 14)) (ready .none .four [0x71, 0x6F, 0x69, 0x67, 0, 0, 0, 1, 0, 0, 0, 1, 4])).status.code = 2 ∧
    (after (.hdrDec (inp 14)) (ready .none .four [0x71, 0x6F, 0x69, 0x66, 0, 0, 0, 1, 0, 0, 0, 1, 5])).status.code = 3 := by decide

/-- D23: the excess of a run is discarded; D28: bytes beyond `NBYTES` are kept; D24: no trailer is needed. -/
theorem test_dec_images :
    (after (.dec (inp 17) (pix 8)) (ready .none .three
      [0x71, 0x6F, 0x69, 0x66, 0, 0, 0, 2, 0, 0, 0, 1, 4, 0, 0xFD, 0, 0])).mem.readBytes 100 8 = [0, 0, 0, 255, 0, 0, 0, 255] ∧
    ((after (.dec (inp 19) (pix 8)) (after (.setHeader 9 9 3 0) (ready .none .three
      [0x71, 0x6F, 0x69, 0x66, 0, 0, 0, 1, 0, 0, 0, 1, 4, 0, 0xFF, 1, 2, 3, 4]))).mem.readBytes 100 5 = [1, 2, 3, 4, 0]) := by decide

/-- P5, third command: a failed DEC keeps the header it parsed. -/
theorem test_dec_keeps_header :
    let t := after (.dec (inp 17) (pix 4)) { ready .none .three
      [0x71, 0x6F, 0x69, 0x66, 0, 0, 0, 1, 0, 0, 0, 1, 4, 0, 0xFE, 1, 2] with cfgValid := false }
    t.status.code = 1 ∧ t.cfg = { w := 1, h := 1, ch := .four, cs := .zero } ∧ t.cfgValid = true ∧ t.dir = .none := by decide

/-- D26 and D27. -/
theorem test_dec_body :
    (after (.decBody (inp 5) (pix 4)) (ready .none .four [0xFF, 1, 2, 3, 4])).reply = .count 5 ∧
    (after (.decBody (inp 5) (pix 3)) (ready .none .four [0xFF, 1, 2, 3, 4])).status.code = 5 := by decide

/-- X1 to X8. -/
theorem test_refusals :
    refusedWith .getHeader State.reset = some .noHeader ∧
    refusedWith (.encFinish (out 9)) (ready .none .four []) = some .wrongDirection ∧
    refusedWith (.decRange (inp 4) (pix 4)) (ready .enc .four []) = some .wrongDirection ∧
    refusedWith (.hdrEnc (out 14)) (ready .dec .four []) = some .streamOpen ∧
    refusedWith (.encRange (inp 5) (out 20)) (ready .enc .four []) = some .splitPixel ∧
    refusedWith (.setHeader 1 1 5 0) State.reset = some .illegalHeaderField ∧
    refusedWith (.decBody (inp 101) (pix 4)) (ready .none .four []) = some .buffersOverlap ∧
    refusedWith (.hdrDec (inp (2 ^ 32))) State.reset = some .bufferTooLong ∧
    refusedWith (.other 15) State.reset = some .notACommand := by decide

/-- P3: windows of 2, 3 and 1 pixels over one stream. -/
theorem test_windows :
    let t := afterAll [.decRange (inp 6) (pix 8), .decRange ⟨5, 1⟩ ⟨108, 12⟩, .decRange ⟨5, 1⟩ ⟨120, 4⟩, .streamClose]
      (ready .dec .four [0xFE, 9, 9, 9, 0xC3, 0x40])
    t.mem.readBytes 100 24 =
      [9, 9, 9, 255, 9, 9, 9, 255, 9, 9, 9, 255, 9, 9, 9, 255, 9, 9, 9, 255, 7, 7, 7, 255] ∧ t.dir = .none := by decide

/-- The word `withFetchWord` places runs in the next step, from reset (D11's first opcode, in three channels; R286's D7 in four). -/
theorem test_fetch_word :
    (match step (State.reset.withFetchWord 40 0x04030201FF) with | .next t => t.stream.prev | _ => Pixel.new) = ⟨1, 2, 3, 4⟩ ∧
    (match step (State.reset.withFetchWord 16 0xFFBF) with | .next t => t.stream.prev | _ => Pixel.new) = ⟨38, 31, 38, 255⟩ := by
  decide

/-! ### Witnesses: states and operands that meet the hypotheses of each obligation, at the boundaries of its clauses -/

/-- A decode step with room for exactly one more pixel: `n` bytes of input, of which `pos` are read. -/
def atPixel (ch : Channels) (bytes : List Byte) (pos : Nat) : State :=
  { ready .dec ch bytes with launch := ⟨inp bytes.length, Region.empty, pix (2 * ch.bytes), pos, 0, ch.bytes⟩ }

theorem disjoint_of_overlaps {r q : Region} (h : r.overlaps q = false) : Disjoint r q := by
  intro a
  simp only [Region.overlaps, decide_eq_false_iff_not] at h
  omega

theorem witness_DecodeOfEncodeIsTheOpcode :
    WellFormed (.index 63) ∧ WellFormed (.diff (-2) 1 0) ∧ WellFormed (.luma (-32) 7 (-8)) ∧ WellFormed (.run 62) ∧
    WellFormed (.rgb 255 0 1) ∧ WellFormed (.rgba 255 0 1 2) := by decide

theorem witness_EncodeOfDecodeIsTheBytes : decode [0xFE, 1, 2, 3, 9] = .ok (.rgb 1 2 3, 4) := rfl

theorem witness_TagByteSelectsOpcodeAndLength :
    4 ≤ [1#8, 2, 3, 4].length ∧ decode [0x00, 1, 2, 3, 4] = .ok (.index 0, 1) ∧ decode [0x3F, 1, 2, 3, 4] = .ok (.index 63, 1) ∧
    decode [0x40, 1, 2, 3, 4] = .ok (.diff (-2) (-2) (-2), 1) ∧ decode [0x7F, 1, 2, 3, 4] = .ok (.diff 1 1 1, 1) ∧
    decode [0x80, 1, 2, 3, 4] = .ok (.luma (-32) (-8) (-7), 2) ∧ decode [0xBF, 1, 2, 3, 4] = .ok (.luma 31 (-8) (-7), 2) ∧
    decode [0xC0, 1, 2, 3, 4] = .ok (.run 1, 1) ∧ decode [0xFD, 1, 2, 3, 4] = .ok (.run 62, 1) ∧
    decode [0xFE, 1, 2, 3, 4] = .ok (.rgb 1 2 3, 4) ∧ decode [0xFF, 1, 2, 3, 4] = .ok (.rgba 1 2 3 4, 5) :=
  ⟨by decide, rfl, rfl, rfl, rfl, rfl, rfl, rfl, rfl, rfl, rfl⟩

/-- For the six result statements, the six constructors' frames, the classifier and the lockstep statements: the last pixel of a
window, in both channel modes. -/
theorem witness_RoomForPixel : RoomForPixel (atPixel .three [] 0) ∧ RoomForPixel (atPixel .four [] 0) := by
  unfold RoomForPixel
  decide

theorem witness_RunOutputsOneCopyAndOwesTheRest :
    WellFormed (.run 1) ∧ WellFormed (.run 62) ∧ RoomForPixel (atPixel .four [] 0) :=
  ⟨by decide, by decide, witness_RoomForPixel.2⟩

theorem witness_PixelOpcodesFrame :
    (∃ t, exec (.diff 1 (-1) 0) (atPixel .four [] 0) = .next t) ∧ (∃ t, exec (.luma 3 1 2) (atPixel .three [] 0) = .next t) ∧
    (∃ t, exec (.rgb 1 2 3) (atPixel .four [] 0) = .next t) ∧ (∃ t, exec (.rgba 1 2 3 4) (atPixel .three [] 0) = .next t) :=
  ⟨exec_of_hasPixel _ (by decide), exec_of_hasPixel _ (by decide), exec_of_hasPixel _ (by decide), exec_of_hasPixel _ (by decide)⟩

theorem witness_IndexAndRunFrame :
    (∃ t, exec (.index 5) (atPixel .three [] 0) = .next t) ∧ (∃ t, exec (.run 62) (atPixel .four [] 0) = .next t) :=
  ⟨exec_of_hasPixel _ (by decide), exec_of_hasPixel _ (by decide)⟩

/-- Both sides of the equivalence are met: a state without room, where the opcode stops. -/
theorem witness_OpcodeStopsExactlyWithoutRoom :
    exec (.index 5) State.reset = .fault .outsidePix ∧ ¬ RoomForPixel State.reset := by
  refine ⟨rfl, ?_⟩
  unfold RoomForPixel
  decide

/-- The host is about to issue a DEC_RANGE with a window of one pixel. -/
def aboutToDecode : State := { ready .dec .four [0xFE, 1, 2, 3] with pending := [.issue (.decRange (inp 4) (pix 4))] }

theorem witness_StepRunsTheDecodedOpcode :
    aboutToDecode.pending = .issue (.decRange (inp 4) (pix 4)) :: [] ∧ aboutToDecode.dir = .dec ∧ aboutToDecode.stream.run = 0 ∧
    (pix 4).len = aboutToDecode.cfg.ch.bytes ∧ BufferPreconditions (.decRange (inp 4) (pix 4)) aboutToDecode ∧
    decode (aboutToDecode.mem.readBytes (inp 4).base (min maxOpLen (inp 4).len)) = .ok (.rgb 1 2 3, 4) :=
  ⟨rfl, rfl, rfl, rfl, ⟨by decide, by decide, disjoint_of_overlaps (by decide)⟩, rfl⟩

theorem witness_FetchWordRunsItsOpcode : decodeTableWord 40 0x04030201FF = some (.rgba 1 2 3 4) := by decide

theorem witness_DecStepPaysAnOwedCopy :
    let s := { atPixel .four [] 0 with stream := { StreamState.initial with run := 1 } }
    s.stream.run ≠ 0 ∧ RoomForPixel s := by
  unfold RoomForPixel
  decide

/-- No byte left; one byte short of the five RGBA needs; exactly five left. -/
theorem witness_DecStepNeedsAWholeOpcode :
    let none := atPixel .four [0xFF, 1, 2, 3, 4] 5
    let short := atPixel .three [0xFF, 1, 2, 3] 0
    let exact := atPixel .three [0xFF, 1, 2, 3, 4] 0
    (none.stream.run = 0 ∧ none.launch.inBuf.len - none.launch.inPos = 0) ∧
    (short.stream.run = 0 ∧ short.launch.inBuf.len - short.launch.inPos + 1 = opLen (short.mem.read 0)) ∧
    (exact.stream.run = 0 ∧ exact.launch.inBuf.len - exact.launch.inPos = opLen (exact.mem.read 0)) := by decide

/-- P3's stream, cut after two pixels: inside the run. -/
theorem witness_DecodeDoesNotDependOnWindows :
    let s := ready .dec .four [0xFE, 9, 9, 9, 0xC3, 0x40]
    let t := after (.decRange (inp 6) ⟨100, 8⟩) s
    (∃ u, issue (.decRange (inp 6) ⟨100, 8⟩) s = .next t ∧ t.reply = .count 5 ∧
      issue (.decRange ((inp 6).sub 5 1) ⟨108, 16⟩) t = .next u ∧ u.reply = .count 1) ∧
    Accepted (.decRange (inp 6) ⟨100, 24⟩) s :=
  ⟨⟨_, issue_eq (by decide), by decide, issue_eq (by decide), by decide⟩,
    ⟨by decide, by decide⟩, ⟨by decide, by decide, disjoint_of_overlaps (by decide)⟩⟩

/-- A body with one byte after its opcode, cut right after the opcode; an image with one byte after its opcode, cut right after it. -/
theorem witness_DecodeIgnoresBytesAfterTheLastOpcode :
    (∃ t, issue (.decBody (inp 6) (pix 4)) (ready .none .four [0xFF, 1, 2, 3, 4, 7]) = .next t ∧ t.reply = .count 5 ∧ 5 ≤ 5 ∧
      Accepted (.decBody ⟨0, 5⟩ (pix 4)) (ready .none .four [0xFF, 1, 2, 3, 4, 7])) ∧
    (let image := ready .none .three [0x71, 0x6F, 0x69, 0x66, 0, 0, 0, 1, 0, 0, 0, 1, 4, 0, 0xC0, 7]
      ∃ t u, issue (.hdrDec (inp 16)) image = .next t ∧ t.status = .ok ∧
        issue (.decBody ((inp 16).sub 14 (16 - 14)) (pix 4)) t = .next u ∧ u.reply = .count 1 ∧ 1 ≤ 1 ∧
        Accepted (.dec ⟨(inp 16).base, 14 + 1⟩ (pix 4)) image) :=
  ⟨⟨_, issue_eq (by decide), by decide, by decide, ⟨by decide, by decide⟩, ⟨by decide, by decide, disjoint_of_overlaps (by decide)⟩⟩,
    ⟨_, _, issue_eq (by decide), by decide, issue_eq (by decide), by decide, by decide, rfl,
      ⟨by decide, by decide, disjoint_of_overlaps (by decide)⟩⟩⟩

/-- D22, and the same with the height 0. -/
theorem witness_DecodeOfZeroAreaImage :
    let bytes : List Byte := [0x71, 0x6F, 0x69, 0x66, 0, 0, 0, 0, 0, 0, 0, 7, 3, 1]
    let flat : List Byte := [0x71, 0x6F, 0x69, 0x66, 0, 0, 0, 7, 0, 0, 0, 0, 4, 0]
    Accepted (.dec (inp 14) (pix 0)) (ready .none .four bytes) ∧
    parseHeader 14 ((ready .none .four bytes).mem.readBytes 0 hdrLen) = .ok { w := 0, h := 7, ch := .three, cs := .one } ∧
    parseHeader 14 ((ready .none .four flat).mem.readBytes 0 hdrLen) = .ok { w := 7, h := 0, ch := .four, cs := .zero } :=
  ⟨⟨rfl, by decide, by decide, disjoint_of_overlaps (by decide)⟩, rfl, rfl⟩

theorem witness_FreshPixelKeepsDecoderInStep :
    let s := atPixel .three [] 0
    RoomForPixel s ∧ s.cfg.ch = .three ∧ StreamState.initial.cache = s.stream.cache ∧ StreamState.initial.prev = s.stream.prev ∧
    (⟨10, 10, 10, 255⟩ : Pixel).a = 255 ∧ StreamState.initial.prev.a = 255 :=
  ⟨witness_RoomForPixel.1, rfl, rfl, rfl, rfl, rfl⟩

/-- A run of one and the longest run. -/
theorem witness_RunFlushKeepsDecoderInStep :
    let s := atPixel .four [] 0
    RoomForPixel s ∧ s.stream.run = 0 ∧
    (∀ r : BitVec 6, r = 1 ∨ r = 61 →
      let e : StreamState := { StreamState.initial with run := r }
      e.cache = s.stream.cache ∧ e.prev = s.stream.prev ∧ e.run ≠ 0 ∧ e.run.toNat ≤ 61) := by
  refine ⟨witness_RoomForPixel.2, rfl, ?_⟩
  rintro r (rfl | rfl) <;> exact ⟨rfl, rfl, by decide, by decide⟩

theorem witness_RunOpcodeFlush :
    2 ≤ ({ StreamState.initial with run := 2 } : StreamState).run.toNat ∧
    2 ≤ ({ StreamState.initial with run := 61 } : StreamState).run.toNat ∧
    ({ StreamState.initial with run := 1 } : StreamState).run = 1 := by decide

/-- Each of the three cases of 44_run_length R225. -/
theorem witness_FoldFlushCases :
    let seed : StreamState := { StreamState.initial with run := 1 }
    let gray : StreamState := { (encFresh .four ⟨7, 7, 7, 255⟩ StreamState.initial).1 with run := 1 }
    (gray.run = 1 ∧ gray.started = true ∧ gray.hits .four gray.prev = true) ∧
    (seed.run = 1 ∧ seed.started = false ∧ seed.hits .four seed.prev = false) ∧
    (seed.run = 1 ∧ seed.started ≠ seed.hits .three seed.prev) := by decide

theorem witness_EqualPixelExtendsTheRun :
    let st (r : BitVec 6) : StreamState := { StreamState.initial with run := r }
    Pixel.newOpaque.eqIn .four (st 0).prev = true ∧ (st 0).run.toNat < 61 ∧ (st 60).run.toNat < 61 ∧ (st 61).run.toNat = 61 := by
  decide

theorem witness_DifferentPixelIsEmitted :
    (⟨0, 0, 0, 254⟩ : Pixel).eqIn .four StreamState.initial.prev = false ∧
    (⟨0, 0, 1, 255⟩ : Pixel).eqIn .three StreamState.initial.prev = false := by decide

theorem witness_SetHeaderLoadsCfg :
    (State.reset.dir = .none ∧ (∀ ch, ch = 3 ∨ ch = 4 → ∀ cs, cs = 0 ∨ cs = 1 → (needLegalFields ch cs) = none)) ∧
    ¬ ((ready .enc .four []).dir = .none ∧ (3 = 3 ∨ 3 = 4) ∧ (0 = 0 ∨ 0 = 1)) ∧
    ¬ (State.reset.dir = .none ∧ (5 = 3 ∨ 5 = 4) ∧ (0 = 0 ∨ 0 = 1)) ∧
    ¬ (State.reset.dir = .none ∧ (4 = 3 ∨ 4 = 4) ∧ (2 = 0 ∨ 2 = 1)) := by
  refine ⟨⟨rfl, ?_⟩, by decide, by decide, by decide⟩
  rintro ch (rfl | rfl) cs (rfl | rfl) <;> decide

/-- One byte too few, and just enough. -/
theorem witness_HdrEncWritesFourteenBytes :
    let s := ready .none .four []
    Accepted (.hdrEnc (out 13)) s ∧ (out 13).len < 14 ∧ Accepted (.hdrEnc (out 14)) s ∧ 14 ≤ (out 14).len :=
  ⟨⟨⟨rfl, rfl⟩, by unfold BufferPreconditions; decide⟩, by decide, ⟨⟨rfl, rfl⟩, by unfold BufferPreconditions; decide⟩, by decide⟩

/-- HDR_DEC is accepted on every one of these; each clause of the statement is reached. -/
theorem witness_HdrDecParsesOrRaisesInOrder :
    let s (bytes : List Byte) := ready .none .four bytes
    (∀ bytes, Accepted (.hdrDec (inp 13)) (s bytes) ∧ Accepted (.hdrDec (inp 14)) (s bytes) ∧ (s bytes).launch = Launch.idle) ∧
    (after (.hdrDec (inp 13)) (s [0x71, 0x6F, 0x69, 0x66, 0, 0, 0, 1, 0, 0, 0, 1, 4, 0])).status = .error .notEnoughData ∧
    (after (.hdrDec (inp 14)) (s [0x71, 0x6F, 0x69, 0x67, 0, 0, 0, 1, 0, 0, 0, 1, 5, 2])).status = .error .invalidMagic ∧
    (after (.hdrDec (inp 14)) (s [0x71, 0x6F, 0x69, 0x66, 0, 0, 0, 1, 0, 0, 0, 1, 5, 2])).status = .error .invalidChannelsValue ∧
    (after (.hdrDec (inp 14)) (s [0x71, 0x6F, 0x69, 0x66, 0, 0, 0, 1, 0, 0, 0, 1, 4, 2])).status = .error .invalidColorSpaceValue ∧
    (after (.hdrDec (inp 14)) (s [0x71, 0x6F, 0x69, 0x66, 0, 0, 0, 1, 0, 0, 0, 1, 4, 1])).status = .ok := by
  refine ⟨fun bytes => ⟨⟨rfl, ?_⟩, ⟨rfl, ?_⟩, rfl⟩, by decide⟩ <;>
    simp [BufferPreconditions, ready, inp, State.reset, Params.default]

theorem witness_HeaderRoundTrip :
    State.reset.dir = .none ∧ 14 ≤ (out 14).len ∧ (out 14).len ≤ State.reset.params.maxOutLen ∧
    (out 14).len ≤ State.reset.params.maxInLen := by decide

/-- For GET_HEADER and STREAM_INIT. -/
theorem witness_ReadCommandsWriteNothing : (ready .none .four []).cfgValid = true ∧ State.reset.cfgValid = false := ⟨rfl, rfl⟩

theorem witness_StreamInitWritesInitialValues :
    (ready .enc .four []).cfgValid = true ∧ (ready .dec .three []).cfgValid = true ∧ State.reset.cfgValid = false := ⟨rfl, rfl, rfl⟩

/-- Seven bytes free, and eight. -/
theorem witness_HeadroomIsCheckedBeforeAPixel :
    let s := { ready .enc .four [] with launch := ⟨Region.empty, out 10, pix 8, 0, 3, 4⟩ }
    let t := { ready .enc .four [] with launch := ⟨Region.empty, out 10, pix 8, 0, 2, 4⟩ }
    s.launch.outBuf.len - s.launch.outPos < 8 ∧
    (8 ≤ t.launch.outBuf.len - t.launch.outPos ∧ t.hasPixel t.pixelNumber = true) := by decide

theorem witness_EncRangeEncodesItsPixels :
    Accepted (.encRange (inp 6) (out 16)) (ready .enc .three [200, 100, 50, 1, 99, 200]) ∧ 8 * (6 / 3) ≤ (out 16).len :=
  ⟨⟨⟨rfl, rfl⟩, by decide, by decide, disjoint_of_overlaps (by decide)⟩, by decide⟩

/-- The chunk vector of section 7, cut after two pixels: inside the run. -/
theorem witness_EncodeDoesNotDependOnChunks :
    let s := ready .enc .three [7, 7, 7, 7, 7, 7, 7, 7, 7, 1, 2, 3, 1, 2, 3]
    let t := after (.encRange ⟨0, 6⟩ (out 32)) s
    (∃ u, issue (.encRange ⟨0, 6⟩ (out 32)) s = .next t ∧ t.reply = .count 2 ∧
      issue (.encRange ⟨6, 9⟩ ((out 32).sub 2 30)) t = .next u ∧ u.reply = .count 3) ∧
    Accepted (.encRange ⟨0, 15⟩ (out 32)) s :=
  ⟨⟨_, issue_eq (by decide), by decide, issue_eq (by decide), by decide⟩,
    ⟨rfl, rfl⟩, ⟨by decide, by decide, disjoint_of_overlaps (by decide)⟩⟩

/-- No run pending and 7, 8 bytes; a run pending and 8, 9 bytes. -/
theorem witness_EncFinishFlushesAndWritesTrailer :
    ∀ n, n = 7 ∨ n = 8 ∨ n = 9 → ∀ r : BitVec 6,
      Accepted (.encFinish (out n)) { ready .enc .four [] with stream := { StreamState.initial with run := r } } := by
  rintro n (rfl | rfl | rfl) r <;> refine ⟨rfl, ?_⟩ <;> simp [BufferPreconditions, out, ready, State.reset, Params.default]

/-- S1: three bytes of pixel; 26 and 27 bytes of output. -/
theorem witness_EncWritesHeaderStreamTrailer :
    let s := ready .none .four [1, 2, 3, 4]
    Accepted (.enc (inp 3) (out 27)) s ∧ (inp 3).len < s.cfg.nbytes ∧
    Accepted (.enc (inp 4) (out 26)) s ∧ s.cfg.nbytes ≤ (inp 4).len ∧ (out 26).len < 14 + (s.imageOpcodes (inp 4)).length + 8 ∧
    Accepted (.enc (inp 4) (out 27)) s ∧ 14 + (s.imageOpcodes (inp 4)).length + 8 ≤ (out 27).len :=
  ⟨⟨⟨rfl, rfl⟩, by decide, by decide, disjoint_of_overlaps (by decide)⟩, by decide,
    ⟨⟨rfl, rfl⟩, by decide, by decide, disjoint_of_overlaps (by decide)⟩, by decide, by decide,
    ⟨⟨rfl, rfl⟩, by decide, by decide, disjoint_of_overlaps (by decide)⟩, by decide⟩

/-- The same image in two machines, at different addresses and with different histories. -/
theorem witness_EncIsAFunctionOfItsPixels :
    let s := ready .none .four [1, 2, 3, 4]
    let s' := { ready .none .four [9, 1, 2, 3, 4] with status := .error .invalidMagic }
    s.cfg = s'.cfg ∧ s.params.run1Policy = s'.params.run1Policy ∧
    (∀ j, j < s.cfg.nbytes → s.mem.read ((inp 4).base + j) = s'.mem.read (1 + j)) ∧
    (∃ t, issue (.enc (inp 4) (out 27)) s = .next t ∧ t.reply = .count 27) ∧
    (∃ t, issue (.enc ⟨1, 4⟩ (out 40)) s' = .next t ∧ t.reply = .count 27) :=
  ⟨rfl, rfl, by decide, ⟨_, issue_eq (by decide), by decide⟩, ⟨_, issue_eq (by decide), by decide⟩⟩

theorem witness_DecodeOfEncodeIsTheImage :
    let s := ready .none .four [1, 2, 3, 4]
    (∃ t, issue (.enc (inp 4) (out 27)) s = .next t ∧ t.reply = .count 27) ∧
    (pix 4).len = s.cfg.nbytes ∧ 27 ≤ s.params.maxInLen ∧ (pix 4).len ≤ s.params.maxPixLen ∧ Disjoint ⟨(out 27).base, 27⟩ (pix 4) :=
  ⟨⟨_, issue_eq (by decide), by decide⟩, by decide, by decide, by decide, disjoint_of_overlaps (by decide)⟩

theorem witness_CommandsAreRefusedOrComplete :
    Accepted .streamClose State.reset ∧ ¬ Accepted .getHeader State.reset :=
  ⟨⟨trivial, trivial⟩, fun h => by simp [Accepted, RowPreconditions, State.reset] at h⟩

/-- For the clauses that say where HDR_ENC, HDR_DEC and ENC_FINISH are refused. -/
theorem witness_RefusedUnlessAccepted :
    ¬ Accepted (.hdrEnc (out 14)) State.reset ∧ ¬ Accepted (.hdrDec (inp 14)) (ready .enc .four []) ∧
    ¬ Accepted (.encFinish (out 9)) State.reset := by
  simp [Accepted, RowPreconditions, State.reset, ready]

/-- For every statement about a command that raises an error: M5, with output; S4a, with none; D20, of DEC. -/
theorem witness_ErrorEndsTheStreamAndKeepsCfg :
    (∃ t, issue (.encRange (inp 4) (out 7)) (ready .enc .four [1, 2, 3, 4]) = .next t ∧ t.reply = .error .outputIsTooSmallE) ∧
    (∃ t, issue (.hdrDec (inp 13)) State.reset = .next t ∧ t.reply = .error .notEnoughData) ∧
    (∃ t, issue (.dec (inp 14) (pix 4)) (ready .none .three [0x71, 0x6F, 0x69, 0x66, 0, 0, 0, 1, 0, 0, 0, 1, 4, 0]) = .next t ∧
      t.reply = .error .notEnoughData) :=
  ⟨⟨_, issue_eq (by decide), by decide⟩, ⟨_, issue_eq (by decide), by decide⟩, ⟨_, issue_eq (by decide), by decide⟩⟩

theorem witness_CommandsRaiseOnlyTheirErrors :
    ∃ t, issue (.decRange (inp 1) (pix 4)) (ready .dec .four [0x80]) = .next t ∧ t.reply = .error .notEnoughData :=
  ⟨_, issue_eq (by decide), by decide⟩

/-- A command that raises, and one that succeeds. -/
theorem witness_StatusReportsTheOutcome :
    (∃ t, issue (.hdrDec (inp 13)) State.reset = .next t ∧ t.reply = .error .notEnoughData) ∧
    (∃ t, issue (.setHeader 1 1 3 0) State.reset = .next t ∧ t.reply = .done) :=
  ⟨⟨_, issue_eq (by decide), by decide⟩, ⟨_, issue_eq (by decide), by decide⟩⟩

/-- D19 and D20: a window one byte too small, and one just large enough; a bad magic. -/
theorem witness_DecErrorOrder :
    let bytes : List Byte := [0x71, 0x6F, 0x69, 0x66, 0, 0, 0, 1, 0, 0, 0, 1, 4, 0]
    let h : Header := { w := 1, h := 1, ch := .four, cs := .zero }
    Accepted (.dec (inp 14) (pix 3)) (ready .none .three bytes) ∧ Accepted (.dec (inp 14) (pix 4)) (ready .none .three bytes) ∧
    parseHeader 14 ((ready .none .three bytes).mem.readBytes 0 hdrLen) = .ok h ∧ (pix 3).len < h.nbytes ∧ h.nbytes ≤ (pix 4).len ∧
    parseHeader 14 ((ready .none .three []).mem.readBytes 0 hdrLen) = .error .invalidMagic ∧
    Accepted (.decBody (inp 1) (pix 3)) (ready .none .four [0x80]) ∧ (pix 3).len < (ready .none .four [0x80]).cfg.nbytes ∧
    Accepted (.decBody (inp 1) (pix 4)) (ready .none .four [0x80]) ∧ (ready .none .four [0x80]).cfg.nbytes ≤ (pix 4).len ∧
    Accepted (.decRange (inp 1) (pix 4)) (ready .dec .four [0x80]) :=
  ⟨⟨rfl, by decide, by decide, disjoint_of_overlaps (by decide)⟩, ⟨rfl, by decide, by decide, disjoint_of_overlaps (by decide)⟩,
    rfl, by decide, by decide, rfl,
    ⟨⟨rfl, rfl⟩, by decide, by decide, disjoint_of_overlaps (by decide)⟩, by decide,
    ⟨⟨rfl, rfl⟩, by decide, by decide, disjoint_of_overlaps (by decide)⟩, by decide,
    ⟨rfl, rfl⟩, by decide, by decide, disjoint_of_overlaps (by decide)⟩

theorem witness_OnlyHeaderCommandsWriteCfg :
    ∃ t, issue (.streamInit .enc) (ready .none .four []) = .next t := ⟨_, issue_eq (by decide)⟩

theorem witness_CommandsWriteOnlyTheirOutputBuffer :
    ∃ t, issue (.encRange (inp 4) (out 8)) (ready .enc .four [1, 2, 3, 4]) = .next t := ⟨_, issue_eq (by decide)⟩

/-- Each command the statement names. -/
theorem witness_SuccessWritesOnlyWhatItProduces :
    (∃ t, issue (.hdrEnc (out 14)) (ready .none .four []) = .next t ∧ t.reply = .count 14) ∧
    (∃ t, issue (.encFinish (out 8)) (ready .enc .four []) = .next t ∧ t.reply = .count 8) ∧
    (∃ t, issue (.encRange (inp 4) (out 8)) (ready .enc .four [1, 2, 3, 4]) = .next t ∧ t.reply = .count 5) ∧
    (∃ t, issue (.enc (inp 4) (out 27)) (ready .none .four [1, 2, 3, 4]) = .next t ∧ t.reply = .count 27) ∧
    (∃ t, issue (.decBody (inp 5) (pix 4)) (ready .none .four [0xFF, 1, 2, 3, 4]) = .next t ∧ t.status = .ok) ∧
    (∃ t, issue (.dec (inp 15) (pix 4)) (ready .none .three
      [0x71, 0x6F, 0x69, 0x66, 0, 0, 0, 1, 0, 0, 0, 1, 4, 0, 0xC0]) = .next t ∧ t.status = .ok) :=
  ⟨⟨_, issue_eq (by decide), by decide⟩, ⟨_, issue_eq (by decide), by decide⟩, ⟨_, issue_eq (by decide), by decide⟩,
    ⟨_, issue_eq (by decide), by decide⟩, ⟨_, issue_eq (by decide), by decide⟩, ⟨_, issue_eq (by decide), by decide⟩⟩

/-- An encode stream of three channels that has started, with a run pending, about to be fed: every clause of the invariant applies. -/
def midStream : State :=
  { ready .enc .three [9, 9, 9] with
    stream := { (encFresh .three ⟨7, 7, 7, 255⟩ StreamState.initial).1 with run := 61 }
    pending := [.issue (.encRange (inp 3) (out 8))] }

theorem witness_StepKeepsTheInvariant : Inv midStream ∧ ∃ t, step midStream = .next t :=
  ⟨⟨by decide, fun _ => rfl, fun _ => by decide, fun _ _ => by decide, fun _ _ => by decide, rfl⟩,
    ⟨_, issue_eq (c := .encRange (inp 3) (out 8)) (s := { midStream with pending := [] }) (by decide)⟩⟩

theorem witness_IdleBlockHoldsItsState :
    State.reset.pending = [] ∧ { State.reset with pending := [.write 5 7] }.pending = .write 5 7 :: [] := ⟨rfl, rfl⟩

end Sys2Proof.Tests
end

/-! ## When a command is accepted -/

namespace Sys2Proof.Machine

@[simp] theorem needHeader_eq_none {s : State} : needHeader s = none ↔ s.cfgValid = true := by simp [needHeader]

@[simp] theorem needIdle_eq_none {s : State} : needIdle s = none ↔ s.dir = .none := by simp [needIdle]

@[simp] theorem needDir_eq_none {d : Dir} {s : State} : needDir d s = none ↔ s.dir = d := by simp [needDir]

@[simp] theorem needWholePixels_eq_none {pix : Region} {s : State} :
    needWholePixels pix s = none ↔ pix.len % s.cfg.ch.bytes = 0 := by simp [needWholePixels]

theorem Channels.isSome_ofNat? {n : Nat} : (Channels.ofNat? n).isSome = true ↔ n = 3 ∨ n = 4 := by
  unfold Channels.ofNat?
  split
  · simp [*]
  · split <;> simp [*]

theorem ColorSpace.isSome_ofNat? {n : Nat} : (ColorSpace.ofNat? n).isSome = true ↔ n = 0 ∨ n = 1 := by
  unfold ColorSpace.ofNat?
  split
  · simp [*]
  · split <;> simp [*]

@[simp] theorem needLegalFields_eq_none {ch cs : Nat} :
    needLegalFields ch cs = none ↔ (ch = 3 ∨ ch = 4) ∧ (cs = 0 ∨ cs = 1) := by
  rw [← Channels.isSome_ofNat?, ← ColorSpace.isSome_ofNat?]
  simp [needLegalFields, Option.isSome_iff_ne_none]

/-- The overlap test finds a shared byte exactly where there is one. -/
theorem Region.overlaps_eq_false_iff {r q : Region} : r.overlaps q = false ↔ Disjoint r q := by
  simp only [Region.overlaps, decide_eq_false_iff_not, Disjoint]
  constructor
  · intro h a ha
    omega
  · intro h hlt
    exact h (max r.base q.base) (by omega)

theorem Command.rowRefusal_eq_none_iff {c : Command} {s : State} : c.rowRefusal s = none ↔ RowPreconditions c s := by
  cases c <;> simp [Command.rowRefusal, RowPreconditions]

theorem Disjoint.symm {r q : Region} (h : Disjoint r q) : Disjoint q r := fun a ha => h a ha.symm

theorem Disjoint.comm {r q : Region} : Disjoint r q ↔ Disjoint q r := ⟨Disjoint.symm, Disjoint.symm⟩

/-- The buffer checks pass exactly when each of them does. -/
theorem Command.bufferRefusal_eq_none {c : Command} {s : State} :
    c.bufferRefusal s = none ↔
      (within s.params.maxInLen c.inBuf ∧ within s.params.maxOutLen c.outBuf ∧ within s.params.maxPixLen c.pixBuf) ∧
      (apart c.inBuf c.outBuf ∧ apart c.inBuf c.pixBuf ∧ apart c.outBuf c.pixBuf) := by
  unfold Command.bufferRefusal
  split
  · next h => simp only [reduceCtorEq, h, false_and]
  · next h =>
    rw [not_not] at h
    split
    · next k => simp only [reduceCtorEq, k, and_false]
    · next k => exact iff_of_true rfl ⟨h, not_not.1 k⟩

theorem Command.bufferRefusal_eq_none_iff {c : Command} {s : State} :
    c.bufferRefusal s = none ↔ BufferPreconditions c s := by
  rw [Command.bufferRefusal_eq_none]
  cases c <;>
    simp [BufferPreconditions, Command.inBuf, Command.outBuf, Command.pixBuf, within, apart,
      Region.overlaps_eq_false_iff, Disjoint.comm, and_left_comm, and_assoc]

/-- A command is refused exactly when a precondition fails (60_exceptions R329). -/
theorem Command.refusal_eq_none_iff {c : Command} {s : State} : c.refusal s = none ↔ Accepted c s := by
  rw [Command.refusal, Option.or_eq_none_iff, Command.rowRefusal_eq_none_iff, Command.bufferRefusal_eq_none_iff, Accepted]

end Sys2Proof.Machine

/-! ## What a command's pseudocode leaves, at its end or at an error -/

namespace Sys2Proof.Machine

/-- The pseudocode `a` goes on with a value that meets `Q`, or raises an error in a state that meets `R`; it never stops with a fault or
a refusal. -/
def Attempt.Ends {α : Type} (Q : α → Prop) (R : State → Prop) (a : Attempt α) : Prop :=
  (∃ x, a = .ok x ∧ Q x) ∨ ∃ e s, a = .error (.raised e s) ∧ R s

theorem Attempt.Ends.ok {α : Type} {Q : α → Prop} {R : State → Prop} {x : α} (h : Q x) :
    Attempt.Ends Q R (.ok x : Attempt α) := .inl ⟨x, rfl, h⟩

theorem Attempt.Ends.raised {α : Type} {Q : α → Prop} {R : State → Prop} {e : ErrorCode} {s : State} (h : R s) :
    Attempt.Ends Q R (.error (.raised e s) : Attempt α) := .inr ⟨e, s, rfl, h⟩

/-- A sequence: its second part begins where its first went on. -/
theorem Attempt.Ends.bind {α β : Type} {Q : α → Prop} {Q' : β → Prop} {R : State → Prop} {a : Attempt α}
    {f : α → Attempt β} (ha : a.Ends Q R) (hf : ∀ x, Q x → (f x).Ends Q' R) : (a >>= f).Ends Q' R := by
  rcases ha with ⟨x, rfl, hx⟩ | ⟨e, s, rfl, hs⟩
  · exact hf x hx
  · exact .raised hs

theorem Attempt.Ends.map {α β : Type} {Q : α → Prop} {Q' : β → Prop} {R : State → Prop} {a : Attempt α} {f : α → β}
    (ha : a.Ends Q R) (hf : ∀ x, Q x → Q' (f x)) : Attempt.Ends Q' R (Except.map f a) := by
  rcases ha with ⟨x, rfl, hx⟩ | ⟨e, s, rfl, hs⟩
  · exact .ok (hf x hx)
  · exact .raised hs

theorem Attempt.Ends.mono {α : Type} {Q Q' : α → Prop} {R R' : State → Prop} {a : Attempt α} (ha : a.Ends Q R)
    (hQ : ∀ x, Q x → Q' x) (hR : ∀ s, R s → R' s) : a.Ends Q' R' := by
  rcases ha with ⟨x, rfl, hx⟩ | ⟨e, s, rfl, hs⟩
  · exact .ok (hQ x hx)
  · exact .raised (hR s hs)

/-! ### Parts of buffers -/

/-- Every byte of `r` is a byte of `q`. -/
def Region.Within (r q : Region) : Prop :=
  ∀ a, r.base ≤ a ∧ a < r.base + r.len → q.base ≤ a ∧ a < q.base + q.len

theorem Region.within_refl (r : Region) : r.Within r := fun _ ha => ha

theorem Region.sub_within {r : Region} {o len : Nat} (h : len ≤ r.len - o) : (r.sub o len).Within r := by
  intro a ha
  simp only [Region.sub] at ha
  omega

theorem Disjoint.mono {r r' q q' : Region} (h : Disjoint r q) (hr : r'.Within r) (hq : q'.Within q) : Disjoint r' q' :=
  fun a ha => h a ⟨hr a ha.1, hq a ha.2⟩

/-! ### Frames -/

/-- Memory outside the buffer `out` reads the same, and stays canonical (20_memory R62; log 2). -/
structure MemFrame (out : Option Region) (s t : State) : Prop where
  outside : MemSameOutside out s t
  memWf : s.mem.wf = true → t.mem.wf = true

/-- What a command that writes no header leaves alone, whatever its outcome: the header registers, and memory outside `out`. -/
structure Framed (out : Option Region) (s t : State) : Prop extends MemFrame out s t where
  cfg : t.cfg = s.cfg
  cfgValid : t.cfgValid = s.cfgValid

theorem MemFrame.of_mem_eq {out : Option Region} {s t : State} (h : t.mem = s.mem) : MemFrame out s t :=
  ⟨fun _ _ => by rw [h], fun hw => h ▸ hw⟩

theorem MemFrame.trans {out : Option Region} {s t u : State} (h : MemFrame out s t) (k : MemFrame out t u) :
    MemFrame out s u :=
  ⟨fun a ha => (k.outside a ha).trans (h.outside a ha), fun hw => k.memWf (h.memWf hw)⟩

theorem Framed.refl (out : Option Region) (s : State) : Framed out s s := ⟨.of_mem_eq rfl, rfl, rfl⟩

theorem Framed.trans {out : Option Region} {s t u : State} (h : Framed out s t) (k : Framed out t u) : Framed out s u :=
  ⟨h.toMemFrame.trans k.toMemFrame, k.cfg.trans h.cfg, k.cfgValid.trans h.cfgValid⟩

theorem SameBut.framed {r out : Region} {s t : State} (h : SameBut r s t) (hr : r.Within out) : Framed (some out) s t :=
  ⟨⟨fun a ha => h.mem a fun hin => ha out rfl (hr a hin), h.wf⟩, h.cfg, h.cfgValid⟩

end Sys2Proof.Machine

/-! ## Each command's outcome -/

namespace Sys2Proof.Machine

/-- A success of a command that writes no header: `STATUS` is 0, `DIR` is `d`, and the frame holds. -/
structure Succeeded (out : Option Region) (d : Dir) (s t : State) : Prop extends Framed out s t where
  status : t.status = .ok
  dir : t.dir = d

theorem Framed.succeeded {out : Option Region} {s t u : State} (h : Framed out s t) {d : Dir} (k : Succeeded out d t u) :
    Succeeded out d s u :=
  ⟨h.trans k.toFramed, k.status, k.dir⟩

theorem SameBut.succeeded {r out : Region} {d : Dir} {s t : State} (h : SameBut r { s with status := .ok, dir := d } t)
    (hr : r.Within out) : Succeeded (some out) d s t :=
  ⟨⟨⟨(h.framed hr).outside, h.wf⟩, h.cfg, h.cfgValid⟩, h.status, h.dir⟩

/-- The frame does not speak of what STREAM_INIT writes. -/
theorem Framed.streamInit (out : Option Region) (d : StreamDir) (s : State) : Framed out s (streamInit d s) :=
  ⟨.of_mem_eq rfl, rfl, rfl⟩

/-! ### The encoder -/

theorem hdrEnc_ends (s : State) {r out : Region} (hr : r.Within out) :
    (hdrEnc r s).Ends (fun x => Succeeded (some out) s.dir s x.1) (Framed (some out) s) := by
  rcases hdrEnc_cases s r with ⟨-, t, ht, hsame, -, -⟩ | ⟨-, he⟩
  · rw [ht]; exact .ok (hsame.succeeded hr)
  · rw [he]; exact .raised (.refl _ _)

theorem encRange_ends (s : State) {pix r out : Region} (h : Disjoint pix r) (hr : r.Within out) :
    (encRange pix r s).Ends (fun x => Succeeded (some out) s.dir s x.1) (Framed (some out) s) := by
  rcases encRange_cases s pix r h with ⟨t, ht, hsame, -, -, -⟩ | ⟨t, he, hsame, -⟩
  · rw [ht]; exact .ok (hsame.succeeded hr)
  · rw [he]; exact .raised (hsame.framed hr)

theorem encFinish_ends (s : State) {r out : Region} (hr : r.Within out) :
    (encFinish r s).Ends (fun x => Succeeded (some out) .none s x.1) (Framed (some out) s) := by
  rcases encFinish_cases s r with ⟨-, t, ht, hsame, -, -⟩ | ⟨-, he⟩
  · rw [ht]; exact .ok (hsame.succeeded hr)
  · rw [he]; exact .raised (.refl _ _)

theorem encImage_ends (s : State) {pix out : Region} (h : Disjoint pix out) :
    (encImage pix out s).Ends (fun x => Succeeded (some out) .none s x.1) (Framed (some out) s) := by
  unfold encImage
  split
  · exact .raised (.refl _ _)
  split
  · exact .raised (.refl _ _)
  next hpix hout =>
  refine (hdrEnc_ends s (Region.sub_within (by omega))).bind fun a ha => ?_
  have hinit := ha.toFramed.trans (.streamInit _ .enc a.1)
  have hrange := encRange_ends (streamInit .enc a.1) (pix := pix.sub 0 s.cfg.nbytes)
    (h.mono (Region.sub_within (by omega)) (Region.sub_within le_rfl)) (Region.sub_within (r := out) (o := hdrLen) le_rfl)
  refine (hrange.mono (fun b hb => hinit.trans hb.toFramed) fun t ht => hinit.trans ht).bind fun b hb => ?_
  have hfinish := encFinish_ends b.1 (Region.sub_within (r := out) (o := hdrLen + b.2) le_rfl)
  exact (hfinish.mono (fun c hc => hb.succeeded hc) fun t ht => hb.trans ht).bind fun c hc => .ok hc

/-! ### The decoder -/

/-- DEC_RANGE's loop begins at the first pixel of its window. -/
theorem decAt_start (s : State) (inp pix : Region) :
    DecAt (s.start inp Region.empty pix) 0 (pix.len / s.cfg.ch.bytes) :=
  ⟨by simp, by simpa using Nat.div_mul_le_self _ _⟩

theorem decRange_ends (s : State) (inp : Region) {r pix : Region} (hr : r.Within pix) :
    (decRange inp r s).Ends (fun x => Succeeded (some pix) s.dir s x.1) (Framed (some pix) s) := by
  unfold decRange
  rcases decLoop_cases _ (decAt_start s inp r) with ⟨t, ht, hsame, -⟩ | ⟨t, he, hsame⟩
  · have hf := hsame.framed hr
    rw [ht]
    exact .ok ⟨⟨⟨hf.outside, hf.memWf⟩, hf.cfg, hf.cfgValid⟩, rfl, hsame.dir⟩
  · have hf := hsame.framed hr
    rw [he]
    exact .raised ⟨⟨hf.outside, hf.memWf⟩, hf.cfg, hf.cfgValid⟩

theorem decBody_ends (s : State) (inp pix : Region) (hd : s.dir = .none) :
    (decBody inp pix s).Ends (fun x => Succeeded (some pix) .none s x.1) (Framed (some pix) s) := by
  unfold decBody
  split
  · exact .raised (.refl _ _)
  split
  · exact .ok ⟨⟨.of_mem_eq rfl, rfl, rfl⟩, rfl, hd⟩
  next hlen _ =>
  have hinit := Framed.streamInit (some pix) .dec s
  have hrange := decRange_ends (streamInit .dec s) inp (Region.sub_within (r := pix) (o := 0) (len := s.cfg.nbytes) (by omega))
  refine (hrange.mono (fun c hc => hinit.trans hc.toFramed) fun t ht => hinit.trans ht).bind fun c hc => ?_
  exact .ok ⟨⟨⟨hc.outside, hc.memWf⟩, hc.cfg, hc.cfgValid⟩, rfl, rfl⟩

/-! ### The header commands -/

/-- Loading a header touches neither memory nor the stream's direction. -/
structure HeaderLoaded (s t : State) : Prop where
  mem : t.mem = s.mem
  dir : t.dir = s.dir
  status : t.status = .ok

theorem setHeader_ends (s : State) (w h : Word32) {ch cs : Nat} (hch : ch = 3 ∨ ch = 4) (hcs : cs = 0 ∨ cs = 1)
    {R : State → Prop} : (setHeader w h ch cs s).Ends (HeaderLoaded s) R := by
  obtain ⟨c, hc⟩ := Option.isSome_iff_exists.1 (Channels.isSome_ofNat?.2 hch)
  obtain ⟨k, hk⟩ := Option.isSome_iff_exists.1 (ColorSpace.isSome_ofNat?.2 hcs)
  simp only [setHeader, hc, hk]
  exact .ok ⟨rfl, rfl, rfl⟩

theorem hdrDec_ends (s : State) (inp : Region) {R : State → Prop} (hR : R s) :
    (hdrDec inp s).Ends (fun x => HeaderLoaded s x.1) R := by
  unfold hdrDec
  split
  · exact .raised hR
  · exact .ok ⟨rfl, rfl, rfl⟩

theorem decImage_ends (s : State) (inp pix : Region) (hd : s.dir = .none) :
    (decImage inp pix s).Ends (fun x => MemFrame (some pix) s x.1 ∧ x.1.dir = .none ∧ x.1.status = .ok)
      (MemFrame (some pix) s) := by
  unfold decImage
  refine (hdrDec_ends s inp (.of_mem_eq rfl)).bind fun h hh => ?_
  have hload : MemFrame (some pix) s h.1 := .of_mem_eq hh.mem
  have hbody := decBody_ends h.1 (inp.sub hdrLen (inp.len - hdrLen)) pix (hh.dir.trans hd)
  refine (hbody.mono (fun b hb => ?_) fun t ht => hload.trans ht.toMemFrame).bind fun b hb => .ok hb
  exact ⟨hload.trans hb.toMemFrame, hb.dir, hb.status⟩

/-! ### All commands -/

/-- The commands that write the header registers (10_state R23; 70 R360). -/
def Command.writesHeader : Command → Bool
  | .reset | .setHeader .. | .hdrDec _ | .dec .. => true
  | _ => false

/-- `DIR` after a command that succeeds. -/
def Command.dirAfter (c : Command) (s : State) : Dir :=
  match c with
  | .streamInit d => d.toDir
  | .getHeader | .getStatus | .encRange .. | .decRange .. => s.dir
  | _ => .none

/-- What a command leaves when it succeeds. -/
structure Completes (c : Command) (s : State) (x : State × Reply) : Prop where
  mem : MemFrame c.written s x.1
  header : c.writesHeader = false → x.1.cfg = s.cfg ∧ x.1.cfgValid = s.cfgValid
  dir : x.1.dir = c.dirAfter s
  status : c ≠ .getHeader → c ≠ .getStatus → x.1.status = .ok
  reply : ∀ e, x.2 ≠ .error e

/-- What a command leaves where it raises an error. -/
structure Raises (c : Command) (s t : State) : Prop where
  mem : MemFrame c.written s t
  header : c.writesHeader = false → t.cfg = s.cfg ∧ t.cfgValid = s.cfgValid

theorem Framed.raises {c : Command} {s t : State} (h : Framed c.written s t) : Raises c s t :=
  ⟨h.toMemFrame, fun _ => ⟨h.cfg, h.cfgValid⟩⟩

theorem Succeeded.completes {c : Command} {s t : State} {r : Reply} (h : Succeeded c.written (c.dirAfter s) s t)
    (hr : ∀ e, r ≠ .error e) : Completes c s (t, r) :=
  ⟨h.toMemFrame, fun _ => ⟨h.cfg, h.cfgValid⟩, h.dir, fun _ _ => h.status, hr⟩

theorem countReply_ends {c : Command} {s : State} {a : Attempt (State × Nat)}
    (h : a.Ends (fun x => Succeeded c.written (c.dirAfter s) s x.1) (Framed c.written s)) :
    (countReply a).Ends (Completes c s) (Raises c s) :=
  (h.mono (fun _ hx => hx) fun _ ht => ht.raises).map fun _ hx => hx.completes fun _ hne => nomatch hne

/-- What an accepted command can do: it succeeds or raises an error, never stops, and keeps its frame (60_exceptions R321, R330). -/
theorem perform_ends {c : Command} {s : State} (h : Accepted c s) : (perform c s).Ends (Completes c s) (Raises c s) := by
  obtain ⟨hrow, hbuf⟩ := h
  cases c with
  | reset => exact .ok ⟨.of_mem_eq rfl, nofun, rfl, fun _ _ => rfl, nofun⟩
  | setHeader w h ch cs =>
    obtain ⟨hd, hch, hcs⟩ := hrow
    exact (setHeader_ends s w h hch hcs).map fun t ht => ⟨.of_mem_eq ht.mem, nofun, ht.dir.trans hd, fun _ _ => ht.status, nofun⟩
  | hdrEnc out =>
    have hends := hdrEnc_ends s out.within_refl
    rw [hrow.2] at hends
    exact countReply_ends (c := .hdrEnc out) hends
  | hdrDec inp =>
    exact (hdrDec_ends s inp ⟨.of_mem_eq rfl, nofun⟩).map fun x hx =>
      ⟨.of_mem_eq hx.mem, nofun, hx.dir.trans hrow, fun _ _ => hx.status, nofun⟩
  | getHeader => exact .ok ⟨.of_mem_eq rfl, fun _ => ⟨rfl, rfl⟩, rfl, fun hne => absurd rfl hne, nofun⟩
  | getStatus => exact .ok ⟨.of_mem_eq rfl, fun _ => ⟨rfl, rfl⟩, rfl, fun _ hne => absurd rfl hne, nofun⟩
  | streamInit d => exact .ok ⟨.of_mem_eq rfl, fun _ => ⟨rfl, rfl⟩, rfl, fun _ _ => rfl, nofun⟩
  | streamClose => exact .ok ⟨.of_mem_eq rfl, fun _ => ⟨rfl, rfl⟩, rfl, fun _ _ => rfl, nofun⟩
  | encRange pix out => exact countReply_ends (c := .encRange pix out) (encRange_ends s hbuf.2.2 out.within_refl)
  | encFinish out => exact countReply_ends (c := .encFinish out) (encFinish_ends s out.within_refl)
  | enc pix out => exact countReply_ends (c := .enc pix out) (encImage_ends s hbuf.2.2)
  | decRange inp pix => exact countReply_ends (c := .decRange inp pix) (decRange_ends s inp pix.within_refl)
  | decBody inp pix => exact countReply_ends (c := .decBody inp pix) (decBody_ends s inp pix hrow.2)
  | dec inp pix =>
    refine ((decImage_ends s inp pix hrow).mono (fun _ hx => hx) fun t ht => ⟨ht, nofun⟩).map fun x hx => ?_
    exact ⟨hx.1, nofun, hx.2.1, fun _ _ => hx.2.2, nofun⟩
  | other n => exact hrow.elim

/-- An accepted command runs. -/
theorem issue_accepted {c : Command} {s : State} (h : Accepted c s) : issue c s = conclude c.written (perform c s) := by
  rw [issue, Command.refusal_eq_none_iff.2 h]

/-- A command that is not accepted is refused. -/
theorem issue_refused {c : Command} {s : State} (h : ¬ Accepted c s) : ∃ r, issue c s = .refused r := by
  obtain ⟨r, hr⟩ := Option.ne_none_iff_exists'.1 (mt Command.refusal_eq_none_iff.1 h)
  exact ⟨r, by rw [issue, hr]⟩

/-- What a command that answers a next state has done: it was accepted, and it succeeded or raised an error. -/
theorem issue_next {c : Command} {s t : State} (h : issue c s = .next t) :
    Accepted c s ∧
      ((∃ x, perform c s = .ok x ∧ Completes c s x ∧ t = { x.1 with launch := Launch.idle, reply := x.2 }) ∨
        ∃ e u, perform c s = .error (.raised e u) ∧ Raises c s u ∧ t = raiseError e c.written u) := by
  have hacc : Accepted c s := by
    by_contra hn
    obtain ⟨r, hr⟩ := issue_refused hn
    rw [hr] at h
    cases h
  refine ⟨hacc, ?_⟩
  rw [issue_accepted hacc] at h
  rcases perform_ends hacc with ⟨x, hx, hq⟩ | ⟨e, u, hu, hr⟩
  · rw [hx] at h
    exact .inl ⟨x, hx, hq, (Host.Outcome.next.inj h).symm⟩
  · rw [hu] at h
    exact .inr ⟨e, u, hu, hr, (Host.Outcome.next.inj h).symm⟩

/-! ### Raising an error (60_exceptions R330), with an output buffer or without -/

theorem raiseError_status (e : ErrorCode) (out : Option Region) (s : State) : (raiseError e out s).status = .error e := by
  cases out <;> rfl

theorem raiseError_reply (e : ErrorCode) (out : Option Region) (s : State) : (raiseError e out s).reply = .error e := by
  cases out <;> rfl

theorem raiseError_dir (e : ErrorCode) (out : Option Region) (s : State) : (raiseError e out s).dir = .none := by
  cases out <;> rfl

theorem raiseError_launch (e : ErrorCode) (out : Option Region) (s : State) : (raiseError e out s).launch = Launch.idle := by
  cases out <;> rfl

theorem raiseError_cfg (e : ErrorCode) (out : Option Region) (s : State) : (raiseError e out s).cfg = s.cfg := by
  cases out <;> rfl

theorem raiseError_cfgValid (e : ErrorCode) (out : Option Region) (s : State) :
    (raiseError e out s).cfgValid = s.cfgValid := by
  cases out <;> rfl

theorem raiseError_memWf (e : ErrorCode) (out : Option Region) {s : State} (h : s.mem.wf = true) :
    (raiseError e out s).mem.wf = true := by
  cases out with
  | none => exact h
  | some b => exact Memory.wf_writeBytes _ _ _ h

end Sys2Proof.Machine

/-! ## The invariants of the stream state -/

namespace Sys2Proof.Machine

/-- The stream state between pixels, in either direction: `RUN` is at most 61 (10_state R27), and with three channels `PREV` is opaque
(R26). -/
structure StreamState.Sound (ch : Channels) (st : StreamState) : Prop where
  runBound : st.run.toNat ≤ 61
  alphaOpaque : ch = .three → st.prev.a = 255

/-- Once the encoder has started, the slot of `PREV` holds it (43_cache_index R208). -/
def StreamState.PrevCached (ch : Channels) (st : StreamState) : Prop := st.started = true → st.hits ch st.prev = true

theorem StreamState.initial_sound (ch : Channels) : StreamState.initial.Sound ch := ⟨by decide, fun _ => rfl⟩

theorem StreamState.initial_prevCached (ch : Channels) : StreamState.initial.PrevCached ch := nofun

/-! ### The encoder's pixel -/

/-- A pixel just stored is found. -/
theorem StreamState.hits_store (ch : Channels) (px : Pixel) (st : StreamState) : (st.store ch px).hits ch px = true := by
  rw [StreamState.hits, StreamState.store_get, if_pos rfl, Pixel.eqIn_refl]

theorem flushRun_prev (policy : Run1Policy) (ch : Channels) (st : StreamState) : (flushRun policy ch st).1.prev = st.prev := by
  unfold flushRun foldFlush
  split
  · rfl
  split
  · split
    · rfl
    split <;> rfl
  · rfl

/-- After a flush no run is pending. -/
theorem flushRun_run (policy : Run1Policy) (ch : Channels) (st : StreamState) : (flushRun policy ch st).1.run = 0 := by
  unfold flushRun foldFlush
  split
  · assumption
  split
  · split
    · rfl
    split <;> rfl
  · rfl

theorem encFresh_prev (ch : Channels) (px : Pixel) (st : StreamState) : (encFresh ch px st).1.prev = px := by
  unfold encFresh; split <;> rfl

theorem encFresh_run (ch : Channels) (px : Pixel) (st : StreamState) : (encFresh ch px st).1.run = st.run := by
  unfold encFresh; split <;> rfl

/-- A pixel of its own is in the cache afterwards, found there or stored. -/
theorem encFresh_hits (ch : Channels) (px : Pixel) (st : StreamState) : (encFresh ch px st).1.hits ch px = true := by
  unfold encFresh
  split
  · assumption
  · exact StreamState.hits_store ch px st

/-- Extending a run touches nothing but `RUN`. -/
theorem accumulate_eq (st : StreamState) : (accumulate st).1 = { st with run := (accumulate st).1.run } := by
  unfold accumulate; split <;> rfl

/-- A run of 62 is flushed at once, so at most 61 pixels stay pending (R221). -/
theorem accumulate_run_le {st : StreamState} (h : st.run.toNat ≤ 61) : (accumulate st).1.run.toNat ≤ 61 := by
  unfold accumulate
  split
  · exact Nat.zero_le _
  · next hne =>
    simp only [runMax] at hne
    bv_omega

theorem encPixel_sound {policy : Run1Policy} {ch : Channels} {px : Pixel} {st : StreamState} (hpx : ch = .three → px.a = 255)
    (h : st.Sound ch) : (encPixel policy ch px st).1.Sound ch := by
  unfold encPixel
  split
  · refine ⟨accumulate_run_le h.runBound, fun hch => ?_⟩
    rw [accumulate_eq]
    exact h.alphaOpaque hch
  · refine ⟨?_, fun hch => ?_⟩
    · rw [encFresh_run, flushRun_run]
      decide
    · rw [encFresh_prev]
      exact hpx hch

theorem encPixel_prevCached {policy : Run1Policy} {ch : Channels} {px : Pixel} {st : StreamState} (h : st.PrevCached ch) :
    (encPixel policy ch px st).1.PrevCached ch := by
  unfold encPixel
  split
  · rw [accumulate_eq]
    exact h
  · intro _
    rw [encFresh_prev]
    exact encFresh_hits ..

/-- The pixels of a three-channel buffer are opaque (40_pixel_model R118). -/
theorem pixelsAt_opaque {m : Memory} {base n : Nat} {ch : Channels} {px : Pixel} (h : px ∈ pixelsAt ch m base n)
    (hch : ch = .three) : px.a = 255 := by
  induction n generalizing base with
  | zero => simp [pixelsAt] at h
  | succ n ih =>
    rcases List.mem_cons.1 h with rfl | h
    · subst hch; rfl
    · exact ih h

theorem encPixels_sound {policy : Run1Policy} {ch : Channels} {pxs : List Pixel} {st : StreamState}
    (hpxs : ∀ px ∈ pxs, ch = .three → px.a = 255) (h : st.Sound ch) : (encPixels policy ch pxs st).1.Sound ch := by
  induction pxs generalizing st with
  | nil => exact h
  | cons px pxs ih =>
    exact ih (fun q hq => hpxs q (by simp [hq])) (encPixel_sound (hpxs px (by simp)) h)

theorem encPixels_prevCached {policy : Run1Policy} {ch : Channels} {pxs : List Pixel} {st : StreamState}
    (h : st.PrevCached ch) : (encPixels policy ch pxs st).1.PrevCached ch := by
  induction pxs generalizing st with
  | nil => exact h
  | cons px pxs ih => exact ih (encPixel_prevCached h)

/-! ### The decoder's step -/

/-- A run byte's payload is at most 61: the payloads 62 and 63 are the tags of RGB and RGBA (30_encoding R86). -/
theorem opOf_run_le {t : Byte} {d : List Byte} {len : Nat} (h : opOf t d = .run len) : len ≤ 62 := by
  unfold opOf at h
  split at h
  · cases h
  split at h
  · cases h
  split at h
  · cases h
  split at h
  · cases h
  split at h
  · cases h
  next hFE hFF h0 h1 h2 =>
  obtain rfl := Instr.run.inj h
  simp only [← BitVec.toNat_inj, BitVec.extractLsb'_toNat, BitVec.toNat_ofNat, Nat.shiftRight_eq_div_pow] at hFE hFF h0 h1 h2
  simp only [zextField, BitVec.extractLsb'_toNat, Nat.shiftRight_eq_div_pow]
  omega

theorem decode_run_le {bs : List Byte} {len n : Nat} (h : decode bs = .ok (.run len, n)) : len ≤ 62 := by
  cases bs with
  | nil => cases h
  | cons t d =>
    simp only [decode] at h
    split at h
    · cases h
    · exact opOf_run_le (Prod.mk.inj (Except.ok.inj h)).1

/-- In a three-channel stream every opcode keeps the alpha of `PREV` (10_state R26), and RUN alone writes `RUN`. -/
theorem OpcodeEffect.sound {ch : Channels} {i : Instr} {st st' : StreamState} (h : OpcodeEffect ch i st st')
    (hrun : ∀ len, i = .run len → len ≤ 62) (hs : st.Sound ch) : st'.Sound ch := by
  rcases h with ⟨k, px, -, rfl, rfl⟩ | ⟨dr, dg, db, px, -, rfl, rfl⟩ | ⟨dg, drg, dbg, px, -, rfl, rfl⟩ |
    ⟨len, hi, rfl⟩ | ⟨r, g, b, px, -, rfl, rfl⟩ | ⟨r, g, b, a, px, -, rfl, rfl⟩
  · refine ⟨hs.runBound, fun hch => ?_⟩
    subst hch
    exact hs.alphaOpaque rfl
  · exact ⟨hs.runBound, hs.alphaOpaque⟩
  · exact ⟨hs.runBound, hs.alphaOpaque⟩
  · have hlen := hrun len hi
    refine ⟨?_, hs.alphaOpaque⟩
    rw [BitVec.toNat_ofNat]
    omega
  · exact ⟨hs.runBound, hs.alphaOpaque⟩
  · refine ⟨hs.runBound, fun hch => ?_⟩
    subst hch
    exact hs.alphaOpaque rfl

/-- Paying one owed copy of a run. -/
theorem StreamState.Sound.drain {ch : Channels} {st : StreamState} (h : st.Sound ch) (hrun : st.run ≠ 0) :
    StreamState.Sound ch { st with run := st.run - 1 } := by
  refine ⟨?_, h.alphaOpaque⟩
  have hle := h.runBound
  bv_omega

theorem decLoop_sound (n : Nat) {s t : State} {k : Nat} (hat : DecAt s k n) (hs : s.stream.Sound s.cfg.ch)
    (ht : decLoop n s = .ok t) : t.stream.Sound t.cfg.ch := by
  induction n generalizing s k with
  | zero => exact Except.ok.inj ht ▸ hs
  | succ n ih =>
    obtain ⟨u, hu, hrest⟩ := Attempt.bind_eq_ok.1 ht
    obtain ⟨hat', hsame, -, -, -, -, hstep⟩ := decStep_ok hat hu
    refine ih hat' ?_ hrest
    rw [hsame.cfg]
    rcases hstep with ⟨hrun, hst, -⟩ | ⟨i, len, -, hdec, heff, -⟩
    · rw [hst]
      exact hs.drain hrun
    · exact heff.sound (fun len' hi => decode_run_le (hi ▸ hdec)) hs

/-! ### The chunk commands -/

theorem encRange_stream {s : State} {pix out : Region} {x : State × Nat} (h : Disjoint pix out)
    (hx : encRange pix out s = .ok x) : x.1.stream = s.rangeStream pix := by
  rcases encRange_cases s pix out h with ⟨t, ht, -, hst, -⟩ | ⟨t, he, -⟩
  · rw [ht] at hx
    exact Except.ok.inj hx ▸ hst
  · rw [he] at hx
    cases hx

theorem decRange_sound {s : State} {inp pix : Region} {x : State × Nat} (hs : s.stream.Sound s.cfg.ch)
    (hx : decRange inp pix s = .ok x) : x.1.stream.Sound x.1.cfg.ch := by
  obtain ⟨t, ht, hfin⟩ := Attempt.bind_eq_ok.1 hx
  obtain rfl := Except.ok.inj hfin
  exact decLoop_sound (t := t) _ (decAt_start s inp pix) hs ht

/-! ### The invariant of command boundaries -/

/-- With no stream open the invariant is about memory and the cursors alone. -/
theorem Inv.of_closed {s : State} (hm : s.mem.wf = true) (hd : s.dir = .none) (hl : s.launch = Launch.idle) : Inv s :=
  ⟨hm, fun h => absurd hd h, fun h => absurd hd h, fun h => absurd hd h, fun h => by simp [hd] at h, hl⟩

theorem Inv.of_open {s : State} (hm : s.mem.wf = true) (hv : s.cfgValid = true) (hs : s.stream.Sound s.cfg.ch)
    (hc : s.dir = .enc → s.stream.PrevCached s.cfg.ch) (hl : s.launch = Launch.idle) : Inv s :=
  ⟨hm, fun _ => hv, fun _ => hs.runBound, fun _ => hs.alphaOpaque, hc, hl⟩

theorem Inv.sound {s : State} (h : Inv s) (hd : s.dir ≠ .none) : s.stream.Sound s.cfg.ch :=
  ⟨h.runBound hd, h.alphaOpaque hd⟩

/-- A command that succeeds keeps the invariant. Most leave no stream open; the two that read change nothing, STREAM_INIT writes the
stream-initial values, and a chunk command keeps its stream's invariant pixel by pixel. -/
theorem Inv.of_completes {c : Command} {s : State} {x : State × Reply} (hi : Inv s) (hacc : Accepted c s)
    (hx : perform c s = .ok x) (hc : Completes c s x) : Inv { x.1 with launch := Launch.idle, reply := x.2 } := by
  have hm := hc.mem.memWf hi.memWf
  obtain ⟨hrow, hbuf⟩ := hacc
  cases c with
  | getHeader =>
    obtain rfl := Except.ok.inj hx
    exact ⟨hi.memWf, hi.headerLoaded, hi.runBound, hi.alphaOpaque, hi.prevCached, rfl⟩
  | getStatus =>
    obtain rfl := Except.ok.inj hx
    exact ⟨hi.memWf, hi.headerLoaded, hi.runBound, hi.alphaOpaque, hi.prevCached, rfl⟩
  | streamInit d =>
    obtain rfl := Except.ok.inj hx
    exact .of_open hm hrow (StreamState.initial_sound _) (fun _ => StreamState.initial_prevCached _) rfl
  | encRange pix out =>
    obtain ⟨y, hy, rfl⟩ := Attempt.map_eq_ok.1 hx
    have hst := encRange_stream hbuf.2.2 hy
    obtain ⟨hcfg, hvalid⟩ := hc.header rfl
    have hopen : s.dir ≠ .none := by simp [hrow.1]
    refine .of_open hm (hvalid.trans (hi.headerLoaded hopen)) ?_ (fun _ => ?_) rfl
    · rw [hcfg, hst]
      exact encPixels_sound (fun _ => pixelsAt_opaque) (hi.sound hopen)
    · rw [hcfg, hst]
      exact encPixels_prevCached (hi.prevCached hrow.1)
  | decRange inp pix =>
    obtain ⟨y, hy, rfl⟩ := Attempt.map_eq_ok.1 hx
    have hopen : s.dir ≠ .none := by simp [hrow.1]
    refine .of_open hm ((hc.header rfl).2.trans (hi.headerLoaded hopen)) (decRange_sound (hi.sound hopen) hy) ?_ rfl
    intro henc
    have hdec : y.1.dir = .dec := hc.dir.trans hrow.1
    cases hdec.symm.trans henc
  | _ => exact .of_closed hm hc.dir rfl

theorem issue_keeps_inv {c : Command} {s t : State} (hi : Inv s) (h : issue c s = .next t) : Inv t := by
  obtain ⟨hacc, ⟨x, hx, hc, rfl⟩ | ⟨e, u, -, hr, rfl⟩⟩ := issue_next h
  · exact hi.of_completes hacc hx hc
  · exact .of_closed (raiseError_memWf e _ (hr.mem.memWf hi.memWf)) (raiseError_dir ..) (raiseError_launch ..)

/-- The host's coming moves are no part of the invariant. -/
theorem Inv.pending {s : State} (h : Inv s) (rest : List HostMove) : Inv { s with pending := rest } :=
  ⟨h.memWf, h.headerLoaded, h.runBound, h.alphaOpaque, h.prevCached, h.nothingRunning⟩

/-! ## The obligations of the state -/

/-- Settles O58: a step is the host's next move, and each kind of move keeps the invariant. -/
theorem stepKeepsTheInvariant : Obligations.StepKeepsTheInvariant := by
  intro s t hi h
  unfold step at h
  split at h
  case h_1 => exact Host.Outcome.next.inj h ▸ hi
  case h_2 c rest _ => exact issue_keeps_inv (hi.pending rest) h
  case h_3 a b rest _ =>
    obtain rfl := Host.Outcome.next.inj h
    exact ⟨Memory.wf_write _ _ _ hi.memWf, hi.headerLoaded, hi.runBound, hi.alphaOpaque, hi.prevCached, hi.nothingRunning⟩

/-- Settles O53: a success replies no error and leaves `STATUS` 0, an error is both the reply and the new `STATUS`. -/
theorem statusReportsTheOutcome : Obligations.StatusReportsTheOutcome := by
  refine ⟨fun c s t e h hrep => ?_, fun c s t h hrep hgh hgs => ?_, rfl, rfl, rfl, rfl, rfl, rfl, rfl, rfl⟩
  · obtain ⟨-, ⟨x, -, hc, rfl⟩ | ⟨e', u, -, -, rfl⟩⟩ := issue_next h
    · exact absurd hrep (hc.reply e)
    · rw [raiseError_reply] at hrep
      obtain rfl := Reply.error.inj hrep
      exact raiseError_status ..
  · obtain ⟨-, ⟨x, -, hc, rfl⟩ | ⟨e, u, -, -, rfl⟩⟩ := issue_next h
    · exact hc.status hgh hgs
    · exact absurd (raiseError_reply ..) (hrep e)

/-- Settles O55: the frame of a command that writes no header, at its success and at its error. -/
theorem onlyHeaderCommandsWriteCfg : Obligations.OnlyHeaderCommandsWriteCfg := by
  intro c s t h hreset hset hhdr hdec
  have hw : c.writesHeader = false := by
    cases c with
    | reset => exact absurd rfl hreset
    | setHeader => exact absurd rfl (hset _ _ _ _)
    | hdrDec inp => exact absurd rfl (hhdr inp)
    | dec inp pix => exact absurd rfl (hdec inp pix)
    | _ => rfl
  obtain ⟨-, ⟨x, -, hc, rfl⟩ | ⟨e, u, -, hr, rfl⟩⟩ := issue_next h
  · exact hc.header hw
  · rw [raiseError_cfg, raiseError_cfgValid]
    exact hr.header hw

/-- Settles O38: STREAM_INIT is accepted exactly with a header loaded, and leaves the stream-initial values. -/
theorem streamInitWritesInitialValues : Obligations.StreamInitWritesInitialValues := by
  refine ⟨fun s d h => ?_, fun s d h => ⟨_, issue_accepted ⟨h, trivial⟩, fun i => ?_, rfl, rfl, rfl, ?_, rfl, rfl, rfl, rfl, rfl, rfl⟩⟩
  · exact issue_refused fun ⟨hrow, _⟩ => Bool.false_ne_true (h.symm.trans hrow)
  · simp [StreamState.initial, Pixel.new]
  · cases d <;> rfl

/-- Settles O41: the reset state is a literal. -/
theorem resetStateHasTheGivenValues : Obligations.ResetStateHasTheGivenValues := ⟨rfl, rfl, rfl, rfl⟩

end Sys2Proof.Machine

/-! ## Buffers and faults (20_memory) -/

namespace Sys2Proof.Machine

/-- Settles O14: with room an opcode goes on, and it goes on only with room. -/
theorem opcodeStopsExactlyWithoutRoom : Obligations.OpcodeStopsExactlyWithoutRoom := by
  intro i s
  rw [roomForPixel_iff]
  constructor
  · intro hstop hroom
    obtain ⟨t, ht⟩ := exec_of_hasPixel i hroom
    exact hstop t ht
  · intro hroom t ht
    exact hroom (exec_next ht).1

/-- A command is refused, succeeds or raises an error (60_exceptions R321): it makes no access outside a buffer. -/
theorem issue_noFault (c : Command) (s : State) : NoFault (issue c s) := by
  intro f hf
  by_cases hacc : Accepted c s
  · rw [issue_accepted hacc] at hf
    rcases perform_ends hacc with ⟨x, hx, -⟩ | ⟨e, u, hu, -⟩
    · rw [hx] at hf
      cases hf
    · rw [hu] at hf
      cases hf
  · obtain ⟨r, hr⟩ := issue_refused hacc
    cases hr.symm.trans hf

/-- Settles O50: a step is idle, a byte the host writes, or a command, and no command faults. -/
theorem noStepFaults : Obligations.NoStepFaults := by
  intro s
  unfold step
  split
  case h_1 => exact nofun
  case h_2 c rest _ => exact issue_noFault c _
  case h_3 => exact nofun

/-- Raising an error overwrites the output buffer and no other byte (60_exceptions R330). -/
theorem raiseError_outside (e : ErrorCode) (out : Option Region) (s : State) : MemSameOutside out s (raiseError e out s) := by
  intro a ha
  cases out with
  | none => rfl
  | some b =>
    have hnot := ha b rfl
    rw [raiseError_some_mem, Memory.read_writeBytes_outside]
    rw [length_freeBytes]
    omega

/-- Settles O56: the pseudocode keeps its frame to its end or to its error, and raising the error stays in the same buffer. -/
theorem commandsWriteOnlyTheirOutputBuffer : Obligations.CommandsWriteOnlyTheirOutputBuffer := by
  intro c s t h
  obtain ⟨-, ⟨x, -, hc, rfl⟩ | ⟨e, u, -, hr, rfl⟩⟩ := issue_next h
  · exact hc.mem.outside
  · exact fun a ha => (raiseError_outside e _ u a ha).trans (hr.mem.outside a ha)

/-! ### What a success writes (20_memory R62) -/

/-- From memory `m` to memory `m'` only the first `n` bytes of `out` changed, and `out` holds that many. -/
structure WritesBelow (out : Region) (n : Nat) (m m' : Memory) : Prop where
  fits : n ≤ out.len
  outside : ∀ a, a < out.base ∨ out.base + n ≤ a → m'.read a = m.read a

theorem writesBelow_writeBytes {out : Region} {bs : List Byte} (m : Memory) (h : bs.length ≤ out.len) :
    WritesBelow out bs.length m (m.writeBytes out.base bs) :=
  ⟨h, fun a ha => Memory.read_writeBytes_outside m out.base a bs ha⟩

/-- What is written to the first part of a buffer is written to the buffer. -/
theorem WritesBelow.of_sub {out : Region} {k n : Nat} {m m' : Memory} (h : WritesBelow (out.sub 0 k) n m m')
    (hk : k ≤ out.len) : WritesBelow out n m m' :=
  ⟨h.fits.trans hk, h.outside⟩

/-- Writing the first `j` bytes of a buffer, and then `n` more in the part after them. -/
theorem WritesBelow.append {out : Region} {j n : Nat} {m m' m'' : Memory} (h : WritesBelow out j m m')
    (k : WritesBelow (out.sub j (out.len - j)) n m' m'') : WritesBelow out (j + n) m m'' := by
  have hj := h.fits
  have hn := k.fits
  simp only [Region.sub] at hn
  refine ⟨by omega, fun a ha => (k.outside a ?_).trans (h.outside a ?_)⟩
  · simp only [Region.sub]
    omega
  · omega

theorem hdrEnc_writesBelow {s : State} {out : Region} {x : State × Nat} (hx : hdrEnc out s = .ok x) :
    x.2 = hdrLen ∧ WritesBelow out x.2 s.mem x.1.mem := by
  rcases hdrEnc_cases s out with ⟨hlen, t, ht, -, -, hmem⟩ | ⟨-, he⟩
  · obtain rfl := Except.ok.inj (ht.symm.trans hx)
    exact ⟨rfl, hmem ▸ writesBelow_writeBytes (bs := s.cfg.toBytes) s.mem hlen⟩
  · cases he.symm.trans hx

/-- With no pixel ENC_RANGE emits nothing. -/
theorem rangeBytes_eq_nil {s : State} {pix : Region} (h : pix.len / s.cfg.ch.bytes = 0) : s.rangeBytes pix = [] := by
  rw [State.rangeBytes, h]
  rfl

theorem encRange_writesBelow {s : State} {pix out : Region} {x : State × Nat} (h : Disjoint pix out)
    (hx : encRange pix out s = .ok x) : WritesBelow out x.2 s.mem x.1.mem := by
  rcases encRange_cases s pix out h with ⟨t, ht, -, -, hmem, hfit⟩ | ⟨t, he, -⟩
  · obtain rfl := Except.ok.inj (ht.symm.trans hx)
    have hlen : (s.rangeBytes pix).length ≤ out.len := by
      by_cases hn : pix.len / s.cfg.ch.bytes = 0
      · simp [rangeBytes_eq_nil hn]
      · exact hfit hn
    exact hmem ▸ writesBelow_writeBytes s.mem hlen
  · cases he.symm.trans hx

theorem encFinish_writesBelow {s : State} {out : Region} {x : State × Nat} (hx : encFinish out s = .ok x) :
    WritesBelow out x.2 s.mem x.1.mem := by
  rcases encFinish_cases s out with ⟨hlen, t, ht, -, -, hmem⟩ | ⟨-, he⟩
  · obtain rfl := Except.ok.inj (ht.symm.trans hx)
    exact hmem ▸ writesBelow_writeBytes s.mem hlen
  · cases he.symm.trans hx

/-- ENC writes header, chunk and finish one after another, each where the one before it ended (45_encoder R255). -/
theorem encImage_writesBelow {s : State} {pix out : Region} {x : State × Nat} (h : Disjoint pix out)
    (hx : encImage pix out s = .ok x) : WritesBelow out x.2 s.mem x.1.mem := by
  unfold encImage at hx
  split at hx
  · cases hx
  split at hx
  · cases hx
  next hpix hout =>
  obtain ⟨a, ha, hx⟩ := Attempt.bind_eq_ok.1 hx
  obtain ⟨b, hb, hx⟩ := Attempt.bind_eq_ok.1 hx
  obtain ⟨c, hc, hx⟩ := Attempt.bind_eq_ok.1 hx
  obtain rfl := Except.ok.inj hx
  obtain ⟨ha14, hhdr⟩ := hdrEnc_writesBelow ha
  rw [ha14] at hhdr
  have hapart : Disjoint (pix.sub 0 s.cfg.nbytes) (out.sub hdrLen (out.len - hdrLen)) :=
    h.mono (Region.sub_within (by omega)) (Region.sub_within le_rfl)
  have hrange : WritesBelow (out.sub hdrLen (out.len - hdrLen)) b.2 a.1.mem b.1.mem :=
    encRange_writesBelow (s := streamInit .enc a.1) hapart hb
  exact ((hhdr.of_sub (by omega)).append hrange).append (encFinish_writesBelow hc)

/-- DEC_BODY decodes into the first `NBYTES` bytes of its buffer (46_decoder R294), and keeps the header. -/
theorem decBody_writesBelow {s : State} {inp pix : Region} {x : State × Nat} (hx : decBody inp pix s = .ok x) :
    x.1.cfg = s.cfg ∧ WritesBelow pix s.cfg.nbytes s.mem x.1.mem := by
  unfold decBody at hx
  split at hx
  · cases hx
  next hlen =>
  have hfits : s.cfg.nbytes ≤ pix.len := Nat.le_of_not_lt hlen
  split at hx
  · obtain rfl := Except.ok.inj hx
    exact ⟨rfl, hfits, fun _ _ => rfl⟩
  · obtain ⟨c, hc, hx⟩ := Attempt.bind_eq_ok.1 hx
    obtain rfl := Except.ok.inj hx
    rcases decRange_ends (streamInit .dec s) inp (pix.sub 0 s.cfg.nbytes).within_refl with ⟨y, hy, hok⟩ | ⟨e, u, hu, -⟩
    · obtain rfl := Except.ok.inj (hy.symm.trans hc)
      refine ⟨hok.cfg, hfits, fun a ha => hok.outside a fun b hb => ?_⟩
      obtain rfl := Option.some.inj hb
      simp only [Region.sub]
      omega
    · cases hu.symm.trans hc

theorem decImage_writesBelow {s : State} {inp pix : Region} {x : State × Header} (hx : decImage inp pix s = .ok x) :
    WritesBelow pix x.1.cfg.nbytes s.mem x.1.mem := by
  obtain ⟨h, hh, hx⟩ := Attempt.bind_eq_ok.1 hx
  obtain ⟨b, hb, hx⟩ := Attempt.bind_eq_ok.1 hx
  obtain rfl := Except.ok.inj hx
  obtain ⟨hcfg, hbody⟩ := decBody_writesBelow hb
  rcases hdrDec_ends s inp (R := fun _ => True) trivial with ⟨y, hy, hload⟩ | ⟨e, u, hu, -⟩
  · obtain rfl := Except.ok.inj (hy.symm.trans hh)
    rw [hcfg, ← hload.mem]
    exact hbody
  · cases hu.symm.trans hh

/-- A command that does not reply with an error has run its pseudocode to the end. -/
theorem issue_next_success {c : Command} {s t : State} (h : issue c s = .next t) (hrep : ∀ e, t.reply ≠ .error e) :
    Accepted c s ∧ ∃ x, perform c s = .ok x ∧ t = { x.1 with launch := Launch.idle, reply := x.2 } := by
  obtain ⟨hacc, ⟨x, hx, -, ht⟩ | ⟨e, u, -, -, rfl⟩⟩ := issue_next h
  · exact ⟨hacc, x, hx, ht⟩
  · exact absurd (raiseError_reply ..) (hrep e)

theorem countReply_eq_ok {a : Attempt (State × Nat)} {u : State} {n : Nat} :
    countReply a = .ok (u, .count n) ↔ a = .ok (u, n) := by
  rw [countReply, Attempt.map_eq_ok]
  constructor
  · rintro ⟨⟨v, k⟩, rfl, hv⟩
    obtain ⟨rfl, hk⟩ := Prod.mk.inj hv
    obtain rfl : k = n := Reply.count.inj hk
    rfl
  · rintro rfl
    exact ⟨_, rfl, rfl⟩

/-- Settles O57: each encode command writes its bytes from the start of `OUT` on and returns how many, and the decode commands decode into
the first `NBYTES` of `PIX`. -/
theorem successWritesOnlyWhatItProduces : Obligations.SuccessWritesOnlyWhatItProduces := by
  refine ⟨fun c s t out n h hrep hc => ?_, fun c s t inp pix h hst hc => ?_⟩
  · obtain ⟨⟨-, hbuf⟩, ⟨u, r⟩, hx, rfl⟩ := issue_next_success h fun e he => nomatch hrep.symm.trans he
    obtain rfl : r = .count n := hrep
    suffices hw : WritesBelow out n s.mem u.mem from ⟨hw.fits, hw.outside⟩
    rcases hc with rfl | rfl | ⟨pix, rfl | rfl⟩
    · exact (hdrEnc_writesBelow (countReply_eq_ok.1 hx)).2
    · exact encFinish_writesBelow (countReply_eq_ok.1 hx)
    · exact encRange_writesBelow hbuf.2.2 (countReply_eq_ok.1 hx)
    · exact encImage_writesBelow hbuf.2.2 (countReply_eq_ok.1 hx)
  · obtain ⟨-, x, hx, rfl⟩ := issue_next_success h fun e he =>
      nomatch hst.symm.trans (statusReportsTheOutcome.1 c s t e h he)
    suffices hw : WritesBelow pix x.1.cfg.nbytes s.mem x.1.mem from ⟨hw.fits, hw.outside⟩
    rcases hc with rfl | rfl
    · obtain ⟨y, hy, rfl⟩ := Attempt.map_eq_ok.1 hx
      exact decImage_writesBelow hy
    · obtain ⟨y, hy, rfl⟩ := Attempt.map_eq_ok.1 hx
      obtain ⟨hcfg, hw⟩ := decBody_writesBelow hy
      exact hcfg ▸ hw

end Sys2Proof.Machine

/-! ## Opcode encoding (30_encoding) -/

namespace Sys2Proof

/-! ### Operand ranges (30_encoding R95) -/

@[simp] theorem inRange_iff {lo hi x : Int} : inRange lo hi x = true ↔ lo ≤ x ∧ x ≤ hi := by simp [inRange]

@[simp] theorem Instr.wf_diff {dr dg db : Int} :
    (Instr.diff dr dg db).wf = true ↔ (-2 ≤ dr ∧ dr ≤ 1) ∧ (-2 ≤ dg ∧ dg ≤ 1) ∧ (-2 ≤ db ∧ db ≤ 1) := by
  simp only [Instr.wf, Bool.and_eq_true, inRange_iff, and_assoc]

@[simp] theorem Instr.wf_luma {dg drg dbg : Int} :
    (Instr.luma dg drg dbg).wf = true ↔ (-32 ≤ dg ∧ dg ≤ 31) ∧ (-8 ≤ drg ∧ drg ≤ 7) ∧ (-8 ≤ dbg ∧ dbg ≤ 7) := by
  simp only [Instr.wf, Bool.and_eq_true, inRange_iff, and_assoc]

@[simp] theorem Instr.wf_run {len : Nat} : (Instr.run len).wf = true ↔ 1 ≤ len ∧ len ≤ 62 := by simp [Instr.wf]

@[simp] theorem isSome_assembleLine_op {i : Instr} : (assembleLine (.op i)).isSome = true ↔ i.wf = true := by
  simp [assembleLine]

/-- Settles O5: the assembler's only test on an opcode line is well-formedness, read off range by range. -/
theorem assemblerRefusesOutOfRangeOperands : Obligations.AssemblerRefusesOutOfRangeOperands :=
  ⟨fun _ => rfl, fun _ _ _ => isSome_assembleLine_op.trans Instr.wf_diff,
    fun _ _ _ => isSome_assembleLine_op.trans Instr.wf_luma, fun _ => isSome_assembleLine_op.trans Instr.wf_run,
    fun _ _ _ => rfl, fun _ _ _ _ => rfl⟩

/-! ### Fields of a byte, as arithmetic on its value -/

theorem zextField_eq (b : Byte) (lo width : Nat) : zextField b lo width = b.toNat / 2 ^ lo % 2 ^ width := by
  rw [zextField, BitVec.extractLsb'_toNat, Nat.shiftRight_eq_div_pow]

theorem biased_eq (b : Byte) (lo width bias : Nat) :
    biased b lo width bias = (b.toNat / 2 ^ lo % 2 ^ width : Nat) - (bias : Int) := by
  rw [biased, zextField_eq]

theorem topBits_eq_iff {t : Byte} {k : BitVec 2} : t.extractLsb' 6 2 = k ↔ t.toNat / 64 = k.toNat := by
  rw [← BitVec.toNat_inj, BitVec.extractLsb'_toNat, Nat.shiftRight_eq_div_pow]
  have := t.isLt
  omega

/-- Fields that do not overlap are or-ed together by adding their values. -/
theorem toNat_or_of_dvd {x y : Byte} {k : Nat} (hx : 2 ^ k ∣ x.toNat) (hy : y.toNat < 2 ^ k) :
    (x ||| y).toNat = x.toNat + y.toNat := by
  obtain ⟨m, hm⟩ := hx
  rw [BitVec.toNat_or, hm, Nat.two_pow_add_eq_or_of_lt hy]

theorem toNat_biasField {v : Int} {bias lo : Nat} (h : 0 ≤ v + bias) (hlt : (v + bias).toNat * 2 ^ lo < 256) :
    (biasField v bias lo).toNat = (v + bias).toNat * 2 ^ lo := by
  have hv : (v + bias).toNat < 256 := lt_of_le_of_lt (Nat.le_mul_of_pos_right _ (Nat.two_pow_pos lo)) hlt
  have hbyte : (BitVec.ofInt 8 (v + bias)).toNat = (v + bias).toNat := by
    rw [BitVec.toNat_ofInt]
    omega
  rw [biasField, BitVec.toNat_shiftLeft, hbyte, Nat.shiftLeft_eq, Nat.mod_eq_of_lt hlt]

/-! ### The value of each encoded byte (30_encoding R81) -/

theorem toNat_diffTag {dr dg db : Int} (h : (Instr.diff dr dg db).wf = true) :
    (0x40#8 ||| biasField dr 2 4 ||| biasField dg 2 2 ||| biasField db 2 0).toNat =
      64 + (dr + 2).toNat * 16 + (dg + 2).toNat * 4 + (db + 2).toNat := by
  obtain ⟨hr, hg, hb⟩ := Instr.wf_diff.1 h
  have er : (biasField dr 2 4).toNat = (dr + 2).toNat * 16 := toNat_biasField (by omega) (by omega)
  have eg : (biasField dg 2 2).toNat = (dg + 2).toNat * 4 := toNat_biasField (by omega) (by omega)
  have eb : (biasField db 2 0).toNat = (db + 2).toNat * 1 := toNat_biasField (by omega) (by omega)
  have e₁ : (0x40#8 ||| biasField dr 2 4).toNat = 64 + (biasField dr 2 4).toNat :=
    toNat_or_of_dvd (k := 6) (by decide) (by omega)
  have e₂ : (0x40#8 ||| biasField dr 2 4 ||| biasField dg 2 2).toNat = _ :=
    toNat_or_of_dvd (k := 4) (by omega) (by omega)
  rw [toNat_or_of_dvd (k := 2) (by omega) (by omega)]
  omega

theorem toNat_lumaTag {dg : Int} (h : -32 ≤ dg ∧ dg ≤ 31) :
    (0x80#8 ||| biasField dg 32 0).toNat = 128 + (dg + 32).toNat := by
  have eg : (biasField dg 32 0).toNat = (dg + 32).toNat * 1 := toNat_biasField (by omega) (by omega)
  rw [toNat_or_of_dvd (k := 6) (by decide) (by omega), eg, Nat.mul_one]
  rfl

theorem toNat_lumaData {drg dbg : Int} (hr : -8 ≤ drg ∧ drg ≤ 7) (hb : -8 ≤ dbg ∧ dbg ≤ 7) :
    (biasField drg 8 4 ||| biasField dbg 8 0).toNat = (drg + 8).toNat * 16 + (dbg + 8).toNat := by
  have er : (biasField drg 8 4).toNat = (drg + 8).toNat * 16 := toNat_biasField (by omega) (by omega)
  have eb : (biasField dbg 8 0).toNat = (dbg + 8).toNat * 1 := toNat_biasField (by omega) (by omega)
  rw [toNat_or_of_dvd (k := 4) (by omega) (by omega)]
  omega

theorem toNat_runTag {len : Nat} (h : (Instr.run len).wf = true) :
    (0xC0#8 ||| BitVec.ofNat 8 (len - 1)).toNat = 191 + len := by
  obtain ⟨hlo, hhi⟩ := Instr.wf_run.1 h
  have el : (BitVec.ofNat 8 (len - 1)).toNat = len - 1 := by
    rw [BitVec.toNat_ofNat]
    omega
  have ec : (0xC0#8).toNat = 192 := rfl
  rw [toNat_or_of_dvd (k := 6) (by decide) (by omega)]
  omega

/-! ### What each range of the tag byte selects (30_encoding R89) -/

/-- The six ranges cover the tag bytes. -/
theorem tag_cases (t : Byte) :
    t.toNat ≤ 0x3F ∨ (0x40 ≤ t.toNat ∧ t.toNat ≤ 0x7F) ∨ (0x80 ≤ t.toNat ∧ t.toNat ≤ 0xBF) ∨
      (0xC0 ≤ t.toNat ∧ t.toNat ≤ 0xFD) ∨ t = 0xFE#8 ∨ t = 0xFF#8 := by
  have := t.isLt
  simp only [← BitVec.toNat_inj, BitVec.toNat_ofNat]
  omega

section
variable {t : Byte}

theorem ne_rgb_tags (h : t.toNat ≤ 0xFD) : t ≠ 0xFE#8 ∧ t ≠ 0xFF#8 := by
  simp only [ne_eq, ← BitVec.toNat_inj, BitVec.toNat_ofNat]
  omega

theorem indexRange_selects (h : t.toNat ≤ 0x3F) (d : List Byte) :
    opLen t = 1 ∧ opOf t d = .index (t.extractLsb' 0 6).toFin := by
  have htop : t.toNat / 64 = 0 := by omega
  simp [opLen, opOf, topBits_eq_iff, htop, ne_rgb_tags (t := t) (by omega)]

theorem diffRange_selects (h : 0x40 ≤ t.toNat ∧ t.toNat ≤ 0x7F) (d : List Byte) :
    opLen t = 1 ∧ opOf t d = .diff (biased t 4 2 2) (biased t 2 2 2) (biased t 0 2 2) := by
  have htop : t.toNat / 64 = 1 := by omega
  simp [opLen, opOf, topBits_eq_iff, htop, ne_rgb_tags (t := t) (by omega)]

theorem lumaRange_selects (h : 0x80 ≤ t.toNat ∧ t.toNat ≤ 0xBF) (d : List Byte) :
    opLen t = 2 ∧ opOf t d = .luma (biased t 0 6 32) (biased (dataByte d 0) 4 4 8) (biased (dataByte d 0) 0 4 8) := by
  have htop : t.toNat / 64 = 2 := by omega
  simp [opLen, opOf, topBits_eq_iff, htop, ne_rgb_tags (t := t) (by omega)]

theorem runRange_selects (h : 0xC0 ≤ t.toNat ∧ t.toNat ≤ 0xFD) (d : List Byte) :
    opLen t = 1 ∧ opOf t d = .run (zextField t 0 6 + 1) := by
  have htop : t.toNat / 64 = 3 := by omega
  simp [opLen, opOf, topBits_eq_iff, htop, ne_rgb_tags (t := t) (by omega)]

end

/-! ### Decoding, range by range -/

/-- The tag byte's length is there: the only way to decode (30_encoding R91). -/
theorem decode_cons_eq_ok {t : Byte} {d : List Byte} {i : Instr} {n : Nat} :
    decode (t :: d) = .ok (i, n) ↔ opLen t ≤ d.length + 1 ∧ opLen t = n ∧ opOf t d = i := by
  rw [decode]
  split
  · next h => exact ⟨nofun, fun h' => absurd h'.1 (Nat.not_le_of_lt h)⟩
  · next h =>
    rw [Except.ok.injEq, Prod.mk.injEq]
    exact ⟨fun ⟨hi, hn⟩ => ⟨Nat.le_of_not_lt h, hn, hi⟩, fun ⟨_, hn, hi⟩ => ⟨hi, hn⟩⟩

theorem decode_of_selects {t : Byte} {d : List Byte} {i : Instr} {n : Nat} (h : opLen t = n ∧ opOf t d = i)
    (hlen : n ≤ d.length + 1) : decode (t :: d) = .ok (i, n) :=
  decode_cons_eq_ok.2 ⟨h.1 ▸ hlen, h⟩

section
variable {t : Byte}

theorem decode_indexRange (h : t.toNat ≤ 0x3F) (d : List Byte) :
    decode (t :: d) = .ok (.index (t.extractLsb' 0 6).toFin, 1) :=
  decode_of_selects (indexRange_selects h d) (by omega)

theorem decode_diffRange (h : 0x40 ≤ t.toNat ∧ t.toNat ≤ 0x7F) (d : List Byte) :
    decode (t :: d) = .ok (.diff (biased t 4 2 2) (biased t 2 2 2) (biased t 0 2 2), 1) :=
  decode_of_selects (diffRange_selects h d) (by omega)

theorem decode_lumaRange (h : 0x80 ≤ t.toNat ∧ t.toNat ≤ 0xBF) (x : Byte) (d : List Byte) :
    decode (t :: x :: d) = .ok (.luma (biased t 0 6 32) (biased x 4 4 8) (biased x 0 4 8), 2) :=
  decode_of_selects (lumaRange_selects h (x :: d)) (by simp)

theorem decode_runRange (h : 0xC0 ≤ t.toNat ∧ t.toNat ≤ 0xFD) (d : List Byte) :
    decode (t :: d) = .ok (.run (zextField t 0 6 + 1), 1) :=
  decode_of_selects (runRange_selects h d) (by omega)

end

theorem decode_rgb (r g b : Byte) (d : List Byte) : decode (0xFE#8 :: r :: g :: b :: d) = .ok (.rgb r g b, 4) :=
  decode_of_selects ⟨rfl, rfl⟩ (by simp)

theorem decode_rgba (r g b a : Byte) (d : List Byte) :
    decode (0xFF#8 :: r :: g :: b :: a :: d) = .ok (.rgba r g b a, 5) :=
  decode_of_selects ⟨rfl, rfl⟩ (by simp)

/-! ### Decode after encode -/

theorem decode_encode_index (i : Fin 64) (rest : List Byte) :
    decode (encode (.index i) ++ rest) = .ok (.index i, 1) := by
  have htag : (BitVec.ofNat 8 i.val).toNat = i.val := by
    rw [BitVec.toNat_ofNat]
    omega
  have hslot : ((BitVec.ofNat 8 i.val).extractLsb' 0 6).toFin = i := by
    apply Fin.ext
    rw [BitVec.val_toFin, BitVec.extractLsb'_toNat, htag]
    simp only [Nat.shiftRight_zero]
    omega
  rw [encode, List.singleton_append, decode_indexRange (by omega), hslot]

theorem decode_encode_diff {dr dg db : Int} (h : (Instr.diff dr dg db).wf = true) (rest : List Byte) :
    decode (encode (.diff dr dg db) ++ rest) = .ok (.diff dr dg db, 1) := by
  have htag := toNat_diffTag h
  obtain ⟨hr, hg, hb⟩ := Instr.wf_diff.1 h
  rw [encode, List.singleton_append, decode_diffRange (by omega)]
  simp only [biased_eq, htag, Except.ok.injEq, Prod.mk.injEq, Instr.diff.injEq, and_true]
  omega

theorem decode_encode_luma {dg drg dbg : Int} (h : (Instr.luma dg drg dbg).wf = true) (rest : List Byte) :
    decode (encode (.luma dg drg dbg) ++ rest) = .ok (.luma dg drg dbg, 2) := by
  obtain ⟨hg, hr, hb⟩ := Instr.wf_luma.1 h
  have htag := toNat_lumaTag hg
  have hdata := toNat_lumaData hr hb
  rw [encode, List.cons_append, List.singleton_append, decode_lumaRange (by omega)]
  simp only [biased_eq, htag, hdata, Except.ok.injEq, Prod.mk.injEq, Instr.luma.injEq, and_true]
  omega

theorem decode_encode_run {len : Nat} (h : (Instr.run len).wf = true) (rest : List Byte) :
    decode (encode (.run len) ++ rest) = .ok (.run len, 1) := by
  have htag := toNat_runTag h
  obtain ⟨hlo, hhi⟩ := Instr.wf_run.1 h
  rw [encode, List.singleton_append, decode_runRange (by omega)]
  simp only [zextField_eq, htag, Except.ok.injEq, Prod.mk.injEq, Instr.run.injEq, and_true]
  omega

/-- Settles O1: each opcode's tag lies in its own range, and the fields read back there are its operands. -/
theorem decodeOfEncodeIsTheOpcode : Obligations.DecodeOfEncodeIsTheOpcode := by
  intro i rest h
  cases i with
  | index i => exact decode_encode_index i rest
  | diff dr dg db => exact decode_encode_diff h rest
  | luma dg drg dbg => exact decode_encode_luma h rest
  | run len => exact decode_encode_run h rest
  | rgb r g b => exact decode_rgb r g b rest
  | rgba r g b a => exact decode_rgba r g b a rest

/-! ### Encode after decode -/

section
variable {t : Byte}

theorem encode_index_fields (h : t.toNat ≤ 0x3F) : encode (.index (t.extractLsb' 0 6).toFin) = [t] := by
  have htag : BitVec.ofNat 8 (t.extractLsb' 0 6).toNat = t := by
    apply BitVec.eq_of_toNat_eq
    rw [BitVec.toNat_ofNat, BitVec.extractLsb'_toNat, Nat.shiftRight_zero]
    omega
  exact congrArg (fun b => [b]) htag

theorem wf_diff_fields : (Instr.diff (biased t 4 2 2) (biased t 2 2 2) (biased t 0 2 2)).wf = true := by
  simp only [Instr.wf_diff, biased_eq]
  omega

theorem encode_diff_fields (h : 0x40 ≤ t.toNat ∧ t.toNat ≤ 0x7F) :
    encode (.diff (biased t 4 2 2) (biased t 2 2 2) (biased t 0 2 2)) = [t] := by
  rw [encode, List.singleton_inj, ← BitVec.toNat_inj, toNat_diffTag wf_diff_fields]
  simp only [biased_eq]
  omega

theorem wf_luma_fields {x : Byte} : (Instr.luma (biased t 0 6 32) (biased x 4 4 8) (biased x 0 4 8)).wf = true := by
  simp only [Instr.wf_luma, biased_eq]
  omega

theorem encode_luma_fields (h : 0x80 ≤ t.toNat ∧ t.toNat ≤ 0xBF) (x : Byte) :
    encode (.luma (biased t 0 6 32) (biased x 4 4 8) (biased x 0 4 8)) = [t, x] := by
  obtain ⟨hg, hr, hb⟩ := Instr.wf_luma.1 (wf_luma_fields (t := t) (x := x))
  have hx := x.isLt
  rw [encode, List.cons.injEq, List.singleton_inj, ← BitVec.toNat_inj, ← BitVec.toNat_inj,
    toNat_lumaTag hg, toNat_lumaData hr hb]
  simp only [biased_eq]
  omega

theorem wf_run_fields (h : 0xC0 ≤ t.toNat ∧ t.toNat ≤ 0xFD) : (Instr.run (zextField t 0 6 + 1)).wf = true := by
  simp only [Instr.wf_run, zextField_eq]
  omega

theorem encode_run_fields (h : 0xC0 ≤ t.toNat ∧ t.toNat ≤ 0xFD) : encode (.run (zextField t 0 6 + 1)) = [t] := by
  rw [encode, List.singleton_inj, ← BitVec.toNat_inj, toNat_runTag (wf_run_fields h), zextField_eq]
  omega

end

/-- Settles O2: range by range of the tag byte, the fields read are in range and rebuild the bytes they were read from. -/
theorem encodeOfDecodeIsTheBytes : Obligations.EncodeOfDecodeIsTheBytes := by
  intro bs i n h
  cases bs with
  | nil => cases h
  | cons t d =>
    obtain ⟨hlen, hn, hi⟩ := decode_cons_eq_ok.1 h
    suffices hs : WellFormed (opOf t d) ∧ encode (opOf t d) = (t :: d).take (opLen t) from
      hn ▸ hi ▸ ⟨hs.1, hlen, hs.2⟩
    rcases tag_cases t with ht | ht | ht | ht | rfl | rfl
    · obtain ⟨e₁, e₂⟩ := indexRange_selects ht d
      rw [e₁, e₂]
      exact ⟨rfl, encode_index_fields ht⟩
    · obtain ⟨e₁, e₂⟩ := diffRange_selects ht d
      rw [e₁, e₂]
      exact ⟨wf_diff_fields, encode_diff_fields ht⟩
    · obtain ⟨e₁, e₂⟩ := lumaRange_selects ht d
      obtain ⟨x, d', rfl⟩ : ∃ x d', d = x :: d' := List.exists_cons_of_length_pos (by omega)
      rw [e₁, e₂]
      exact ⟨wf_luma_fields, encode_luma_fields ht x⟩
    · obtain ⟨e₁, e₂⟩ := runRange_selects ht d
      rw [e₁, e₂]
      exact ⟨wf_run_fields ht, encode_run_fields ht⟩
    · match d, hlen with
      | r :: g :: b :: d', _ => exact ⟨rfl, rfl⟩
    · match d, hlen with
      | r :: g :: b :: a :: d', _ => exact ⟨rfl, rfl⟩

/-! ### The tag byte -/

/-- Settles O3: the decoder's answer in each range, with its operands. -/
theorem tagByteSelectsOpcodeAndLength : Obligations.TagByteSelectsOpcodeAndLength := by
  intro t d hd
  match d, hd with
  | w :: x :: y :: z :: d, _ =>
    refine ⟨fun h => ⟨_, decode_indexRange h _⟩, fun h => ⟨_, _, _, decode_diffRange h _⟩,
      fun h => ⟨_, _, _, decode_lumaRange h w _⟩, fun h => ⟨_, decode_runRange h _⟩, fun h => ?_, fun h => ?_⟩
    · obtain rfl : t = 0xFE#8 := BitVec.eq_of_toNat_eq h
      exact ⟨w, x, y, decode_rgb w x y _⟩
    · obtain rfl : t = 0xFF#8 := BitVec.eq_of_toNat_eq h
      exact ⟨w, x, y, z, decode_rgba w x y z _⟩

/-- Settles O4: each word decodes by its own range's rule, with the operands read from its bits. -/
theorem sampleBytesDecode : Obligations.SampleBytesDecode :=
  ⟨decode_indexRange (by decide) _, decode_diffRange (by decide) _, decode_lumaRange (by decide) _ _,
    decode_runRange (by decide) _, decode_rgb _ _ _ _, decode_rgba _ _ _ _ _⟩

end Sys2Proof

/-! ## The pixel model (40_pixel_model) -/

namespace Sys2Proof.Machine

/-- Settles O22: equality in each channel mode, as the pixel lemmas state it. -/
theorem pixelEqualityByChannels : Obligations.PixelEqualityByChannels :=
  ⟨fun _ _ => Pixel.eqIn_four, fun _ _ => Pixel.eqIn_three⟩

/-- Settles O23: a pixel's hash is its slot number, which each channel mode computes with its own alpha. -/
theorem hashOfAPixel : Obligations.HashOfAPixel :=
  fun p => ⟨Pixel.hash_val .four p, Pixel.hash_val .three p⟩

end Sys2Proof.Machine

/-! ## The header commands (41_header_codec) -/

namespace Sys2Proof

theorem toNat_append_byte {n : Nat} (x : BitVec n) (b : Byte) : (x ++ b).toNat = x.toNat * 2 ^ 8 + b.toNat := by
  rw [BitVec.toNat_append, ← Nat.shiftLeft_add_eq_or_of_lt b.isLt, Nat.shiftLeft_eq]

/-- The value of a big-endian integer (00_scope R9). -/
theorem toNat_u32be (a b c d : Byte) :
    (u32be a b c d).toNat = a.toNat * 2 ^ 24 + b.toNat * 2 ^ 16 + c.toNat * 2 ^ 8 + d.toNat := by
  simp only [u32be, toNat_append_byte]
  omega

/-- The bytes of a big-endian integer, as quotients of its value (20_memory R53). -/
theorem be32_eq (v : Word32) :
    be32 v = [BitVec.ofNat 8 (v.toNat / 2 ^ 24), BitVec.ofNat 8 (v.toNat / 2 ^ 16), BitVec.ofNat 8 (v.toNat / 2 ^ 8),
      BitVec.ofNat 8 v.toNat] := by
  simp only [be32, BitVec.extractLsb', Nat.shiftRight_eq_div_pow, Nat.pow_zero, Nat.div_one]

/-- Reading back the four bytes of `be32`. -/
theorem u32be_be32 (v : Word32) :
    u32be (v.extractLsb' 24 8) (v.extractLsb' 16 8) (v.extractLsb' 8 8) (v.extractLsb' 0 8) = v := by
  apply BitVec.eq_of_toNat_eq
  have hv := v.isLt
  simp only [toNat_u32be, BitVec.extractLsb'_toNat, Nat.shiftRight_eq_div_pow]
  omega

end Sys2Proof

namespace Sys2Proof.Machine

/-! ### The legal field values (10_state R24) -/

theorem Channels.ofNat?_bytes (c : Channels) : Channels.ofNat? c.bytes = some c := by cases c <;> rfl

theorem ColorSpace.ofNat?_toNat (k : ColorSpace) : ColorSpace.ofNat? k.toNat = some k := by cases k <;> rfl

theorem Channels.exists_bytes_eq {n : Nat} : (∃ c : Channels, c.bytes = n) ↔ n = 3 ∨ n = 4 := by
  constructor
  · rintro ⟨_ | _, rfl⟩
    · exact .inl rfl
    · exact .inr rfl
  · rintro (rfl | rfl)
    · exact ⟨.three, rfl⟩
    · exact ⟨.four, rfl⟩

theorem ColorSpace.exists_toNat_eq {n : Nat} : (∃ k : ColorSpace, k.toNat = n) ↔ n = 0 ∨ n = 1 := by
  constructor
  · rintro ⟨_ | _, rfl⟩
    · exact .inl rfl
    · exact .inr rfl
  · rintro (rfl | rfl)
    · exact ⟨.zero, rfl⟩
    · exact ⟨.one, rfl⟩

theorem Channels.ofNat?_eq_none {n : Nat} (h : ¬ (n = 3 ∨ n = 4)) : Channels.ofNat? n = none :=
  Option.not_isSome_iff_eq_none.1 (mt Channels.isSome_ofNat?.1 h)

theorem ColorSpace.ofNat?_eq_none {n : Nat} (h : ¬ (n = 0 ∨ n = 1)) : ColorSpace.ofNat? n = none :=
  Option.not_isSome_iff_eq_none.1 (mt ColorSpace.isSome_ofNat?.1 h)

/-! ### Parsing a header, fault by fault in the order of R144 -/

section
variable {len : Nat} {bs : List Byte}

theorem parseHeader_short (h : len < 14) : parseHeader len bs = .error .notEnoughData := if_pos h

theorem parseHeader_badMagic (hlen : 14 ≤ len) (h : bs.take 4 ≠ magic) : parseHeader len bs = .error .invalidMagic := by
  rw [parseHeader, hdrLen, if_neg (Nat.not_lt.2 hlen), if_pos h]

theorem parseHeader_badChannels (hlen : 14 ≤ len) (hm : bs.take 4 = magic)
    (h : Channels.ofNat? (bs.getD 12 0).toNat = none) : parseHeader len bs = .error .invalidChannelsValue := by
  rw [parseHeader, hdrLen, if_neg (Nat.not_lt.2 hlen), if_neg (not_not.2 hm), h]

theorem parseHeader_badColorSpace {c : Channels} (hlen : 14 ≤ len) (hm : bs.take 4 = magic)
    (hc : Channels.ofNat? (bs.getD 12 0).toNat = some c) (h : ColorSpace.ofNat? (bs.getD 13 0).toNat = none) :
    parseHeader len bs = .error .invalidColorSpaceValue := by
  rw [parseHeader, hdrLen, if_neg (Nat.not_lt.2 hlen), if_neg (not_not.2 hm), hc, h]

theorem parseHeader_ok {c : Channels} {k : ColorSpace} (hlen : 14 ≤ len) (hm : bs.take 4 = magic)
    (hc : Channels.ofNat? (bs.getD 12 0).toNat = some c) (hk : ColorSpace.ofNat? (bs.getD 13 0).toNat = some k) :
    parseHeader len bs = .ok
      { w := u32be (bs.getD 4 0) (bs.getD 5 0) (bs.getD 6 0) (bs.getD 7 0)
        h := u32be (bs.getD 8 0) (bs.getD 9 0) (bs.getD 10 0) (bs.getD 11 0)
        ch := c
        cs := k } := by
  rw [parseHeader, hdrLen, if_neg (Nat.not_lt.2 hlen), if_neg (not_not.2 hm), hc, hk]

end

/-- Parsing the bytes of a header gives the header back. -/
theorem parseHeader_toBytes {len : Nat} (hlen : 14 ≤ len) (h : Header) : parseHeader len h.toBytes = .ok h := by
  obtain ⟨w, ht, c, k⟩ := h
  have hc : Channels.ofNat? (BitVec.ofNat 8 c.bytes).toNat = some c := by cases c <;> rfl
  have hk : ColorSpace.ofNat? (BitVec.ofNat 8 k.toNat).toNat = some k := by cases k <;> rfl
  refine (parseHeader_ok (bs := Header.toBytes ⟨w, ht, c, k⟩) hlen rfl hc hk).trans ?_
  exact congrArg₂ (fun w ht => Except.ok (Header.mk w ht c k)) (u32be_be32 w) (u32be_be32 ht)

/-- The first four bytes of a buffer are the magic exactly when each is its character of "qoif". -/
theorem take_readBytes_eq_magic {m : Memory} {a : Nat} :
    (m.readBytes a 14).take 4 = magic ↔
      (m.read (a + 0)).toNat = 0x71 ∧ (m.read (a + 1)).toNat = 0x6F ∧ (m.read (a + 2)).toNat = 0x69 ∧
        (m.read (a + 3)).toNat = 0x66 := by
  simp [Memory.readBytes, magic, BitVec.toNat_eq]

/-- The value of the four bytes of a buffer from offset `j` on, big-endian. -/
theorem Memory.toNat_u32be_readBytes {m : Memory} {a n j : Nat} (h : j + 3 < n) :
    (u32be ((m.readBytes a n).getD j 0) ((m.readBytes a n).getD (j + 1) 0) ((m.readBytes a n).getD (j + 2) 0)
      ((m.readBytes a n).getD (j + 3) 0)).toNat =
      (m.read (a + j)).toNat * 2 ^ 24 + (m.read (a + (j + 1))).toNat * 2 ^ 16 + (m.read (a + (j + 2))).toNat * 2 ^ 8 +
        (m.read (a + (j + 3))).toNat := by
  rw [toNat_u32be, Memory.getD_readBytes _ _ _ j (by omega), Memory.getD_readBytes _ _ _ (j + 1) (by omega),
    Memory.getD_readBytes _ _ _ (j + 2) (by omega), Memory.getD_readBytes _ _ _ (j + 3) h]

/-! ### What each header command answers -/

theorem issue_setHeader {s : State} (w h : Word32) (c : Channels) (k : ColorSpace) (hd : s.dir = .none) :
    issue (.setHeader w h c.bytes k.toNat) s =
      .next { s.loadHeader ⟨w, h, c, k⟩ with launch := Launch.idle, reply := .done } := by
  have hacc : Accepted (.setHeader w h c.bytes k.toNat) s :=
    ⟨⟨hd, Channels.exists_bytes_eq.1 ⟨c, rfl⟩, ColorSpace.exists_toNat_eq.1 ⟨k, rfl⟩⟩, trivial⟩
  rw [issue_accepted hacc, perform, setHeader, Channels.ofNat?_bytes, ColorSpace.ofNat?_toNat]
  rfl

theorem issue_hdrEnc {s : State} {out : Region} (hacc : Accepted (.hdrEnc out) s) (hlen : 14 ≤ out.len) :
    issue (.hdrEnc out) s = .next { s with
      mem := s.mem.writeBytes out.base s.cfg.toBytes
      status := .ok
      launch := Launch.idle
      reply := .count 14 } := by
  rcases hdrEnc_cases s out with ⟨-, t, ht, hsame, hstream, hmem⟩ | ⟨hlt, -⟩
  · rw [issue_accepted hacc, perform, countReply_eq_ok.2 ht, conclude]
    simp only [hsame.cfg, hsame.cfgValid, hsame.dir, hsame.status, hsame.pending, hsame.params, hsame.draw, hstream, hmem]
  · omega

theorem issue_hdrEnc_short {s : State} {out : Region} (hacc : Accepted (.hdrEnc out) s) (hlen : out.len < 14) :
    issue (.hdrEnc out) s = .next (raiseError .outputIsTooSmallE (some out) s) := by
  rcases hdrEnc_cases s out with ⟨hle, -⟩ | ⟨-, he⟩
  · omega
  · rw [issue_accepted hacc, perform, he]
    rfl

theorem issue_hdrDec {s : State} {inp : Region} {h : Header} (hacc : Accepted (.hdrDec inp) s)
    (hp : parseHeader inp.len (s.mem.readBytes inp.base 14) = .ok h) :
    issue (.hdrDec inp) s = .next { s.loadHeader h with launch := Launch.idle, reply := .header h } := by
  rw [issue_accepted hacc, perform, hdrDec, hdrLen, hp]
  rfl

/-- A header fault: HDR_DEC has no output buffer, so `raise` leaves everything but `STATUS` (60_exceptions R330). -/
theorem issue_hdrDec_fault {s : State} {inp : Region} {e : ErrorCode} (hacc : Accepted (.hdrDec inp) s)
    (hidle : s.launch = Launch.idle) (hp : parseHeader inp.len (s.mem.readBytes inp.base 14) = .error e) :
    issue (.hdrDec inp) s = .next { s with status := .error e, reply := .error e } := by
  have hd : s.dir = .none := hacc.1
  rw [issue_accepted hacc, perform, hdrDec, hdrLen, hp]
  simp only [headerReply, Except.map, conclude, Command.written, raiseError, ← hd, ← hidle]

/-! ### The obligations -/

/-- Settles O34: the room for the header decides between its bytes and the error. -/
theorem hdrEncWritesFourteenBytes : Obligations.HdrEncWritesFourteenBytes := by
  intro s out
  refine ⟨issue_refused, fun hacc => ⟨fun hlen => ?_, fun hlen => ?_⟩⟩
  · exact ⟨_, issue_hdrEnc_short hacc hlen, rfl, rfl⟩
  · refine ⟨_, issue_hdrEnc hacc hlen, rfl, rfl, ?_, fun a ha => ?_, rfl, rfl, rfl, rfl⟩
    · refine (Memory.readBytes_writeBytes s.mem out.base s.cfg.toBytes).trans ?_
      simp [Header.toBytes, headerLayout, magic, be32_eq]
    · exact Memory.read_writeBytes_outside _ _ _ _ ha

/-- Settles O35: the four faults are the ways of `parseHeader` to fail, in its order; the bytes read are those of memory. -/
theorem hdrDecParsesOrRaisesInOrder : Obligations.HdrDecParsesOrRaisesInOrder := by
  intro s inp
  refine ⟨issue_refused, fun hacc hidle => ?_⟩
  intro byte failsWith badMagic badChannels badColour
  have hbyte (j : Nat) (hj : j < 14) : ((s.mem.readBytes inp.base 14).getD j 0).toNat = byte j :=
    congrArg BitVec.toNat (Memory.getD_readBytes s.mem inp.base 14 j hj)
  have hmagic (h : ¬ badMagic) : (s.mem.readBytes inp.base 14).take 4 = magic := take_readBytes_eq_magic.2 (not_not.1 h)
  refine ⟨fun hlen => ?_, fun hlen hm => ?_, fun hlen hm hch => ?_, fun hlen hm hch hcs => ?_, fun hlen hm hch hcs => ?_⟩
  · exact issue_hdrDec_fault hacc hidle (parseHeader_short hlen)
  · exact issue_hdrDec_fault hacc hidle (parseHeader_badMagic hlen (mt take_readBytes_eq_magic.1 hm))
  · refine issue_hdrDec_fault hacc hidle (parseHeader_badChannels hlen (hmagic hm) ?_)
    rw [hbyte 12 (by decide)]
    exact Channels.ofNat?_eq_none hch
  · obtain ⟨c, hc⟩ := Channels.exists_bytes_eq.2 (not_not.1 hch)
    refine issue_hdrDec_fault hacc hidle (parseHeader_badColorSpace (c := c) hlen (hmagic hm) ?_ ?_)
    · rw [hbyte 12 (by decide), ← hc, Channels.ofNat?_bytes]
    · rw [hbyte 13 (by decide)]
      exact ColorSpace.ofNat?_eq_none hcs
  · obtain ⟨c, hc⟩ := Channels.exists_bytes_eq.2 (not_not.1 hch)
    obtain ⟨k, hk⟩ := ColorSpace.exists_toNat_eq.2 (not_not.1 hcs)
    have hp := parseHeader_ok (c := c) (k := k) hlen (hmagic hm)
      (by rw [hbyte 12 (by decide), ← hc, Channels.ofNat?_bytes])
      (by rw [hbyte 13 (by decide), ← hk, ColorSpace.ofNat?_toNat])
    have hnext := issue_hdrDec hacc hp
    rw [← hidle] at hnext
    exact ⟨_, hnext, Memory.toNat_u32be_readBytes (j := 4) (by decide), Memory.toNat_u32be_readBytes (j := 8) (by decide), hc, hk⟩

/-- Settles O36: HDR_ENC stores the bytes of the header just set, and parsing them gives it back. -/
theorem headerRoundTrip : Obligations.HeaderRoundTrip := by
  intro s w h ch cs buf hd hch hcs hlen hout hin
  obtain ⟨c, rfl⟩ := Channels.exists_bytes_eq.2 hch
  obtain ⟨k, rfl⟩ := ColorSpace.exists_toNat_eq.2 hcs
  have hstored := Memory.readBytes_writeBytes s.mem buf.base (Header.toBytes ⟨w, h, c, k⟩)
  refine ⟨_, _, _, issue_setHeader w h c k hd, issue_hdrEnc ⟨⟨rfl, hd⟩, hout⟩ hlen,
    issue_hdrDec (h := ⟨w, h, c, k⟩) ⟨hd, hin⟩ ?_, rfl, rfl, rfl, rfl, rfl⟩
  exact (congrArg (parseHeader buf.len) hstored).trans (parseHeader_toBytes hlen _)

/-- Settles O33: SET_HEADER is accepted exactly with no stream open and legal fields, and loads the header they make. -/
theorem setHeaderLoadsCfg : Obligations.SetHeaderLoadsCfg := by
  intro w h ch cs s
  refine ⟨fun hd hch hcs => ?_, fun hn => issue_refused fun hacc => hn hacc.1⟩
  obtain ⟨c, rfl⟩ := Channels.exists_bytes_eq.2 hch
  obtain ⟨k, rfl⟩ := ColorSpace.exists_toNat_eq.2 hcs
  exact ⟨_, issue_setHeader w h c k hd, rfl, rfl, rfl, rfl, rfl, rfl, rfl, rfl, rfl, rfl, rfl, rfl, rfl⟩

/-- Settles O37: both commands' pseudocode is the unchanged state and a reply. -/
theorem readCommandsWriteNothing : Obligations.ReadCommandsWriteNothing := by
  refine ⟨fun s hv => issue_accepted ⟨hv, trivial⟩, fun s hv => ?_, fun s => issue_accepted ⟨trivial, trivial⟩⟩
  exact issue_refused fun ⟨hrow, _⟩ => Bool.false_ne_true (hv.symm.trans hrow)

end Sys2Proof.Machine

/-! ## The delta classifier (42_delta_classifier) -/

namespace Sys2Proof

/-- A biased field holds a byte exactly when the byte, read as signed, lies between minus the bias and `hi`. -/
theorem toNat_add_bias_le_iff (v : Byte) {bias hi : Nat} (hb : bias ≤ 128) (hhi : hi < 128) :
    (v + BitVec.ofNat 8 bias).toNat ≤ bias + hi ↔ -(bias : Int) ≤ v.toInt ∧ v.toInt ≤ hi := by
  have hv := v.isLt
  rw [BitVec.toNat_add, BitVec.toNat_ofNat, BitVec.toInt_eq_toNat_cond]
  split <;> omega

/-- The field of a byte read as signed is the byte plus the bias, modulo 256. -/
theorem biasField_toInt (v : Byte) (bias lo : Nat) : biasField v.toInt bias lo = (v + BitVec.ofNat 8 bias) <<< lo := by
  rw [biasField, BitVec.ofInt_add, BitVec.ofInt_toInt, BitVec.ofInt_natCast]

end Sys2Proof

namespace Sys2Proof.Machine

/-! ### The fit tests -/

section
variable {v : Delta}

/-- DIFF fits exactly when the signed deltas are operands of the opcode DIFF (R173). -/
theorem Delta.diffFits_iff_wf : v.diffFits = true ↔ (Instr.diff v.vr.toInt v.vg.toInt v.vb.toInt).wf = true := by
  have hfield (x : Byte) : (x + 2).toNat ≤ 3 ↔ -2 ≤ x.toInt ∧ x.toInt ≤ 1 :=
    toNat_add_bias_le_iff x (bias := 2) (hi := 1) (by decide) (by decide)
  simp only [Delta.diffFits, Bool.and_eq_true, decide_eq_true_eq, hfield, Instr.wf_diff, and_assoc]

/-- LUMA fits exactly when the signed green delta and the relative red and blue ones are operands of the opcode LUMA (R175). -/
theorem Delta.lumaFits_iff_wf :
    v.lumaFits = true ↔ (Instr.luma v.vg.toInt (v.vr - v.vg).toInt (v.vb - v.vg).toInt).wf = true := by
  have hgreen (x : Byte) : (x + 32).toNat ≤ 63 ↔ -32 ≤ x.toInt ∧ x.toInt ≤ 31 :=
    toNat_add_bias_le_iff x (bias := 32) (hi := 31) (by decide) (by decide)
  have hrel (x : Byte) : (x + 8).toNat ≤ 15 ↔ -8 ≤ x.toInt ∧ x.toInt ≤ 7 :=
    toNat_add_bias_le_iff x (bias := 8) (hi := 7) (by decide) (by decide)
  simp only [Delta.lumaFits, Bool.and_eq_true, decide_eq_true_eq, hgreen, hrel, Instr.wf_luma, and_assoc]

end

/-- Settles O24: the ranges are those of the operands of DIFF and LUMA. -/
theorem fitTestsAsSignedRanges : Obligations.FitTestsAsSignedRanges :=
  fun _ => ⟨Delta.diffFits_iff_wf.trans Instr.wf_diff, Delta.lumaFits_iff_wf.trans Instr.wf_luma⟩

/-! ### The bytes emitted are those of an opcode -/

theorem Delta.diffByte_eq_encode (v : Delta) : [v.diffByte] = encode (.diff v.vr.toInt v.vg.toInt v.vb.toInt) := by
  simp only [Delta.diffByte, encode, biasField_toInt, BitVec.shiftLeft_zero]
  rfl

theorem Delta.lumaBytes_eq_encode (v : Delta) :
    v.lumaBytes = encode (.luma v.vg.toInt (v.vr - v.vg).toInt (v.vb - v.vg).toInt) := by
  simp only [Delta.lumaBytes, encode, biasField_toInt, BitVec.shiftLeft_zero]
  rfl

/-! ### The pixel decoded -/

section
variable (p px : Pixel)

/-- The decoder adds modulo 256 the residues the encoder took. -/
theorem Pixel.addRgb_var :
    p.addRgb (px.var p).vr.toInt (px.var p).vg.toInt (px.var p).vb.toInt = p.setRgb px.r px.g px.b := by
  simp only [Pixel.addRgb, Pixel.setRgb, Pixel.var, BitVec.ofInt_toInt, add_sub_cancel]

/-- The same for LUMA, whose red and blue deltas are relative to the green one. -/
theorem Pixel.addRgb_relative_var :
    p.addRgb ((px.var p).vg.toInt + ((px.var p).vr - (px.var p).vg).toInt) (px.var p).vg.toInt
      ((px.var p).vg.toInt + ((px.var p).vb - (px.var p).vg).toInt) = p.setRgb px.r px.g px.b := by
  rw [← Pixel.addRgb_var]
  simp only [Pixel.addRgb, BitVec.ofInt_add, BitVec.ofInt_toInt, add_sub_cancel]

/-- An opcode that carries no alpha serves where none is tracked or the alpha stays (R177). -/
theorem Pixel.setRgb_eq_setRgba {ch : Channels} (h : ¬ (ch = .four ∧ px.a ≠ p.a)) :
    p.setRgb px.r px.g px.b = p.setRgba ch px.r px.g px.b px.a := by
  cases ch with
  | three => rfl
  | four =>
    have ha : px.a = p.a := by simpa using h
    rw [Pixel.setRgb, ← ha, Pixel.setRgba]

theorem Pixel.setRgba_eqIn (ch : Channels) : (p.setRgba ch px.r px.g px.b px.a).eqIn ch px = true := by
  cases ch <;> simp [Pixel.setRgba, Pixel.eqIn]

end

/-- Where an opcode that outputs `px` as a pixel of its own leads: `px` is stored, is `PREV`, and stands in the slot of its hash. -/
def State.afterAccept (s : State) (px : Pixel) : State := s.afterPixel px (s.stream.accept s.cfg.ch px)

theorem produce_accept {s : State} {p q : Pixel} (h : RoomForPixel s) (hq : p = q) :
    produce p (s.stream.accept s.cfg.ch p) s = .next (s.afterAccept q) :=
  hq ▸ produce_eq_next.2 ⟨roomForPixel_iff.1 h, rfl⟩

/-- The ladder of R170: whichever step fires, the bytes are those of a well-formed opcode that outputs the pixel classified, with the
alpha of `PREV` where none is tracked. -/
theorem classify_runs {s : State} (px : Pixel) (h : RoomForPixel s) :
    ∃ i, WellFormed i ∧ classify s.cfg.ch px s.stream.prev = encode i ∧
      exec i s = .next (s.afterAccept (s.stream.prev.setRgba s.cfg.ch px.r px.g px.b px.a)) := by
  unfold classify
  split
  · exact ⟨.rgba px.r px.g px.b px.a, rfl, rfl, produce_accept h rfl⟩
  next halpha =>
  have hrgb := Pixel.setRgb_eq_setRgba s.stream.prev px halpha
  split
  · next hdiff =>
    exact ⟨_, Delta.diffFits_iff_wf.1 hdiff, Delta.diffByte_eq_encode _,
      produce_accept h ((Pixel.addRgb_var ..).trans hrgb)⟩
  split
  · next hluma =>
    exact ⟨_, Delta.lumaFits_iff_wf.1 hluma, Delta.lumaBytes_eq_encode _,
      produce_accept h ((Pixel.addRgb_relative_var ..).trans hrgb)⟩
  · exact ⟨.rgb px.r px.g px.b, rfl, rfl, produce_accept h hrgb⟩

/-- Settles O25: the bytes of CLASSIFY are those of an opcode that outputs the pixel, and decoding reads that opcode back. -/
theorem classifierIsSound : Obligations.ClassifierIsSound := by
  intro s px hroom
  obtain ⟨i, hwf, hbytes, hrun⟩ := classify_runs px hroom
  have hdecode := decodeOfEncodeIsTheOpcode i [] hwf
  rw [List.append_nil] at hdecode
  exact ⟨i, _, hbytes ▸ hdecode, hrun, Pixel.setRgba_eqIn ..⟩

end Sys2Proof.Machine

/-! ## The encoder's lookup (43_cache_index) -/

namespace Sys2Proof.Machine

/-! ### The lanes the decoder takes from `PREV` -/

section
variable {ch : Channels} {p px : Pixel} (halpha : ch = .three → px.a = p.a)
include halpha

/-- A slot that hits gives the pixel looked up, where its alpha is that of `PREV` if none is tracked. -/
theorem Pixel.fromSlot_eq_of_alpha {c : Pixel} (h : c.eqIn ch px = true) : Pixel.fromSlot ch p c = px := by
  rw [← Pixel.fromSlot_eq h]
  cases ch with
  | three => simp only [Pixel.fromSlot, halpha rfl]
  | four => rfl

/-- The lanes of a pixel set over `PREV` give that pixel, under the same condition. -/
theorem Pixel.setRgba_eq_of_alpha : p.setRgba ch px.r px.g px.b px.a = px := by
  cases ch with
  | three => simp only [Pixel.setRgba, ← halpha rfl]
  | four => rfl

end

/-! ### One pixel that is no run -/

/-- Whether the lookup hits or misses, the bytes are those of a well-formed opcode with which a decoder of the same cache and `PREV`
stores the pixel and takes over the encoder's new cache and `PREV`. -/
theorem encFresh_runs {s : State} {e : StreamState} {px : Pixel} (hroom : RoomForPixel s) (hcache : e.cache = s.stream.cache)
    (hprev : e.prev = s.stream.prev) (halpha : s.cfg.ch = .three → px.a = s.stream.prev.a) :
    ∃ i, WellFormed i ∧ (encFresh s.cfg.ch px e).2 = encode i ∧
      exec i s = .next (s.afterPixel px { s.stream with cache := (encFresh s.cfg.ch px e).1.cache, prev := px }) := by
  unfold encFresh
  split
  · next hhit =>
    rw [StreamState.hits, hcache] at hhit
    refine ⟨.index (px.hash s.cfg.ch), rfl, rfl, produce_eq_next.2 ⟨roomForPixel_iff.1 hroom, ?_⟩⟩
    rw [Pixel.fromSlot_eq_of_alpha halpha hhit, hcache]
    rfl
  · obtain ⟨i, hwf, hbytes, hrun⟩ := classify_runs px hroom
    refine ⟨i, hwf, hprev ▸ hbytes, hrun.trans ?_⟩
    rw [Pixel.setRgba_eq_of_alpha halpha, StreamState.store_cache, hcache]
    rfl

/-- Settles O26: the bytes decode to that opcode, a hit to INDEX and a miss to what the ladder chose. -/
theorem freshPixelKeepsDecoderInStep : Obligations.FreshPixelKeepsDecoderInStep := by
  intro s e px hroom hcache hprev hopaque
  have halpha (hch : s.cfg.ch = .three) : px.a = s.stream.prev.a := by
    obtain ⟨hpx, hp⟩ := hopaque hch
    rw [hpx, ← hprev, hp]
  obtain ⟨i, hwf, hbytes, hrun⟩ := encFresh_runs hroom hcache hprev halpha
  have hdecode := decodeOfEncodeIsTheOpcode i [] hwf
  rw [List.append_nil] at hdecode
  exact ⟨i, _, hbytes ▸ hdecode, hrun, rfl, (encFresh_prev ..).symm, rfl⟩

end Sys2Proof.Machine

/-! ## Windows and chunks (44_run_length R227, R229) -/

namespace Sys2Proof.Machine

/-! ### A chunk as part of a longer command -/

/-- `v`, a state of a chunk's command, seen as the state of a longer command that stands at `w` where the chunk begins: the buffers are
the longer command's, and each cursor counts on from where `w` has it. -/
def State.asPartOf (v w : State) : State :=
  { v with
    launch := { w.launch with
      inPos := w.launch.inPos + v.launch.inPos
      outPos := w.launch.outPos + v.launch.outPos
      pixPos := w.launch.pixPos + v.launch.pixPos }
    status := w.status
    reply := w.reply }

/-- What is left of a buffer from a cursor on. -/
def Region.rest (r : Region) (pos : Nat) : Region := r.sub pos (r.len - pos)

theorem Region.rest_zero_add (r : Region) (pos : Nat) : r.rest (0 + pos) = r.sub pos (r.len - pos) := by
  rw [Nat.zero_add, Region.rest]

/-- The chunk's pixels lie in those of the longer command from its `PIX_POS` on, at a whole pixel. -/
structure PartOf (w v : State) : Prop where
  base : v.launch.pixBuf.base = w.launch.pixBuf.base + w.launch.pixPos
  fits : w.launch.pixPos + v.launch.pixBuf.len ≤ w.launch.pixBuf.len
  whole : v.cfg.ch.bytes ∣ w.launch.pixPos

/-- A decode chunk, given the input that is left (70_reset_and_hazards R364). -/
structure DecPartOf (w v : State) : Prop extends PartOf w v where
  input : v.launch.inBuf = w.launch.inBuf.rest w.launch.inPos

/-- An encode chunk, given the output that is left. -/
structure EncPartOf (w v : State) : Prop extends PartOf w v where
  output : v.launch.outBuf = w.launch.outBuf.rest w.launch.outPos

section
variable {w v : State}

theorem PartOf.congr {v' : State} (h : PartOf w v) (hpix : v'.launch.pixBuf = v.launch.pixBuf) (hcfg : v'.cfg = v.cfg) :
    PartOf w v' := by
  obtain ⟨hbase, hfits, hwhole⟩ := h
  exact ⟨hpix ▸ hbase, hpix ▸ hfits, hcfg ▸ hwhole⟩

/-- The pixel at `PIX_POS` of the chunk, counted in the longer command. -/
theorem PartOf.pixelNumber_mul (h : PartOf w v) :
    (v.asPartOf w).pixelNumber * v.cfg.ch.bytes = w.launch.pixPos + v.pixelNumber * v.cfg.ch.bytes := by
  obtain ⟨q, hq⟩ := h.whole
  show (w.launch.pixPos + v.launch.pixPos) / v.cfg.ch.bytes * v.cfg.ch.bytes = _
  rw [hq, Nat.mul_add_div (Channels.bytes_pos _), Nat.add_mul, Nat.mul_comm q, State.pixelNumber]

/-- It is the same pixel of host memory. -/
theorem PartOf.pixelAddr (h : PartOf w v) :
    (v.asPartOf w).pixelAddr (v.asPartOf w).pixelNumber = v.pixelAddr v.pixelNumber := by
  have hnum := h.pixelNumber_mul
  have hbase := h.base
  show w.launch.pixBuf.base + (v.asPartOf w).pixelNumber * v.cfg.ch.bytes = v.launch.pixBuf.base + v.pixelNumber * v.cfg.ch.bytes
  omega

theorem PartOf.hasPixel (h : PartOf w v) (hv : v.hasPixel v.pixelNumber = true) :
    (v.asPartOf w).hasPixel (v.asPartOf w).pixelNumber = true := by
  have hnum := h.pixelNumber_mul
  have hfits := h.fits
  rw [hasPixel_iff] at hv ⊢
  show (v.asPartOf w).pixelNumber * v.cfg.ch.bytes + v.cfg.ch.bytes ≤ w.launch.pixBuf.len
  omega

@[simp] theorem nextPixel_asPartOf : v.nextPixel.asPartOf w = (v.asPartOf w).nextPixel := by
  simp only [State.asPartOf, State.nextPixel, Nat.add_assoc]

@[simp] theorem advanceIn_asPartOf (n : Nat) : (v.advanceIn n).asPartOf w = (v.asPartOf w).advanceIn n := by
  simp only [State.asPartOf, State.advanceIn, Nat.add_assoc]

end

/-! ### The loops, in parts -/

section
variable {turn : State → Attempt State} {loop : Nat → State → Attempt State} {P : State → State → Prop}
  (hzero : ∀ s, loop 0 s = .ok s) (hsucc : ∀ n s, loop (n + 1) s = turn s >>= loop n)
include hzero hsucc

/-- A loop over `m + n` pixels is the loop over `m` and then the loop over `n`. -/
theorem loop_add (m n : Nat) (s : State) : loop (m + n) s = loop m s >>= loop n := by
  induction m generalizing s with
  | zero => rw [Nat.zero_add, hzero, Attempt.ok_bind]
  | succ m ih =>
    rw [Nat.add_right_comm, hsucc, hsucc]
    cases turn s with
    | error x => rfl
    | ok t => exact ih t

/-- A chunk's loop goes on in the longer command as it does alone, if every turn of it does. -/
theorem loop_asPartOf
    (hturn : ∀ {w v v'}, P w v → turn v = .ok v' → P w v' ∧ turn (v.asPartOf w) = .ok (v'.asPartOf w)) (n : Nat)
    {w v v' : State} (hv : P w v) (h : loop n v = .ok v') :
    loop n (v.asPartOf w) = .ok (v'.asPartOf w) := by
  induction n generalizing v with
  | zero =>
    rw [hzero] at h ⊢
    rw [Except.ok.inj h]
  | succ n ih =>
    rw [hsucc] at h
    obtain ⟨u, hu, hrest⟩ := Attempt.bind_eq_ok.1 h
    obtain ⟨hkeep, hone⟩ := hturn hv hu
    rw [hsucc, hone, Attempt.ok_bind]
    exact ih hkeep hrest

end

/-! ### One turn of each loop -/

section
variable {w v v' : State}

/-- Storing a pixel in the chunk is storing it in the longer command. -/
theorem PartOf.produce (h : PartOf w v) {px : Pixel} {st : StreamState} (hv : produce px st v = .next v') :
    produce px st (v.asPartOf w) = .next (v'.asPartOf w) := by
  obtain ⟨hroom, rfl⟩ := produce_eq_next.1 hv
  refine produce_eq_next.2 ⟨h.hasPixel hroom, ?_⟩
  rw [h.pixelAddr]
  rfl

theorem PartOf.exec (h : PartOf w v) {i : Instr} (hv : exec i v = .next v') : exec i (v.asPartOf w) = .next (v'.asPartOf w) := by
  cases i <;> exact h.produce hv

/-- The drain is the production of a copy of `PREV`. -/
theorem drain_eq_produce (s : State) : drain s = produce s.stream.prev { s.stream with run := s.stream.run - 1 } s := by
  by_cases h : s.hasPixel s.pixelNumber = true <;> simp [drain, produce, storePixel, h]

/-- A decode step that goes on has paid an owed copy, or run the opcode at `IN_POS`. -/
theorem decStep_eq_ok {s t : State} :
    decStep s = .ok t ↔
      (s.stream.run ≠ 0 ∧ ∃ u, drain s = .next u ∧ u.nextPixel = t) ∨
        ∃ op u, s.stream.run = 0 ∧ decode s.opcodeBytes = .ok op ∧ exec op.1 (s.advanceIn op.2) = .next u ∧
          u.nextPixel = t := by
  unfold decStep
  split
  · next hrun =>
    cases hd : decode s.opcodeBytes with
    | error e => simp [hrun]
    | ok op => simp [hrun, Attempt.bind_eq_ok]
  · next hrun => simp only [Attempt.bind_eq_ok, Attempt.ofOutcome_eq_ok, Except.ok.injEq, ne_eq, hrun, not_false_iff, true_and,
      false_and, exists_false, or_false]

theorem DecPartOf.opcodeBytes (h : DecPartOf w v) : (v.asPartOf w).opcodeBytes = v.opcodeBytes := by
  simp only [State.opcodeBytes, State.asPartOf, h.input, Region.rest, Region.sub, Nat.add_assoc, Nat.sub_sub]

/-- A decode step of a chunk is the same step of the longer command. -/
theorem DecPartOf.decStep (h : DecPartOf w v) (hv : decStep v = .ok v') :
    DecPartOf w v' ∧ decStep (v.asPartOf w) = .ok (v'.asPartOf w) := by
  rcases decStep_eq_ok.1 hv with ⟨hrun, u, hu, rfl⟩ | ⟨op, u, hrun, hop, hu, rfl⟩
  · rw [drain_eq_produce] at hu
    have hwhole := h.toPartOf.produce hu
    obtain ⟨-, rfl⟩ := produce_eq_next.1 hu
    exact ⟨⟨h.toPartOf.congr rfl rfl, h.input⟩,
      decStep_eq_ok.2 (.inl ⟨hrun, _, (drain_eq_produce _).trans hwhole, nextPixel_asPartOf.symm⟩)⟩
  · have hwhole := (h.toPartOf.congr (v' := v.advanceIn op.2) rfl rfl).exec hu
    rw [advanceIn_asPartOf] at hwhole
    obtain ⟨-, hstored, -⟩ := exec_next hu
    refine ⟨⟨h.toPartOf.congr ?_ ?_, ?_⟩, decStep_eq_ok.2 (.inr ⟨op, _, hrun, ?_, hwhole, nextPixel_asPartOf.symm⟩)⟩
    · rw [hstored]; rfl
    · rw [hstored]; rfl
    · rw [hstored]; exact h.input
    · rw [h.opcodeBytes, hop]

/-- The turn of ENC_RANGE goes on exactly with a pixel and the headroom. -/
theorem encOne_eq_ok {s t : State} :
    encOne s = .ok t ↔ 8 ≤ s.launch.outBuf.len - s.launch.outPos ∧ s.hasPixel s.pixelNumber = true ∧ s.afterEncode = t := by
  by_cases hpix : s.hasPixel s.pixelNumber = true
  · rw [encOne_eq s hpix]
    split
    · next hroom => simp; omega
    · next hroom => simp [hpix]; omega
  · simp only [encOne, loadPixel, hpix]
    split <;> simp

theorem EncPartOf.afterEncode (h : EncPartOf w v) : (v.asPartOf w).afterEncode = v.afterEncode.asPartOf w := by
  have haddr := h.pixelAddr
  have hbase : w.launch.outBuf.base + (w.launch.outPos + v.launch.outPos) = v.launch.outBuf.base + v.launch.outPos := by
    rw [h.output, ← Nat.add_assoc]
    rfl
  unfold State.afterEncode
  rw [haddr]
  simp only [State.asPartOf, hbase, Nat.add_assoc]

/-- A turn of an encode chunk is the same turn of the longer command. -/
theorem EncPartOf.encOne (h : EncPartOf w v) (hv : encOne v = .ok v') :
    EncPartOf w v' ∧ encOne (v.asPartOf w) = .ok (v'.asPartOf w) := by
  obtain ⟨hroom, hpix, rfl⟩ := encOne_eq_ok.1 hv
  refine ⟨⟨h.toPartOf.congr rfl rfl, h.output⟩, encOne_eq_ok.2 ⟨?_, h.toPartOf.hasPixel hpix, h.afterEncode⟩⟩
  rw [h.output] at hroom
  rwa [Region.rest, Region.sub, Nat.sub_sub] at hroom

end

/-! ### The chunk commands -/

/-- The machine after a chunk command that returned the count `n`. -/
def State.returned (s : State) (n : Nat) : State := { s with status := .ok, launch := Launch.idle, reply := .count n }

@[simp] theorem returned_cfg (s : State) (n : Nat) : (s.returned n).cfg = s.cfg := rfl

/-- A command whose pseudocode is a loop and the return of a cursor returns a count exactly when the loop goes on to its end. -/
theorem issue_loop_iff {c : Command} {s t : State} {n : Nat} {loop : Attempt State} {cursor : State → Nat}
    (hc : perform c s = countReply (loop >>= fun u => .ok ({ u with status := .ok }, cursor u))) :
    issue c s = .next t ∧ t.reply = .count n ↔
      Accepted c s ∧ ∃ u, loop = .ok u ∧ cursor u = n ∧ t = u.returned n := by
  constructor
  · rintro ⟨ht, hrep⟩
    obtain ⟨hacc, ⟨u, r⟩, hx, rfl⟩ := issue_next_success ht fun e he => nomatch hrep.symm.trans he
    obtain rfl : r = .count n := hrep
    rw [hc, countReply_eq_ok] at hx
    obtain ⟨v, hv, hret⟩ := Attempt.bind_eq_ok.1 hx
    obtain ⟨rfl, rfl⟩ := Prod.mk.inj (Except.ok.inj hret)
    exact ⟨hacc, v, hv, rfl, rfl⟩
  · rintro ⟨hacc, u, rfl, rfl, rfl⟩
    rw [issue_accepted hacc, hc]
    exact ⟨rfl, rfl⟩

theorem issue_decRange_iff {s t : State} {inp pix : Region} {n : Nat} :
    issue (.decRange inp pix) s = .next t ∧ t.reply = .count n ↔
      Accepted (.decRange inp pix) s ∧
        ∃ u, decLoop (pix.len / s.cfg.ch.bytes) (s.start inp Region.empty pix) = .ok u ∧
          u.launch.inPos = n ∧ t = u.returned n :=
  issue_loop_iff rfl

theorem issue_encRange_iff {s t : State} {pix out : Region} {n : Nat} :
    issue (.encRange pix out) s = .next t ∧ t.reply = .count n ↔
      Accepted (.encRange pix out) s ∧
        ∃ u, encLoop (pix.len / s.cfg.ch.bytes) (s.start Region.empty out pix) = .ok u ∧
          u.launch.outPos = n ∧ t = u.returned n :=
  issue_loop_iff rfl

/-- The loop of DEC_RANGE ends with its window full. -/
theorem decLoop_fills {s t : State} {inp pix : Region} (hpix : pix.len % s.cfg.ch.bytes = 0)
    (h : decLoop (pix.len / s.cfg.ch.bytes) (s.start inp Region.empty pix) = .ok t) :
    t.cfg = s.cfg ∧ t.launch.pixPos = pix.len := by
  rcases decLoop_cases _ (decAt_start s inp pix) with ⟨u, hu, hsame, hat, -⟩ | ⟨u, hu, -⟩
  · obtain rfl := Except.ok.inj (hu.symm.trans h)
    have hcfg : u.cfg = s.cfg := hsame.cfg
    refine ⟨hcfg, ?_⟩
    rw [hat.pos, hcfg, Nat.zero_add, Nat.div_mul_cancel (Nat.dvd_of_mod_eq_zero hpix)]
  · cases hu.symm.trans h

/-- The loop of ENC_RANGE ends with all its pixels taken. -/
theorem encLoop_takes_all {s t : State} {pix out : Region} (hdisj : Disjoint pix out) (hpix : pix.len % s.cfg.ch.bytes = 0)
    (h : encLoop (pix.len / s.cfg.ch.bytes) (s.start Region.empty out pix) = .ok t) :
    t.cfg = s.cfg ∧ t.launch.pixPos = pix.len := by
  have hat : EncAt (s.start Region.empty out pix) 0 (pix.len / s.cfg.ch.bytes) :=
    ⟨by simp, by simpa using Nat.div_mul_le_self _ _, hdisj⟩
  rcases encLoop_cases _ hat with ⟨hu, -⟩ | ⟨u, hu, -⟩
  · obtain rfl := Except.ok.inj (hu.symm.trans h)
    refine ⟨rfl, ?_⟩
    show 0 + pix.len / s.cfg.ch.bytes * s.cfg.ch.bytes = pix.len
    rw [Nat.zero_add, Nat.div_mul_cancel (Nat.dvd_of_mod_eq_zero hpix)]
  · cases hu.symm.trans h

section
variable {s t : State} {inp out inp' out' : Region} {base a b n : Nat}

/-- The first of two chunks and the command over both start alike. -/
theorem start_asPartOf_start (s : State) (inp out pix pix' : Region) :
    (s.start inp out pix).asPartOf (s.start inp out pix') = s.start inp out pix' := rfl

/-- The second starts, seen from the command over both, in the state the first left. -/
theorem returned_start_asPartOf (t w : State) (n : Nat) (inp out pix : Region) :
    ((t.returned n).start inp out pix).asPartOf (t.asPartOf w) = t.asPartOf w := rfl

/-- The first of two chunks is a part of the command over both, which stands at its start. -/
theorem partOf_first : PartOf (s.start inp out ⟨base, a + b⟩) (s.start inp out ⟨base, a⟩) :=
  ⟨rfl, by simp, dvd_zero _⟩

/-- So is the second, where the command over both stands at the end of the first. -/
theorem partOf_second (hpos : t.launch.pixPos = a) (hwhole : t.cfg.ch.bytes ∣ a) :
    PartOf (t.asPartOf (s.start inp out ⟨base, a + b⟩)) ((t.returned n).start inp' out' ⟨base + a, b⟩) := by
  have hmid : (t.asPartOf (s.start inp out ⟨base, a + b⟩)).launch.pixPos = a := (Nat.zero_add _).trans hpos
  refine ⟨?_, ?_, ?_⟩ <;> rw [hmid]
  · rfl
  · exact le_rfl
  · exact hwhole

end

/-- If every turn of a chunk is a turn of the longer command, then two loops over adjacent pixels, the second command begun on what the
first one left, are the loop over both. -/
theorem loop_two_chunks {turn : State → Attempt State} {loop : Nat → State → Attempt State} {P : State → State → Prop}
    (hzero : ∀ s, loop 0 s = .ok s) (hsucc : ∀ n s, loop (n + 1) s = turn s >>= loop n)
    (hturn : ∀ {w v v'}, P w v → turn v = .ok v' → P w v' ∧ turn (v.asPartOf w) = .ok (v'.asPartOf w))
    {s t u : State} {inp out inp' out' : Region} {base a b n : Nat} (hcfg : t.cfg = s.cfg) (hwhole : s.cfg.ch.bytes ∣ a)
    (hpart : P (s.start inp out ⟨base, a + b⟩) (s.start inp out ⟨base, a⟩))
    (hfirst : loop (a / s.cfg.ch.bytes) (s.start inp out ⟨base, a⟩) = .ok t)
    (hpart' : P (t.asPartOf (s.start inp out ⟨base, a + b⟩)) ((t.returned n).start inp' out' ⟨base + a, b⟩))
    (hsecond : loop (b / (t.returned n).cfg.ch.bytes) ((t.returned n).start inp' out' ⟨base + a, b⟩) = .ok u) :
    loop ((a + b) / s.cfg.ch.bytes) (s.start inp out ⟨base, a + b⟩) =
      .ok (u.asPartOf (t.asPartOf (s.start inp out ⟨base, a + b⟩))) := by
  have hone := loop_asPartOf hzero hsucc hturn _ hpart hfirst
  have htwo := loop_asPartOf hzero hsucc hturn _ hpart' hsecond
  rw [start_asPartOf_start] at hone
  rw [returned_start_asPartOf, returned_cfg, hcfg] at htwo
  rw [Nat.add_div_of_dvd_right hwhole, loop_add hzero hsucc, hone, Attempt.ok_bind, htwo]

/-- Settles O19: each decode step of a window is the step the command over both windows takes there, since it sees the same input, the
same stream state and the same pixel of memory. -/
theorem decodeDoesNotDependOnWindows : Obligations.DecodeDoesNotDependOnWindows := by
  intro s t u inp base a b c d ht hc hu hd hacc
  obtain ⟨⟨⟨-, hmod⟩, -⟩, t', hfirst, rfl, rfl⟩ := issue_decRange_iff.1 ⟨ht, hc⟩
  obtain ⟨-, u', hsecond, rfl, rfl⟩ := issue_decRange_iff.1 ⟨hu, hd⟩
  obtain ⟨hcfg, hpos⟩ := decLoop_fills hmod hfirst
  have hwhole : s.cfg.ch.bytes ∣ a := Nat.dvd_of_mod_eq_zero hmod
  have hboth := loop_two_chunks (P := DecPartOf) (fun _ => rfl) (fun _ _ => rfl) DecPartOf.decStep hcfg hwhole
    ⟨partOf_first, rfl⟩ hfirst ⟨partOf_second hpos (hcfg ▸ hwhole), (Region.rest_zero_add ..).symm⟩ hsecond
  exact (issue_decRange_iff.2 ⟨hacc, _, hboth, congrArg (· + _) (Nat.zero_add _), rfl⟩).1

/-- Settles O44: each turn of a chunk is the turn the command over both chunks takes there, with the same room in `OUT`, the same
stream state and the same pixel. -/
theorem encodeDoesNotDependOnChunks : Obligations.EncodeDoesNotDependOnChunks := by
  intro s t u out base a b c d ht hc hu hd hacc
  obtain ⟨⟨⟨-, hmod⟩, -, -, hdisj⟩, t', hfirst, rfl, rfl⟩ := issue_encRange_iff.1 ⟨ht, hc⟩
  obtain ⟨-, u', hsecond, rfl, rfl⟩ := issue_encRange_iff.1 ⟨hu, hd⟩
  obtain ⟨hcfg, hpos⟩ := encLoop_takes_all hdisj hmod hfirst
  have hwhole : s.cfg.ch.bytes ∣ a := Nat.dvd_of_mod_eq_zero hmod
  have hboth := loop_two_chunks (P := EncPartOf) (fun _ => rfl) (fun _ _ => rfl) EncPartOf.encOne hcfg hwhole
    ⟨partOf_first, rfl⟩ hfirst ⟨partOf_second hpos (hcfg ▸ hwhole), (Region.rest_zero_add ..).symm⟩ hsecond
  exact (issue_encRange_iff.2 ⟨hacc, _, hboth, congrArg (· + _) (Nat.zero_add _), rfl⟩).1

end Sys2Proof.Machine

/-! ## The run-length machine (44_run_length) -/

namespace Sys2Proof.Machine

/-! ### The flush, case by case -/

section
variable {policy : Run1Policy} {ch : Channels} {st : StreamState}

theorem flushRun_of_run_eq_one_fold (h : st.run = 1) : flushRun .fold ch st = foldFlush ch st := by
  simp [flushRun, h]

theorem flushRun_of_runOpcode (hrun : st.run ≠ 0) (h : ¬ (st.run = 1 ∧ policy = .fold)) :
    flushRun policy ch st = ({ st with run := 0 }, [runByte st.run]) := by
  rw [flushRun, if_neg hrun, if_neg h]

theorem foldFlush_index (hstarted : st.started = true) (hhit : st.hits ch st.prev = true) :
    foldFlush ch st = ({ st with run := 0 }, [indexByte (st.prev.hash ch)]) := by
  simp [foldFlush, hstarted, hhit]

theorem foldFlush_diff (hstarted : st.started = false) (hmiss : st.hits ch st.prev = false) :
    foldFlush ch st = ({ st.store ch st.prev with run := 0, started := true }, [0x6A]) := by
  simp [foldFlush, hstarted, hmiss]

theorem foldFlush_run (h : st.started ≠ st.hits ch st.prev) : foldFlush ch st = ({ st with run := 0 }, [0xC0]) := by
  rw [foldFlush, if_neg, if_neg]
  · rintro ⟨hs, hh⟩
    exact h ((Bool.eq_false_of_not_eq_true hs).trans (Bool.eq_false_of_not_eq_true hh).symm)
  · rintro ⟨hs, hh⟩
    exact h (hs.trans hh.symm)

/-- The byte of RUN is that of the opcode of the pending run. -/
theorem runByte_eq_encode {run : BitVec 6} (h : run ≠ 0) : [runByte run] = encode (.run run.toNat) := by
  have hpayload : (run - 1).setWidth 8 = BitVec.ofNat 8 (run.toNat - 1) := by bv_omega
  rw [runByte, encode, hpayload]
  rfl

end

/-! ### An equal pixel -/

theorem accumulate_below {st : StreamState} (h : st.run.toNat < 61) : accumulate st = ({ st with run := st.run + 1 }, []) := by
  have hne : st.run + 1 ≠ runMax := by rw [runMax]; bv_omega
  rw [accumulate, if_neg hne]

theorem accumulate_full {st : StreamState} (h : st.run.toNat = 61) : accumulate st = ({ st with run := 0 }, [0xFD]) := by
  have heq : st.run + 1 = runMax := by rw [runMax]; bv_omega
  rw [accumulate, if_pos heq]

theorem encPixel_of_eq {policy : Run1Policy} {ch : Channels} {px : Pixel} {st : StreamState} (h : px.eqIn ch st.prev = true) :
    encPixel policy ch px st = accumulate st := if_pos h

/-- Settles O28: the length, the run and `PREV` after a flush. -/
theorem flushEmitsOneByteForARun : Obligations.FlushEmitsOneByteForARun :=
  fun policy ch st => ⟨length_flushRun policy ch st, flushRun_run policy ch st, flushRun_prev policy ch st⟩

/-- Settles O29: outside the fold of a one-pixel run, the flush is the opcode RUN. -/
theorem runOpcodeFlush : Obligations.RunOpcodeFlush := by
  intro policy ch st
  refine ⟨fun h => ?_, fun h => ?_⟩
  · have hrun : st.run ≠ 0 := by bv_omega
    have hlong : ¬ (st.run = 1 ∧ policy = .fold) := by
      rintro ⟨hone, -⟩
      simp [hone] at h
    rw [flushRun_of_runOpcode hrun hlong, runByte_eq_encode hrun, encode]
  · have hrun : st.run ≠ 0 := by rw [h]; decide
    rw [flushRun_of_runOpcode hrun (by simp), h]
    rfl

/-- Settles O30: the cases of FOLD_FLUSH on `STARTED` and the cache hit. -/
theorem foldFlushCases : Obligations.FoldFlushCases := by
  intro ch st h
  rw [flushRun_of_run_eq_one_fold h]
  refine ⟨fun hstarted hhit => ?_, fun hstarted hmiss => ?_, fun hne => ?_⟩
  · rw [foldFlush_index hstarted hhit, indexByte, Pixel.hash_val]
    exact ⟨rfl, rfl⟩
  · rw [foldFlush_diff hstarted hmiss]
    exact ⟨rfl, rfl⟩
  · rw [foldFlush_run hne]
    exact ⟨rfl, rfl⟩

/-- Settles O31: an equal pixel accumulates, below 61 and at 61. -/
theorem equalPixelExtendsTheRun : Obligations.EqualPixelExtendsTheRun := by
  intro policy ch px st heq hle
  rw [encPixel_of_eq heq]
  refine ⟨fun hlt => ?_, fun hfull => ?_, ?_⟩
  · rw [accumulate_below hlt]
    refine ⟨rfl, ?_⟩
    show (st.run + 1).toNat = _
    bv_omega
  · rw [accumulate_full hfull]
    exact ⟨rfl, rfl⟩
  · rw [accumulate_eq]
    exact ⟨rfl, rfl, rfl⟩

/-! ### The decoder's side -/

/-- The bytes a pixel is stored as are its lanes. -/
theorem Pixel.getD_toBytes {ch : Channels} {p : Pixel} {j : Nat} (h : j < ch.bytes) : (p.toBytes ch).getD j 0 = p.lane j := by
  cases ch <;> simp only [Channels.bytes] at h <;> interval_cases j <;> rfl

/-- The pixel an opcode outputs stands where the window's next pixel does. -/
theorem afterPixel_pixelStored (s : State) (px : Pixel) (st : StreamState) : PixelStored s (s.afterPixel px st) px := by
  intro j hj
  have hin : s.pixelAddr s.pixelNumber ≤ s.pixelAddr s.pixelNumber + j ∧
      s.pixelAddr s.pixelNumber + j < s.pixelAddr s.pixelNumber + (px.toBytes s.cfg.ch).length := by
    rw [Pixel.length_toBytes]
    omega
  have hread := Memory.read_writeBytes s.mem (s.pixelAddr s.pixelNumber) (s.pixelAddr s.pixelNumber + j) (px.toBytes s.cfg.ch)
  rw [if_pos hin, Nat.add_sub_cancel_left, Pixel.getD_toBytes hj] at hread
  exact hread

/-- Settles O17: the step is the drain of one copy of `PREV`. -/
theorem decStepPaysAnOwedCopy : Obligations.DecStepPaysAnOwedCopy := by
  intro s hrun hroom
  rcases decStep_cases s (roomForPixel_iff.1 hroom) with ⟨-, hstep⟩ | ⟨_, _, _, hzero, -⟩ | ⟨_, hzero, -⟩
  · refine ⟨_, hstep, afterPixel_pixelStored s s.stream.prev { s.stream with run := s.stream.run - 1 }, ?_, rfl, rfl, rfl, rfl⟩
    show (s.stream.run - 1).toNat + 1 = s.stream.run.toNat
    bv_omega
  · exact absurd hzero hrun
  · exact absurd hzero hrun

section
variable {s : State} {e : StreamState} (hroom : RoomForPixel s) (hcache : e.cache = s.stream.cache) (hprev : e.prev = s.stream.prev)
  (hidle : s.stream.run = 0)
include hroom hcache hprev hidle

/-- Whichever case FOLD_FLUSH takes, a decoder with the encoder's cache and `PREV` and no run owed outputs one copy of `PREV` and takes
over the encoder's cache: by INDEX of a slot that holds `PREV`, by the zero DIFF, which both sides cache, or by RUN of one. -/
theorem foldFlush_runs :
    ∃ i, WellFormed i ∧ (foldFlush s.cfg.ch e).2 = encode i ∧
      exec i s = .next (s.afterPixel e.prev
        { s.stream with cache := (foldFlush s.cfg.ch e).1.cache, prev := e.prev, run := 0 }) := by
  have hpix := roomForPixel_iff.1 hroom
  by_cases hne : e.started = e.hits s.cfg.ch e.prev
  · cases hstarted : e.started with
    | true =>
      have hhit : e.hits s.cfg.ch e.prev = true := hne ▸ hstarted
      rw [foldFlush_index hstarted hhit]
      rw [StreamState.hits, hcache, hprev] at hhit
      refine ⟨.index (e.prev.hash s.cfg.ch), rfl, rfl, produce_eq_next.2 ⟨hpix, ?_⟩⟩
      rw [hprev, Pixel.fromSlot_eq hhit, hcache, ← hidle]
      rfl
    | false =>
      have hzero : s.stream.prev.addRgb 0 0 0 = s.stream.prev := by simp [Pixel.addRgb]
      rw [foldFlush_diff hstarted (hne ▸ hstarted)]
      refine ⟨.diff 0 0 0, rfl, rfl, produce_eq_next.2 ⟨hpix, ?_⟩⟩
      rw [hzero, hprev, StreamState.store_cache, hcache, ← hidle]
      rfl
  · rw [foldFlush_run hne]
    refine ⟨.run 1, rfl, rfl, produce_eq_next.2 ⟨hpix, ?_⟩⟩
    rw [hprev, hcache]
    rfl

/-- Every flush of a run has the decoder output one copy of `PREV` and owe the rest, which the byte of RUN carries. -/
theorem flushRun_runs {policy : Run1Policy} (hrun : e.run ≠ 0) (hle : e.run.toNat ≤ 61) :
    ∃ i, WellFormed i ∧ (flushRun policy s.cfg.ch e).2 = encode i ∧
      exec i s = .next (s.afterPixel e.prev
        { s.stream with cache := (flushRun policy s.cfg.ch e).1.cache, prev := e.prev, run := e.run - 1 }) := by
  by_cases hfold : e.run = 1 ∧ policy = .fold
  · obtain ⟨hone, rfl⟩ := hfold
    rw [flushRun_of_run_eq_one_fold hone, hone]
    exact foldFlush_runs hroom hcache hprev hidle
  · have hpos : e.run.toNat ≠ 0 := by bv_omega
    have howed : BitVec.ofNat 6 (e.run.toNat - 1) = e.run - 1 := by bv_omega
    rw [flushRun_of_runOpcode hrun hfold, runByte_eq_encode hrun]
    refine ⟨.run e.run.toNat, Instr.wf_run.2 (by omega), rfl, produce_eq_next.2 ⟨roomForPixel_iff.1 hroom, ?_⟩⟩
    rw [howed, hprev, hcache]
    rfl

end

/-- Settles O27: the flush is the byte of that opcode. -/
theorem runFlushKeepsDecoderInStep : Obligations.RunFlushKeepsDecoderInStep := by
  intro s policy e hroom hcache hprev hidle hrun hle
  obtain ⟨i, hwf, hbytes, hexec⟩ := flushRun_runs (policy := policy) hroom hcache hprev hidle hrun hle
  have hdecode := decodeOfEncodeIsTheOpcode i [] hwf
  have hlen := length_flushRun policy s.cfg.ch e
  rw [if_neg hrun] at hlen
  rw [List.append_nil, ← hbytes, hlen] at hdecode
  refine ⟨i, _, hdecode, hexec, rfl, rfl, ?_, afterPixel_pixelStored _ _ _⟩
  show (e.run - 1).toNat + 1 = e.run.toNat
  bv_omega

end Sys2Proof.Machine

/-! ## The encoder commands (45_encoder) -/

namespace Sys2Proof.Machine

/-! ### What one pixel emits (R251) -/

/-- With three channels the classifier never emits RGBA. -/
theorem length_classify_three (px p : Pixel) : (classify .three px p).length ≤ 4 := by
  rw [classify, if_neg (by simp)]
  split
  · simp
  · split <;> simp [Delta.lumaBytes]

section
variable {policy : Run1Policy} {ch : Channels} {px : Pixel} {st : StreamState}

theorem encPixel_of_ne (h : px.eqIn ch st.prev = false) :
    encPixel policy ch px st =
      ((encFresh ch px (flushRun policy ch st).1).1, (flushRun policy ch st).2 ++ (encFresh ch px (flushRun policy ch st).1).2) :=
  if_neg (Bool.eq_false_iff.1 h)

theorem encFresh_started : (encFresh ch px st).1.started = true := by
  unfold encFresh; split <;> rfl

theorem one_le_length_encFresh : 1 ≤ (encFresh ch px st).2.length := by
  unfold encFresh
  split
  · exact le_rfl
  · exact (length_classify ..).1

theorem length_encFresh_three : (encFresh .three px st).2.length ≤ 4 := by
  unfold encFresh
  split
  · simp
  · exact length_classify_three ..

theorem length_flushRun_le_one : (flushRun policy ch st).2.length ≤ 1 := by
  rw [length_flushRun]
  split <;> decide

theorem length_accumulate : (accumulate st).2.length ≤ 1 := by
  unfold accumulate; split <;> simp

theorem length_encPixel_three : (encPixel policy .three px st).2.length ≤ 5 := by
  cases h : px.eqIn .three st.prev with
  | true =>
    rw [encPixel_of_eq h]
    exact length_accumulate.trans (by decide)
  | false =>
    rw [encPixel_of_ne h, List.length_append]
    exact Nat.add_le_add length_flushRun_le_one length_encFresh_three |>.trans (by decide)

end

/-- Settles O32: a pixel that differs from `PREV` is the flush of the run and then a pixel of its own, which emits at least a byte. -/
theorem differentPixelIsEmitted : Obligations.DifferentPixelIsEmitted := by
  intro policy ch px st
  refine ⟨length_encPixel .., ?_, fun hne => ?_⟩
  · rintro rfl
    exact length_encPixel_three
  · rw [encPixel_of_ne hne]
    refine ⟨?_, encFresh_prev .., encFresh_started, (encFresh_run ..).trans (flushRun_run ..)⟩
    rw [List.length_append]
    exact one_le_length_encFresh.trans (Nat.le_add_left ..)

/-! ### The headroom (R252) -/

theorem encOne_without_headroom {s : State} (h : s.launch.outBuf.len - s.launch.outPos < 8) :
    encOne s = .error (.raised .outputIsTooSmallE s) := if_pos h

/-- A turn moves `OUT_POS` by less than the headroom. -/
theorem afterEncode_outPos_le (s : State) : s.afterEncode.launch.outPos ≤ s.launch.outPos + 6 :=
  Nat.add_le_add_left (length_encPixel ..) _

/-- Settles O42: the check comes first in a turn, and a turn that passes it emits fewer bytes than it checked for. -/
theorem headroomIsCheckedBeforeAPixel : Obligations.HeadroomIsCheckedBeforeAPixel := by
  intro s n
  refine ⟨fun hshort => ?_, fun hfree hpix => ?_⟩
  · rw [encLoop, encOne_without_headroom hshort, Attempt.error_bind]
  · have hone := encOne_eq_ok.2 ⟨hfree, hpix, rfl⟩
    have hpos := afterEncode_outPos_le s
    exact ⟨_, hone, by rw [encLoop, hone, Attempt.ok_bind], by omega⟩

/-- With the headroom free for each of its pixels the loop goes on to its end. -/
theorem encLoop_of_room (n : Nat) {s : State} {k : Nat} (h : EncAt s k n)
    (hroom : 8 * n ≤ s.launch.outBuf.len - s.launch.outPos) : ∃ t, encLoop n s = .ok t := by
  induction n generalizing s k with
  | zero => exact ⟨s, rfl⟩
  | succ n ih =>
    have hone := encOne_eq_ok.2 ⟨by omega, h.hasPixel, rfl⟩
    have hpos := afterEncode_outPos_le s
    have hbuf : s.afterEncode.launch.outBuf = s.launch.outBuf := rfl
    rw [encLoop, hone, Attempt.ok_bind]
    exact ih h.next (by rw [hbuf]; omega)

/-! ### The outcome of a command, from that of its pseudocode -/

theorem issue_of_ok {c : Command} {s u : State} {r : Reply} (hacc : Accepted c s) (h : perform c s = .ok (u, r)) :
    issue c s = .next { u with launch := Launch.idle, reply := r } := by
  rw [issue_accepted hacc, h]
  rfl

theorem issue_of_raised {c : Command} {s u : State} {e : ErrorCode} (hacc : Accepted c s)
    (h : perform c s = .error (.raised e u)) : issue c s = .next (raiseError e c.written u) := by
  rw [issue_accepted hacc, h]
  rfl

theorem countReply_of_raised {a : Attempt (State × Nat)} {e : ErrorCode} {u : State} (h : a = .error (.raised e u)) :
    countReply a = .error (.raised e u) := Attempt.map_eq_error.2 h

/-- Bytes written in a row are read back there, and nothing else changes. -/
theorem Memory.eq_writeBytes_reads {m m' : Memory} {base : Nat} {bs : List Byte} (h : m' = m.writeBytes base bs) :
    m'.readBytes base bs.length = bs ∧ ∀ a, a < base ∨ base + bs.length ≤ a → m'.read a = m.read a := by
  subst h
  exact ⟨Memory.readBytes_writeBytes .., fun a => Memory.read_writeBytes_outside m base a bs⟩

/-! ### ENC_RANGE and ENC_FINISH -/

/-- ENC_RANGE's loop begins at the first pixel of its buffer. -/
theorem encAt_start (s : State) {pix out : Region} (h : Disjoint pix out) :
    EncAt (s.start Region.empty out pix) 0 (pix.len / s.cfg.ch.bytes) :=
  ⟨by simp, by simpa using Nat.div_mul_le_self _ _, h⟩

theorem encRange_of_room {s : State} {pix out : Region} (h : Disjoint pix out)
    (hroom : 8 * (pix.len / s.cfg.ch.bytes) ≤ out.len) : ∃ x, encRange pix out s = .ok x := by
  obtain ⟨t, ht⟩ := encLoop_of_room _ (encAt_start s h) hroom
  exact ⟨_, by rw [encRange, ht, Attempt.ok_bind]⟩

/-- Settles O43: with that room the loop goes on to its end, where the bytes of its pixels are written. -/
theorem encRangeEncodesItsPixels : Obligations.EncRangeEncodesItsPixels := by
  intro s pix out hacc hroom r
  obtain ⟨⟨hdir, -⟩, -, -, hdisj⟩ := id hacc
  obtain ⟨x, hx⟩ := encRange_of_room hdisj hroom
  rcases encRange_cases s pix out hdisj with ⟨t, ht, hsame, hstream, hmem, -⟩ | ⟨t, he, -⟩
  · obtain ⟨hread, hframe⟩ := Memory.eq_writeBytes_reads hmem
    exact ⟨_, issue_of_ok hacc (countReply_eq_ok.2 ht), rfl, hstream, hsame.dir.trans hdir, hsame.status, hread, hframe⟩
  · cases he.symm.trans hx

/-- Settles O45: the bytes of ENC_FINISH are the flush and the trailer, and they fit or the error is raised. -/
theorem encFinishFlushesAndWritesTrailer : Obligations.EncFinishFlushesAndWritesTrailer := by
  intro s out
  refine ⟨issue_refused, fun hacc => ?_⟩
  intro need
  have hneed : s.finishBytes.length = need := length_finishBytes s
  rcases encFinish_cases s out with ⟨hfit, t, ht, hsame, hstream, hmem⟩ | ⟨hshort, he⟩
  · refine ⟨fun hlt => by omega, fun _ => ?_⟩
    obtain ⟨hread, hframe⟩ := Memory.eq_writeBytes_reads hmem
    rw [hneed] at ht hread hframe
    refine ⟨_, issue_of_ok hacc (countReply_eq_ok.2 ht), hsame.status, hsame.dir, ?_, hstream, hsame.cfg, hsame.cfgValid, rfl,
      hread, hframe⟩
    exact (congrArg StreamState.run hstream).trans (flushRun_run ..)
  · exact ⟨fun _ => ⟨_, issue_of_raised hacc (countReply_of_raised he), rfl, rfl⟩, fun hle => by omega⟩

/-! ### ENC -/

/-- ENC_PIXEL over the image of `CFG` in `pix`, from the stream-initial values: the stream state and the bytes emitted. -/
def State.imageRange (s : State) (pix : Region) : StreamState × List Byte :=
  encPixels s.params.run1Policy s.cfg.ch (pixelsAt s.cfg.ch s.mem pix.base (s.cfg.w.toNat * s.cfg.h.toNat)) StreamState.initial

theorem imageOpcodes_eq (s : State) (pix : Region) :
    s.imageOpcodes pix =
      (s.imageRange pix).2 ++ (flushRun s.params.run1Policy s.cfg.ch (s.imageRange pix).1).2 := rfl

/-- What ENC writes: header, opcode stream, trailer (R255). -/
def State.imageBytes (s : State) (pix : Region) : List Byte := s.cfg.toBytes ++ s.imageOpcodes pix ++ trailer

theorem length_imageBytes (s : State) (pix : Region) : (s.imageBytes pix).length = 14 + (s.imageOpcodes pix).length + 8 := by
  simp only [State.imageBytes, List.length_append, length_headerBytes, hdrLen]
  rfl

theorem Header.nbytes_div_bytes (h : Header) : h.nbytes / h.ch.bytes = h.w.toNat * h.h.toNat :=
  Nat.mul_div_cancel _ (Channels.bytes_pos _)

/-- What ENC_FINISH writes after the image's pixels: the flush of the last run and the trailer. -/
def State.imageEnd (s : State) (pix : Region) : List Byte :=
  (flushRun s.params.run1Policy s.cfg.ch (s.imageRange pix).1).2 ++ trailer

theorem eight_le_length_imageEnd (s : State) (pix : Region) : 8 ≤ (s.imageEnd pix).length := by
  rw [State.imageEnd, List.length_append]
  exact Nat.le_add_left ..

/-- The same bytes, as the three commands that make up ENC write them. -/
theorem imageBytes_eq (s : State) (pix : Region) :
    s.imageBytes pix = s.cfg.toBytes ++ (s.imageRange pix).2 ++ s.imageEnd pix := by
  simp only [State.imageBytes, State.imageEnd, imageOpcodes_eq, List.append_assoc]

theorem SameBut.mono {r q : Region} {s t : State} (h : SameBut r s t) (hr : r.Within q) : SameBut q s t :=
  { h with mem := fun x hx => h.mem x fun hin => hx (hr x hin) }

theorem length_imageBytes_parts (s : State) (pix : Region) :
    (s.imageBytes pix).length = 14 + (s.imageRange pix).2.length + (s.imageEnd pix).length := by
  rw [imageBytes_eq, List.length_append, List.length_append, length_headerBytes, hdrLen]

/-- ENC_FINISH where the header and the chunk's bytes stand in `out`: it completes the image's bytes, or they do not fit. -/
theorem encFinish_image_cases {s b : State} {pix out : Region} {pos : Nat} (hpos : pos = 14 + (s.imageRange pix).2.length)
    (hfinish : b.finishBytes = s.imageEnd pix)
    (hmem : b.mem = s.mem.writeBytes out.base (s.cfg.toBytes ++ (s.imageRange pix).2)) :
    ((s.imageBytes pix).length ≤ out.len ∧
      ∃ t, encFinish (out.sub pos (out.len - pos)) b = .ok (t, (s.imageEnd pix).length) ∧
        t.mem = s.mem.writeBytes out.base (s.imageBytes pix)) ∨
    (out.len < (s.imageBytes pix).length ∧
      encFinish (out.sub pos (out.len - pos)) b = .error (.raised .outputIsTooSmallE b)) := by
  have hlen := length_imageBytes_parts s pix
  have hend := eight_le_length_imageEnd s pix
  have hcases := encFinish_cases b (out.sub pos (out.len - pos))
  rw [hfinish] at hcases
  rcases hcases with ⟨hfit, t, ht, -, -, htmem⟩ | ⟨hshort, ht⟩
  · simp only [Region.sub] at hfit
    refine .inl ⟨by omega, t, ht, ?_⟩
    rw [htmem, hmem, imageBytes_eq, Memory.writeBytes_append _ _ (s.cfg.toBytes ++ _), List.length_append, length_headerBytes, hpos]
    rfl
  · simp only [Region.sub] at hshort
    exact .inr ⟨by omega, ht⟩

section
variable {s a : State} {pix out : Region} (hdisj : Disjoint pix out) (hpix : s.cfg.nbytes ≤ pix.len)
include hdisj hpix

/-- The chunk of ENC takes the image's pixels, which the header just written to `OUT` has not touched. -/
theorem encPixels_image (ha : SameBut out { s with status := .ok } a) :
    encPixels a.params.run1Policy a.cfg.ch
      (pixelsAt a.cfg.ch a.mem pix.base (s.cfg.nbytes / a.cfg.ch.bytes)) StreamState.initial = s.imageRange pix := by
  have hcfg : a.cfg = s.cfg := ha.cfg
  have hpolicy : a.params = s.params := ha.params
  have hpixels : pixelsAt s.cfg.ch a.mem pix.base (s.cfg.w.toNat * s.cfg.h.toNat) =
      pixelsAt s.cfg.ch s.mem pix.base (s.cfg.w.toNat * s.cfg.h.toNat) :=
    pixelsAt_congr _ _ _ _ _ fun x hlo hhi => ha.mem x fun hout => hdisj x ⟨⟨hlo, hhi.trans_le (Nat.add_le_add_left hpix _)⟩, hout⟩
  rw [hcfg, hpolicy, Header.nbytes_div_bytes, hpixels, State.imageRange]

/-- The chunk of ENC, after the header: it goes on with the header and its bytes in `OUT` and leaves the run to flush, or raises
`OutputIsTooSmall_E`, and then the image's bytes do not fit. -/
theorem encRange_image_cases (ha : SameBut out { s with status := .ok } a) (hmem : a.mem = s.mem.writeBytes out.base s.cfg.toBytes) :
    (∃ b, encRange (pix.sub 0 s.cfg.nbytes) (out.sub 14 (out.len - 14)) (streamInit .enc a) =
          .ok (b, (s.imageRange pix).2.length) ∧
        b.finishBytes = s.imageEnd pix ∧
        b.mem = s.mem.writeBytes out.base (s.cfg.toBytes ++ (s.imageRange pix).2)) ∨
    (∃ t, encRange (pix.sub 0 s.cfg.nbytes) (out.sub 14 (out.len - 14)) (streamInit .enc a) =
          .error (.raised .outputIsTooSmallE t) ∧
        out.len < (s.imageBytes pix).length) := by
  have himage := encPixels_image hdisj hpix ha
  have hbytes : (streamInit .enc a).rangeBytes (pix.sub 0 s.cfg.nbytes) = (s.imageRange pix).2 := congrArg Prod.snd himage
  have hstream : (streamInit .enc a).rangeStream (pix.sub 0 s.cfg.nbytes) = (s.imageRange pix).1 := congrArg Prod.fst himage
  have hcases := encRange_cases (streamInit .enc a) (pix.sub 0 s.cfg.nbytes) (out.sub 14 (out.len - 14))
    (hdisj.mono (Region.sub_within (by omega)) (Region.sub_within le_rfl))
  rw [hbytes, hstream] at hcases
  rcases hcases with ⟨b, hb, hsame, hbstream, hbmem, -⟩ | ⟨t, ht, -, hlen⟩
  · refine .inl ⟨b, hb, ?_, ?_⟩
    · have hcfg : b.cfg = s.cfg := hsame.cfg.trans ha.cfg
      have hparams : b.params = s.params := hsame.params.trans ha.params
      rw [State.finishBytes, State.imageEnd, hcfg, hparams, hbstream]
    · rw [hbmem, streamInit_mem, hmem, Memory.writeBytes_append]
      rfl
  · have htotal := length_imageBytes_parts s pix
    have hend := eight_le_length_imageEnd s pix
    simp only [Region.sub] at hlen
    exact .inr ⟨t, ht, by omega⟩

/-- ENC with enough pixels writes header, opcode stream and trailer at the start of `out` exactly when they fit, and raises
`OutputIsTooSmall_E` otherwise. -/
theorem encImage_cases :
    ((s.imageBytes pix).length ≤ out.len ∧ ∃ t, encImage pix out s = .ok (t, (s.imageBytes pix).length) ∧
      t.mem = s.mem.writeBytes out.base (s.imageBytes pix)) ∨
    (out.len < (s.imageBytes pix).length ∧ ∃ t, encImage pix out s = .error (.raised .outputIsTooSmallE t)) := by
  have hlen := length_imageBytes_parts s pix
  rw [encImage, if_neg (Nat.not_lt.2 hpix)]
  by_cases hhdr : out.len < hdrLen
  · rw [if_pos hhdr]
    simp only [hdrLen] at hhdr
    exact .inr ⟨by omega, s, rfl⟩
  rw [if_neg hhdr]
  simp only [hdrLen] at hhdr ⊢
  rcases hdrEnc_cases s (out.sub 0 14) with ⟨-, a, ha, hasame, -, hamem⟩ | ⟨hshort, -⟩
  case inr => exact absurd hshort (Nat.lt_irrefl 14)
  rcases encRange_image_cases hdisj hpix (hasame.mono (Region.sub_within (by omega))) hamem with
    ⟨b, hb, hfinish, hbmem⟩ | ⟨t, ht, hshort⟩
  · simp only [ha, hb, Attempt.ok_bind]
    rcases encFinish_image_cases (out := out) rfl hfinish hbmem with ⟨hfit, c, hc, hcmem⟩ | ⟨hshort, hc⟩
    · rw [hc, Attempt.ok_bind, hlen]
      exact .inl ⟨hlen ▸ hfit, c, rfl, hcmem⟩
    · rw [hc, Attempt.error_bind]
      exact .inr ⟨hshort, b, rfl⟩
  · simp only [ha, ht, Attempt.ok_bind, Attempt.error_bind]
    exact .inr ⟨hshort, t, rfl⟩

end

theorem encImage_too_few_pixels {s : State} {pix out : Region} (h : pix.len < s.cfg.nbytes) :
    encImage pix out s = .error (.raised .notEnoughPixelData s) := if_pos h

/-- Settles O46: an accepted ENC with its pixels succeeds exactly when its bytes fit, and then has written them. -/
theorem encWritesHeaderStreamTrailer : Obligations.EncWritesHeaderStreamTrailer := by
  intro s pix out hacc body total
  obtain ⟨-, -, -, hdisj⟩ := id hacc
  have htotal : (s.imageBytes pix).length = total := length_imageBytes s pix
  refine ⟨fun hfew => ?_, fun hpix hshort => ?_, fun hpix hfit => ?_⟩
  · exact ⟨_, issue_of_raised hacc (countReply_of_raised (encImage_too_few_pixels hfew)), rfl⟩
  · rcases encImage_cases hdisj hpix with ⟨hle, -⟩ | ⟨-, t, ht⟩
    · omega
    · exact ⟨_, issue_of_raised hacc (countReply_of_raised ht), rfl⟩
  · rcases encImage_cases hdisj hpix with ⟨-, t, ht, hmem⟩ | ⟨hlt, -⟩
    · obtain ⟨hread, hframe⟩ := Memory.eq_writeBytes_reads hmem
      rcases encImage_ends s hdisj with ⟨x, hx, hok⟩ | ⟨e, u, hu, -⟩
      · obtain rfl := Except.ok.inj (hx.symm.trans ht)
        rw [htotal] at ht hread hframe
        exact ⟨_, issue_of_ok hacc (countReply_eq_ok.2 ht), hok.status, rfl, hok.dir, hok.cfg, hread, hframe⟩
      · cases hu.symm.trans ht
    · omega

/-! ### ENC as a function of the image (R258) -/

/-- Memories that agree on two intervals, offset by offset, give the same bytes of them. -/
theorem Memory.readBytes_eq_of_offsets {m m' : Memory} {base base' n : Nat}
    (h : ∀ j, j < n → m.read (base + j) = m'.read (base' + j)) : m.readBytes base n = m'.readBytes base' n := by
  induction n generalizing base base' with
  | zero => rfl
  | succ n ih =>
    have hrest : m.readBytes (base + 1) n = m'.readBytes (base' + 1) n := ih fun j hj => by
      simpa only [Nat.add_assoc, Nat.add_comm 1] using h (j + 1) (Nat.succ_lt_succ hj)
    exact congrArg₂ List.cons (h 0 (Nat.succ_pos n)) hrest

/-- Buffers that agree byte by byte, wherever they lie, hold the same pixels. -/
theorem pixelsAt_eq_of_offsets {ch : Channels} {m m' : Memory} {base base' n : Nat}
    (h : ∀ j, j < n * ch.bytes → m.read (base + j) = m'.read (base' + j)) : pixelsAt ch m base n = pixelsAt ch m' base' n := by
  induction n generalizing base base' with
  | zero => rfl
  | succ n ih =>
    rw [Nat.succ_mul] at h
    rw [pixelsAt, pixelsAt, Memory.readBytes_eq_of_offsets fun j hj => h j (by omega), ih fun j hj => ?_]
    simpa only [Nat.add_assoc] using h (ch.bytes + j) (by omega)

/-- A count replied by ENC is that of the image's bytes, which stand at the start of `out`. -/
theorem issue_enc_count {s t : State} {pix out : Region} {n : Nat} (h : issue (.enc pix out) s = .next t)
    (hrep : t.reply = .count n) : n = (s.imageBytes pix).length ∧ t.mem.readBytes out.base n = s.imageBytes pix := by
  obtain ⟨⟨-, -, -, hdisj⟩, ⟨u, r⟩, hx, rfl⟩ := issue_next_success h fun e he => nomatch hrep.symm.trans he
  obtain rfl : r = .count n := hrep
  have hrun : encImage pix out s = .ok (u, n) := countReply_eq_ok.1 hx
  have hpix : s.cfg.nbytes ≤ pix.len := by
    by_contra hfew
    cases (encImage_too_few_pixels (Nat.lt_of_not_le hfew)).symm.trans hrun
  rcases encImage_cases hdisj hpix with ⟨-, v, hv, hmem⟩ | ⟨-, v, hv⟩
  · obtain ⟨rfl, rfl⟩ := Prod.mk.inj (Except.ok.inj (hv.symm.trans hrun))
    exact ⟨rfl, (Memory.eq_writeBytes_reads hmem).1⟩
  · cases hv.symm.trans hrun

/-- Settles O47: the bytes ENC writes are made of `CFG`, the policy and the pixels alone. -/
theorem encIsAFunctionOfItsPixels : Obligations.EncIsAFunctionOfItsPixels := by
  intro s s' t t' pix pix' out out' n n' hcfg hpolicy hbytes ht hn ht' hn'
  have hpixels : pixelsAt s.cfg.ch s.mem pix.base (s.cfg.w.toNat * s.cfg.h.toNat) =
      pixelsAt s.cfg.ch s'.mem pix'.base (s.cfg.w.toNat * s.cfg.h.toNat) := pixelsAt_eq_of_offsets hbytes
  have himage : s.imageBytes pix = s'.imageBytes pix' := by
    rw [State.imageBytes, State.imageBytes, State.imageOpcodes, State.imageOpcodes, hpixels, hpolicy, hcfg]
  obtain ⟨hcount, hread⟩ := issue_enc_count ht hn
  obtain ⟨hcount', hread'⟩ := issue_enc_count ht' hn'
  obtain rfl : n = n' := by rw [hcount, hcount', himage]
  exact ⟨rfl, by rw [hread, hread', himage]⟩

end Sys2Proof.Machine

/-! ## The decoder reads back what the encoder wrote (46_decoder R299) -/

namespace Sys2Proof

theorem length_encode (i : Instr) : (encode i).length = i.length := by cases i <;> rfl

theorem Instr.length_le_five (i : Instr) : i.length ≤ 5 := by cases i <;> simp [Instr.length]

end Sys2Proof

namespace Sys2Proof.Machine

/-! ### A decoder with input and window before it -/

theorem Memory.readBytes_add (m : Memory) (a j n : Nat) : m.readBytes a (j + n) = m.readBytes a j ++ m.readBytes (a + j) n := by
  induction j generalizing a with
  | zero => simp [Memory.readBytes]
  | succ j ih => simp [Memory.readBytes, Nat.add_right_comm j 1 n, ih, Nat.add_assoc, Nat.add_comm 1]

theorem Memory.take_readBytes (m : Memory) (a n k : Nat) : (m.readBytes a n).take k = m.readBytes a (min k n) := by
  induction n generalizing a k with
  | zero => simp [Memory.readBytes]
  | succ n ih =>
    cases k with
    | zero => simp [Memory.readBytes]
    | succ k => simp [Memory.readBytes, Nat.succ_min_succ, ih]

theorem Memory.drop_readBytes (m : Memory) (a n k : Nat) : (m.readBytes a n).drop k = m.readBytes (a + k) (n - k) := by
  induction n generalizing a k with
  | zero => simp [Memory.readBytes]
  | succ n ih =>
    cases k with
    | zero => simp
    | succ k => simp [Memory.readBytes, ih, Nat.add_assoc, Nat.add_comm 1]

/-- The bytes of `IN` from `IN_POS` on. -/
def State.input (s : State) : List Byte :=
  s.mem.readBytes (s.launch.inBuf.base + s.launch.inPos) (s.launch.inBuf.len - s.launch.inPos)

/-- An opcode is read from the input left, up to the longest opcode's length. -/
theorem opcodeBytes_eq_take (s : State) : s.opcodeBytes = s.input.take 5 :=
  (Memory.take_readBytes ..).symm

/-- The decoder stands at a whole pixel with room for `n` more, before the input `bs`, which the window does not overlap. -/
structure DecReady (s : State) (n : Nat) (bs : List Byte) : Prop where
  whole : s.cfg.ch.bytes ∣ s.launch.pixPos
  room : s.launch.pixPos + n * s.cfg.ch.bytes ≤ s.launch.pixBuf.len
  apart : Disjoint s.launch.inBuf s.launch.pixBuf
  input : s.input = bs

/-- The decoder after the pixels `pxs` from `n` bytes of input. -/
def State.decoded (s : State) (pxs : List Pixel) (n : Nat) (st : StreamState) : State :=
  { s with
    stream := st
    mem := s.mem.writeBytes (s.launch.pixBuf.base + s.launch.pixPos) (pxs.flatMap (Pixel.toBytes s.cfg.ch))
    launch := { s.launch with
      inPos := s.launch.inPos + n
      pixPos := s.launch.pixPos + pxs.length * s.cfg.ch.bytes } }

theorem length_flatMap_toBytes (ch : Channels) (pxs : List Pixel) :
    (pxs.flatMap (Pixel.toBytes ch)).length = pxs.length * ch.bytes := by
  simp [List.length_flatMap]

section
variable {s : State}

theorem decoded_nil (s : State) : s.decoded [] 0 s.stream = s := by
  simp [State.decoded, Memory.writeBytes]

/-- Decoding two stretches of the input one after the other. -/
theorem decoded_decoded (ps qs : List Pixel) (m n : Nat) (st st' : StreamState) :
    (s.decoded ps m st).decoded qs n st' = s.decoded (ps ++ qs) (m + n) st' := by
  have hpos : s.launch.pixPos + (ps ++ qs).length * s.cfg.ch.bytes =
      s.launch.pixPos + ps.length * s.cfg.ch.bytes + qs.length * s.cfg.ch.bytes := by
    rw [List.length_append, Nat.add_mul, Nat.add_assoc]
  simp only [State.decoded, List.flatMap_append, Memory.writeBytes_append, length_flatMap_toBytes, hpos, Nat.add_assoc]

/-- The pixel at `PIX_POS` lies there. -/
theorem DecReady.pixelNumber_mul {n : Nat} {bs : List Byte} (h : DecReady s n bs) :
    s.pixelNumber * s.cfg.ch.bytes = s.launch.pixPos := Nat.div_mul_cancel h.whole

theorem DecReady.roomForPixel {n : Nat} {bs : List Byte} (h : DecReady s (n + 1) bs) : RoomForPixel s := by
  have hroom := h.room
  have hmul := h.pixelNumber_mul
  rw [Nat.succ_mul] at hroom
  rw [roomForPixel_iff, hasPixel_iff]
  omega

/-- One pixel stored is one pixel decoded. -/
theorem DecReady.decoded_one {n : Nat} {bs : List Byte} (h : DecReady s n bs) (px : Pixel) (st : StreamState) (len : Nat) :
    ((s.advanceIn len).afterPixel px st).nextPixel = s.decoded [px] len st := by
  have haddr : (s.advanceIn len).pixelAddr (s.advanceIn len).pixelNumber = s.launch.pixBuf.base + s.launch.pixPos :=
    congrArg (s.launch.pixBuf.base + ·) h.pixelNumber_mul
  rw [State.afterPixel, haddr]
  simp [State.nextPixel, State.decoded]

/-- Decoding leaves the rest of the input and the rest of the room. -/
theorem DecReady.decoded {n : Nat} {bs more : List Byte} {pxs : List Pixel} (h : DecReady s (pxs.length + n) (bs ++ more))
    (st : StreamState) : DecReady (s.decoded pxs bs.length st) n more := by
  have hroom := h.room
  rw [Nat.add_mul] at hroom
  refine ⟨(Nat.dvd_add_right h.whole).2 (Nat.dvd_mul_left ..), ?_, h.apart, ?_⟩
  · show s.launch.pixPos + pxs.length * s.cfg.ch.bytes + n * s.cfg.ch.bytes ≤ s.launch.pixBuf.len
    omega
  · have hdrop : s.input.drop bs.length = more := by rw [h.input, List.drop_left]
    rw [State.input, Memory.drop_readBytes, Nat.sub_sub, Nat.add_assoc] at hdrop
    rw [← hdrop]
    refine Memory.readBytes_congr _ _ _ _ fun x hlo hhi => ?_
    simp only [State.decoded] at hlo hhi
    refine Memory.read_writeBytes_outside _ _ _ _ ?_
    have hout := h.apart x
    rw [length_flatMap_toBytes]
    omega

end

/-! ### What a stretch of the input decodes to -/

/-- From the stream state `st`, the bytes `bs` decode to the pixels `pxs` and leave `st'`: wherever a decoder with that stream state
stands before those bytes, whatever follows them, with room for the pixels. -/
def Decodes (ch : Channels) (st : StreamState) (bs : List Byte) (pxs : List Pixel) (st' : StreamState) : Prop :=
  ∀ (s : State) (n : Nat) (more : List Byte), s.cfg.ch = ch → s.stream = st → DecReady s (pxs.length + n) (bs ++ more) →
    decLoop pxs.length s = .ok (s.decoded pxs bs.length st')

theorem Decodes.nil {ch : Channels} {st : StreamState} : Decodes ch st [] [] st := by
  rintro s n more - rfl -
  exact congrArg Except.ok (decoded_nil s).symm

theorem Decodes.append {ch : Channels} {st st' st'' : StreamState} {bs bs' : List Byte} {ps qs : List Pixel}
    (h : Decodes ch st bs ps st') (h' : Decodes ch st' bs' qs st'') : Decodes ch st (bs ++ bs') (ps ++ qs) st'' := by
  intro s n more hch hst hready
  rw [List.append_assoc, List.length_append, Nat.add_assoc] at hready
  have hfirst := h s _ _ hch hst hready
  have hsecond := h' (s.decoded ps bs.length st') n more hch rfl (hready.decoded st')
  rw [List.length_append, decLoop_add, hfirst, Attempt.ok_bind, hsecond, decoded_decoded, List.length_append]

/-- A step that stores one pixel. -/
theorem Decodes.one {ch : Channels} {st st' : StreamState} {bs : List Byte} {px : Pixel}
    (h : ∀ s more, s.cfg.ch = ch → s.stream = st → RoomForPixel s → s.input = bs ++ more →
      decStep s = .ok ((s.advanceIn bs.length).afterPixel px st').nextPixel) : Decodes ch st bs [px] st' := by
  intro s n more hch hst hready
  have hroom : RoomForPixel s := DecReady.roomForPixel (n := n) (by rwa [Nat.add_comm] at hready)
  have hstep := h s more hch hst hroom hready.input
  rw [hready.decoded_one] at hstep
  rw [List.length_singleton, decLoop, hstep]
  rfl

/-- A well-formed opcode, whatever follows its bytes. -/
theorem Decodes.opcode {ch : Channels} {st st' : StreamState} {bs : List Byte} {px : Pixel} (hrun : st.run = 0)
    (h : ∀ s, s.cfg.ch = ch → s.stream = st → RoomForPixel s →
      ∃ i, WellFormed i ∧ bs = encode i ∧ exec i s = .next (s.afterPixel px st')) : Decodes ch st bs [px] st' := by
  refine Decodes.one fun s more hch hst hroom hinput => ?_
  obtain ⟨i, hwf, hbs, hexec⟩ := h (s.advanceIn bs.length) hch hst hroom
  have hlen : bs.length ≤ 5 := by
    rw [hbs, length_encode]
    exact i.length_le_five
  have hop : decode s.opcodeBytes = .ok (i, bs.length) := by
    rw [opcodeBytes_eq_take, hinput, List.take_append, List.take_of_length_le hlen, hbs]
    exact decodeOfEncodeIsTheOpcode i _ hwf
  exact decStep_eq_ok.2 (.inr ⟨_, _, hst ▸ hrun, hop, hexec, rfl⟩)

/-- An owed copy of a run, from no input. -/
theorem Decodes.owed_one {ch : Channels} {st : StreamState} (hrun : st.run ≠ 0) :
    Decodes ch st [] [st.prev] { st with run := st.run - 1 } := by
  refine Decodes.one fun s more _ hst hroom _ => decStep_eq_ok.2 (.inl ⟨hst ▸ hrun, _, ?_, rfl⟩)
  subst hst
  exact drain_eq_next.2 ⟨roomForPixel_iff.1 hroom, rfl⟩

/-- All the copies owed. -/
theorem Decodes.owed {ch : Channels} {st : StreamState} {r : Nat} (h : st.run.toNat = r) :
    Decodes ch st [] (List.replicate r st.prev) { st with run := 0 } := by
  induction r generalizing st with
  | zero =>
    have hzero : st.run = 0 := by bv_omega
    rw [← hzero]
    exact .nil
  | succ r ih =>
    have hrest : (st.run - 1).toNat = r := by bv_omega
    exact (Decodes.owed_one (by bv_omega)).append (ih (st := { st with run := st.run - 1 }) hrest)

/-! ### The encoder's output -/

/-- The stream state of a decoder in step with the encoder: the same cache and `PREV`, and no run owed. -/
def StreamState.decoder (e : StreamState) : StreamState := { e with run := 0, started := false }

section
variable {ch : Channels} {policy : Run1Policy} {e : StreamState}

/-- A run as one opcode and the copies it leaves owed. -/
theorem Decodes.run {c : StreamState} {bs : List Byte} {r : BitVec 6} {p : Pixel} {st : StreamState}
    (hone : Decodes ch st bs [p] { c with prev := p, run := r }) :
    Decodes ch st bs (List.replicate (r.toNat + 1) p) { c with prev := p, run := 0 } := by
  have hall := hone.append (Decodes.owed (ch := ch) (st := { c with prev := p, run := r }) rfl)
  rwa [List.append_nil] at hall

/-- The flush of a pending run decodes to the run. -/
theorem flushRun_decodes (hsound : e.Sound ch) :
    Decodes ch e.decoder (flushRun policy ch e).2 (List.replicate e.run.toNat e.prev) (flushRun policy ch e).1.decoder := by
  by_cases hrun : e.run = 0
  · rw [flushRun, if_pos hrun, hrun]
    exact .nil
  · have hone : Decodes ch e.decoder (flushRun policy ch e).2 [e.prev]
        { (flushRun policy ch e).1.decoder with prev := e.prev, run := e.run - 1 } :=
      Decodes.opcode rfl fun s hch hst hroom => by
        obtain ⟨i, hwf, hbytes, hexec⟩ := flushRun_runs (policy := policy) hroom (e := e) (by rw [hst]; rfl) (by rw [hst]; rfl)
          (by rw [hst]; rfl) hrun hsound.runBound
        subst hch
        rw [hst] at hexec
        exact ⟨i, hwf, hbytes, hexec⟩
    have hlen : (e.run - 1).toNat + 1 = e.run.toNat := by bv_omega
    have hall := hone.run
    rw [hlen] at hall
    rwa [← flushRun_prev policy ch e] at hall ⊢

/-- A pixel of its own decodes to itself. -/
theorem encFresh_decodes {px : Pixel} (halpha : ch = .three → px.a = e.prev.a) :
    Decodes ch e.decoder (encFresh ch px e).2 [px] (encFresh ch px e).1.decoder := by
  refine Decodes.opcode rfl fun s hch hst hroom => ?_
  subst hch
  obtain ⟨i, hwf, hbytes, hexec⟩ := encFresh_runs hroom (e := e) (by rw [hst]; rfl) (by rw [hst]; rfl) (by rwa [hst])
  rw [hst] at hexec
  refine ⟨i, hwf, hbytes, hexec.trans ?_⟩
  simp only [StreamState.decoder, encFresh_prev]

/-- The pixels of the run that is pending. -/
def StreamState.owed (e : StreamState) : List Pixel := List.replicate e.run.toNat e.prev

theorem StreamState.owed_of_run_eq_zero (h : e.run = 0) : e.owed = [] := by rw [StreamState.owed, h]; rfl

/-- Equal pixels that agree on alpha where none is tracked are one pixel. -/
theorem Pixel.eq_of_eqIn {p q : Pixel} (h : p.eqIn ch q = true) (halpha : ch = .three → p.a = q.a) : p = q :=
  (Pixel.fromSlot_eq_of_alpha halpha (Pixel.eqIn_refl ch p)).symm.trans (Pixel.fromSlot_eq h)

/-- One pixel of the encoder: its bytes decode to the pixels that were pending and the new one, but for those pending after it. -/
theorem encPixel_decodes {px : Pixel} (hsound : e.Sound ch) (hpx : ch = .three → px.a = 255) :
    ∃ pxs, Decodes ch e.decoder (encPixel policy ch px e).2 pxs (encPixel policy ch px e).1.decoder ∧
      e.owed ++ [px] = pxs ++ (encPixel policy ch px e).1.owed := by
  have halpha (hch : ch = .three) : px.a = e.prev.a := (hpx hch).trans (hsound.alphaOpaque hch).symm
  cases heq : px.eqIn ch e.prev with
  | true =>
    obtain rfl := Pixel.eq_of_eqIn heq halpha
    have hle := hsound.runBound
    rw [encPixel_of_eq heq]
    by_cases hfull : e.run.toNat = 61
    · have hone : Decodes ch e.decoder (encode (.run 62)) [e.prev] { e.decoder with prev := e.prev, run := 61 } :=
        Decodes.opcode rfl fun s _ hst hroom =>
          ⟨.run 62, by decide, rfl, produce_eq_next.2 ⟨roomForPixel_iff.1 hroom, by rw [hst]; rfl⟩⟩
      rw [accumulate_full hfull]
      refine ⟨_, hone.run, ?_⟩
      rw [StreamState.owed_of_run_eq_zero (e := { e with run := 0 }) rfl, StreamState.owed, hfull]
      rfl
    · have hnext : (e.run + 1).toNat = e.run.toNat + 1 := by bv_omega
      rw [accumulate_below (by omega)]
      refine ⟨[], Decodes.nil, ?_⟩
      rw [StreamState.owed, StreamState.owed, hnext, List.replicate_succ']
      rfl
  | false =>
    obtain ⟨-, -, hemits⟩ := differentPixelIsEmitted policy ch px e
    obtain ⟨-, -, -, hrun⟩ := hemits heq
    rw [StreamState.owed_of_run_eq_zero hrun, encPixel_of_ne heq]
    refine ⟨_, (flushRun_decodes hsound).append (encFresh_decodes fun hch => ?_), (List.append_nil _).symm⟩
    rw [halpha hch, flushRun_prev]

/-- The pixels of an image, one after another. -/
theorem encPixels_decodes {pxs : List Pixel} (hsound : e.Sound ch) (hpxs : ∀ px ∈ pxs, ch = .three → px.a = 255) :
    ∃ out, Decodes ch e.decoder (encPixels policy ch pxs e).2 out (encPixels policy ch pxs e).1.decoder ∧
      e.owed ++ pxs = out ++ (encPixels policy ch pxs e).1.owed := by
  induction pxs generalizing e with
  | nil => exact ⟨[], Decodes.nil, List.append_nil _⟩
  | cons px pxs ih =>
    have hpx := hpxs px (by simp)
    obtain ⟨first, hfirst, hsplit⟩ := encPixel_decodes (policy := policy) hsound hpx
    obtain ⟨rest, hrest, hsplit'⟩ := ih (encPixel_sound (policy := policy) hpx hsound) fun q hq => hpxs q (by simp [hq])
    refine ⟨first ++ rest, hfirst.append hrest, ?_⟩
    rw [List.append_cons, hsplit, List.append_assoc, hsplit', List.append_assoc]
    rfl

end

/-- A whole opcode stream decodes to the pixels it was made from. -/
theorem opcodeStream_decodes (policy : Run1Policy) {ch : Channels} {pxs : List Pixel}
    (hpxs : ∀ px ∈ pxs, ch = .three → px.a = 255) :
    ∃ st, Decodes ch StreamState.initial (opcodeStream policy ch pxs) pxs st := by
  have hsound := StreamState.initial_sound ch
  obtain ⟨out, hout, hsplit⟩ := encPixels_decodes (policy := policy) hsound hpxs
  have hall := hout.append (flushRun_decodes (policy := policy) (encPixels_sound (policy := policy) hpxs hsound))
  rw [← StreamState.owed, ← hsplit] at hall
  exact ⟨_, hall⟩

/-! ### The commands -/

/-- The bytes of the pixels of a buffer are the buffer's. -/
theorem flatMap_toBytes_pixelsAt (ch : Channels) (m : Memory) (base n : Nat) :
    (pixelsAt ch m base n).flatMap (Pixel.toBytes ch) = m.readBytes base (n * ch.bytes) := by
  induction n generalizing base with
  | zero => rw [Nat.zero_mul]; rfl
  | succ n ih =>
    have hpx : (Pixel.ofBytes ch (m.readBytes base ch.bytes)).toBytes ch = m.readBytes base ch.bytes := by cases ch <;> rfl
    rw [pixelsAt, List.flatMap_cons, hpx, ih, Nat.succ_mul, Nat.add_comm (n * ch.bytes),
      Memory.readBytes_add]

/-- DEC_BODY of an input that begins with the opcode stream of the pixels of `CFG`, into a buffer of their size: it succeeds and writes
them. -/
theorem decBody_opcodeStream {s : State} {inp pix : Region} {policy : Run1Policy} {pxs : List Pixel} {more : List Byte}
    (hinput : s.mem.readBytes inp.base inp.len = opcodeStream policy s.cfg.ch pxs ++ more)
    (hpxs : ∀ px ∈ pxs, s.cfg.ch = .three → px.a = 255) (hcount : pxs.length = s.cfg.w.toNat * s.cfg.h.toNat)
    (hlen : pix.len = s.cfg.nbytes) (hdisj : Disjoint inp pix) :
    ∃ u c, decBody inp pix s = .ok (u, c) ∧ u.status = .ok ∧ u.cfg = s.cfg ∧
      u.mem = s.mem.writeBytes pix.base (pxs.flatMap (Pixel.toBytes s.cfg.ch)) := by
  have hnbytes : s.cfg.nbytes = pxs.length * s.cfg.ch.bytes := by rw [hcount]; rfl
  rw [decBody, if_neg (by omega)]
  split
  · next hzero =>
    have hbytes := length_flatMap_toBytes s.cfg.ch pxs
    rw [← hnbytes, hzero] at hbytes
    rw [List.eq_nil_of_length_eq_zero hbytes]
    exact ⟨_, _, rfl, rfl, rfl, rfl⟩
  · obtain ⟨st, hdec⟩ := opcodeStream_decodes policy hpxs
    have hready : DecReady ((streamInit .dec s).start inp Region.empty (pix.sub 0 s.cfg.nbytes)) (pxs.length + 0)
        (opcodeStream policy s.cfg.ch pxs ++ more) := by
      refine ⟨dvd_zero _, ?_, hdisj.mono inp.within_refl (Region.sub_within (by omega)), hinput⟩
      rw [Nat.add_zero, start_cfg, streamInit_cfg, ← hnbytes]
      exact (Nat.zero_add _).le
    have hloop := hdec _ 0 more (by rfl) (by rfl) hready
    have hturns : (pix.sub 0 s.cfg.nbytes).len / (streamInit .dec s).cfg.ch.bytes = pxs.length :=
      (Header.nbytes_div_bytes s.cfg).trans hcount.symm
    rw [decRange, hturns, hloop]
    exact ⟨_, _, rfl, rfl, rfl, rfl⟩

theorem hdrEnc_params {s : State} {out : Region} {x : State × Nat} (hx : hdrEnc out s = .ok x) : x.1.params = s.params := by
  rcases hdrEnc_cases s out with ⟨-, t, ht, hsame, -⟩ | ⟨-, he⟩
  · obtain rfl := Except.ok.inj (ht.symm.trans hx)
    exact hsame.params
  · cases he.symm.trans hx

theorem encRange_params {s : State} {pix out : Region} {x : State × Nat} (h : Disjoint pix out)
    (hx : encRange pix out s = .ok x) : x.1.params = s.params := by
  rcases encRange_cases s pix out h with ⟨t, ht, hsame, -⟩ | ⟨t, he, -⟩
  · obtain rfl := Except.ok.inj (ht.symm.trans hx)
    exact hsame.params
  · cases he.symm.trans hx

theorem encFinish_params {s : State} {out : Region} {x : State × Nat} (hx : encFinish out s = .ok x) :
    x.1.params = s.params := by
  rcases encFinish_cases s out with ⟨-, t, ht, hsame, -⟩ | ⟨-, he⟩
  · obtain rfl := Except.ok.inj (ht.symm.trans hx)
    exact hsame.params
  · cases he.symm.trans hx

theorem encImage_params {s : State} {pix out : Region} {x : State × Nat} (h : Disjoint pix out)
    (hx : encImage pix out s = .ok x) : x.1.params = s.params := by
  unfold encImage at hx
  split at hx
  · cases hx
  split at hx
  · cases hx
  next hpix hout =>
  obtain ⟨a, ha, hx⟩ := Attempt.bind_eq_ok.1 hx
  obtain ⟨b, hb, hx⟩ := Attempt.bind_eq_ok.1 hx
  obtain ⟨c, hc, hx⟩ := Attempt.bind_eq_ok.1 hx
  obtain rfl := Except.ok.inj hx
  have hapart := h.mono (Region.sub_within (r := pix) (o := 0) (len := s.cfg.nbytes) (by omega))
    (Region.sub_within (r := out) (o := hdrLen) le_rfl)
  exact (encFinish_params hc).trans ((encRange_params hapart hb).trans (hdrEnc_params ha))

/-- ENC keeps the open parameters and leaves no stream open. -/
theorem issue_enc_params {s t : State} {pix out : Region} {n : Nat} (h : issue (.enc pix out) s = .next t)
    (hrep : t.reply = .count n) : t.params = s.params ∧ t.dir = .none := by
  obtain ⟨⟨-, -, -, hdisj⟩, ⟨u, r⟩, hx, rfl⟩ := issue_next_success h fun e he => nomatch hrep.symm.trans he
  obtain rfl : r = .count n := hrep
  have hrun : encImage pix out s = .ok (u, n) := countReply_eq_ok.1 hx
  refine ⟨encImage_params hdisj hrun, ?_⟩
  rcases encImage_ends s hdisj with ⟨x, hx, hok⟩ | ⟨e, v, hv, -⟩
  · obtain rfl := Except.ok.inj (hx.symm.trans hrun)
    exact hok.dir
  · cases hv.symm.trans hrun

/-- Settles O48: the header ENC wrote parses to `CFG`, the opcode stream after it decodes to the pixels encoded, and their bytes are the
buffer's. -/
theorem decodeOfEncodeIsTheImage : Obligations.DecodeOfEncodeIsTheImage := by
  intro s t pix out back n ht hrep hback hin hpix hdisj
  obtain ⟨hn, hread⟩ := issue_enc_count ht hrep
  obtain ⟨hparams, hdir⟩ := issue_enc_params ht hrep
  have hacc : Accepted (.dec ⟨out.base, n⟩ back) t := ⟨hdir, hparams ▸ hin, hparams ▸ hpix, hdisj⟩
  have hn14 : 14 ≤ n := by rw [hn, length_imageBytes]; omega
  have hlen : s.cfg.toBytes.length = 14 := rfl
  have hheader : t.mem.readBytes out.base 14 = s.cfg.toBytes := by
    have htake := congrArg (List.take 14) hread
    rwa [Memory.take_readBytes, Nat.min_eq_left hn14, State.imageBytes, List.append_assoc, List.take_left' hlen] at htake
  have hbody : t.mem.readBytes (out.base + 14) (n - 14) = s.imageOpcodes pix ++ trailer := by
    have hdrop := congrArg (List.drop 14) hread
    rwa [Memory.drop_readBytes, State.imageBytes, List.append_assoc, List.drop_left' hlen] at hdrop
  have hparse : parseHeader n (t.mem.readBytes out.base hdrLen) = .ok s.cfg :=
    (congrArg (parseHeader n) hheader).trans (parseHeader_toBytes hn14 s.cfg)
  obtain ⟨u, c, hu, hstatus, hcfg, hmem⟩ := decBody_opcodeStream
    (s := ((t.start ⟨out.base, n⟩ Region.empty Region.empty).advanceIn hdrLen).loadHeader s.cfg)
    (inp := Region.sub ⟨out.base, n⟩ hdrLen (n - hdrLen)) (pix := back) hbody (fun _ => pixelsAt_opaque) (length_pixelsAt ..) hback
    (hdisj.mono (Region.sub_within le_rfl) back.within_refl)
  have hrun : perform (.dec ⟨out.base, n⟩ back) t = .ok (u, .header s.cfg) := by
    rw [perform, decImage, hdrDec, hparse, Attempt.ok_bind, hu]
    rfl
  refine ⟨_, issue_of_ok hacc hrun, hstatus, rfl, hcfg, fun j hj => ?_⟩
  have hbytes : u.mem = t.mem.writeBytes back.base (s.mem.readBytes pix.base s.cfg.nbytes) :=
    hmem.trans (congrArg _ (flatMap_toBytes_pixelsAt ..))
  show u.mem.read (back.base + j) = _
  rw [hbytes, Memory.read_writeBytes, Memory.length_readBytes, if_pos (by omega), Nat.add_sub_cancel_left,
    Memory.getD_readBytes _ _ _ _ hj]

end Sys2Proof.Machine

/-! ## The six opcodes (46_decoder R284 to R290) -/

namespace Sys2Proof.Machine

/-! ### What a stored pixel leaves -/

section
variable (s : State) (px : Pixel)

/-- Producing a pixel keeps everything but the stream registers and the pixel's own bytes. -/
theorem afterPixel_frame {st : StreamState} (h : st.started = s.stream.started) : OpcodeFrame s (s.afterPixel px st) := by
  refine ⟨h, rfl, rfl, rfl, rfl, rfl, rfl, rfl, rfl, rfl, fun x hx => Memory.read_writeBytes_outside _ _ _ _ ?_⟩
  rwa [Pixel.length_toBytes]

theorem afterAccept_cachedOnly : CachedOnly s (s.afterAccept px) px := by
  intro i
  simp only [← Pixel.hash_val, ← Fin.ext_iff]
  exact StreamState.store_get s.cfg.ch px { s.stream with prev := px } i

/-- A pixel of its own is stored, goes to the slot of its hash, and disturbs nothing else. -/
theorem afterAccept_effect :
    PixelStored s (s.afterAccept px) px ∧ CachedOnly s (s.afterAccept px) px ∧
      (s.afterAccept px).stream.run = s.stream.run ∧ OpcodeFrame s (s.afterAccept px) :=
  ⟨afterPixel_pixelStored s px _, afterAccept_cachedOnly s px, rfl, afterPixel_frame s px rfl⟩

end

/-! ### Results -/

/-- Settles O6: the tag below 0x40 is INDEX of its low bits, and the pixel produced is the slot's. -/
theorem indexOutputsTheSlot : Obligations.IndexOutputsTheSlot := by
  refine ⟨fun b d hb => decode_indexRange hb d, fun i s hroom => ?_⟩
  have hlanes (c : Pixel) : (Pixel.fromSlot s.cfg.ch s.stream.prev c).r = c.r ∧ (Pixel.fromSlot s.cfg.ch s.stream.prev c).g = c.g ∧
      (Pixel.fromSlot s.cfg.ch s.stream.prev c).b = c.b ∧
      (Pixel.fromSlot s.cfg.ch s.stream.prev c).a = if s.cfg.ch = .four then c.a else s.stream.prev.a := by
    cases s.cfg.ch <;> exact ⟨rfl, rfl, rfl, rfl⟩
  obtain ⟨hr, hg, hb, ha⟩ := hlanes s.stream.cache[i]
  exact ⟨_, produce_eq_next.2 ⟨roomForPixel_iff.1 hroom, rfl⟩, hr, hg, hb, ha, afterPixel_pixelStored s _ _, rfl, rfl,
    afterPixel_frame s _ rfl⟩

/-- Settles O7: the tags of DIFF carry three biased fields, and adding a delta to a byte is addition modulo 256. -/
theorem diffAddsTheDeltas : Obligations.DiffAddsTheDeltas :=
  ⟨fun _ d hlo hhi => decode_diffRange ⟨hlo, hhi⟩ d, fun dr dg db s hroom =>
    ⟨_, produce_accept hroom rfl, toNat_add_ofInt _ dr, toNat_add_ofInt _ dg, toNat_add_ofInt _ db, rfl, afterAccept_effect s _⟩⟩

/-- Settles O8: as DIFF, the red and blue deltas being relative to the green one. -/
theorem lumaAddsTheRelativeDeltas : Obligations.LumaAddsTheRelativeDeltas := by
  refine ⟨fun _ x d hlo hhi => decode_lumaRange ⟨hlo, hhi⟩ x d, fun dg drg dbg s hroom =>
    ⟨_, produce_accept hroom rfl, ?_, toNat_add_ofInt _ dg, ?_, rfl, afterAccept_effect s _⟩⟩
  · rw [Int.add_assoc]
    exact toNat_add_ofInt _ (dg + drg)
  · rw [Int.add_assoc]
    exact toNat_add_ofInt _ (dg + dbg)

/-- Settles O9: the tags of RUN carry the payload, which is what `RUN` is left with. -/
theorem runOutputsOneCopyAndOwesTheRest : Obligations.RunOutputsOneCopyAndOwesTheRest := by
  refine ⟨fun _ d hlo hhi => decode_runRange ⟨hlo, hhi⟩ d, fun len s hwf hroom => ?_⟩
  have hlen : (BitVec.ofNat 6 (len - 1)).toNat + 1 = len := by
    obtain ⟨hlo, hhi⟩ := Instr.wf_run.1 hwf
    rw [BitVec.toNat_ofNat]
    omega
  exact ⟨_, produce_eq_next.2 ⟨roomForPixel_iff.1 hroom, rfl⟩, hlen, afterPixel_pixelStored s _ _, rfl, rfl,
    afterPixel_frame s _ rfl⟩

/-- Settles O10: the three literals, over the alpha of `PREV`. -/
theorem rgbSetsTheColour : Obligations.RgbSetsTheColour :=
  ⟨decode_rgb, fun _ _ _ s hroom => ⟨_, produce_accept hroom rfl, rfl, rfl, rfl, rfl, afterAccept_effect s _⟩⟩

/-- Settles O11: the four literals, the alpha kept only where it is tracked. -/
theorem rgbaSetsColourAndAlpha : Obligations.RgbaSetsColourAndAlpha := by
  refine ⟨decode_rgba, fun r g b a s hroom => ?_⟩
  have hlanes : (s.stream.prev.setRgba s.cfg.ch r g b a).r = r ∧ (s.stream.prev.setRgba s.cfg.ch r g b a).g = g ∧
      (s.stream.prev.setRgba s.cfg.ch r g b a).b = b ∧
      (s.stream.prev.setRgba s.cfg.ch r g b a).a = if s.cfg.ch = .four then a else s.stream.prev.a := by
    cases s.cfg.ch <;> exact ⟨rfl, rfl, rfl, rfl⟩
  obtain ⟨hr, hg, hb, ha⟩ := hlanes
  exact ⟨_, produce_accept hroom rfl, hr, hg, hb, ha, afterAccept_effect s _⟩

/-! ### Frames -/

/-- DIFF, LUMA, RGB and RGBA, when they go on, have produced a pixel of its own. -/
theorem exec_pixel_next {i : Instr} {s t : State}
    (hi : (∃ dr dg db, i = .diff dr dg db) ∨ (∃ dg drg dbg, i = .luma dg drg dbg) ∨ (∃ r g b, i = .rgb r g b) ∨
      (∃ r g b a, i = .rgba r g b a)) (h : exec i s = .next t) : ∃ px, t = s.afterAccept px := by
  have hproduce {px : Pixel} (h : produce px (s.stream.accept s.cfg.ch px) s = .next t) : ∃ px, t = s.afterAccept px :=
    ⟨px, (produce_eq_next.1 h).2⟩
  obtain ⟨_, _, _, rfl⟩ | ⟨_, _, _, rfl⟩ | ⟨_, _, _, rfl⟩ | ⟨_, _, _, _, rfl⟩ := hi
  · exact hproduce h
  · exact hproduce h
  · exact hproduce h
  · exact hproduce h

/-- Settles O12: the pixel produced changes one slot, `PREV` and its own bytes. -/
theorem pixelOpcodesFrame : Obligations.PixelOpcodesFrame := by
  intro i s t hi h
  obtain ⟨px, rfl⟩ := exec_pixel_next hi h
  obtain ⟨-, hcache, hrun, hstarted, hcfg, hvalid, hdir, hstatus, hlaunch, hpending, hreply, hparams, hdraw, hmem⟩ :=
    afterAccept_effect s px
  refine ⟨hrun, hstarted, fun k hk => ?_, hcfg, hvalid, hdir, hstatus, hlaunch, hpending, hreply, hparams, hdraw, ?_⟩
  · exact (hcache k).trans (if_neg hk)
  · rintro a rfl
    exact hmem

/-- INDEX and RUN leave the cache, and each leaves the register the other writes. -/
theorem exec_index_run_next {i : Instr} {s t : State} (hi : (∃ k, i = .index k) ∨ (∃ len, i = .run len)) (h : exec i s = .next t) :
    ((∃ k, i = .index k) → t.stream.run = s.stream.run) ∧ ((∃ len, i = .run len) → t.stream.prev = s.stream.prev) ∧
      t.stream.cache = s.stream.cache ∧ OpcodeFrame s t := by
  obtain ⟨k, rfl⟩ | ⟨len, rfl⟩ := hi <;> obtain ⟨-, rfl⟩ := produce_eq_next.1 h
  · exact ⟨fun _ => rfl, nofun, rfl, afterPixel_frame s _ rfl⟩
  · exact ⟨nofun, fun _ => rfl, rfl, afterPixel_frame s _ rfl⟩

/-- Settles O13: what INDEX and RUN leave, with the frame every opcode has. -/
theorem indexAndRunFrame : Obligations.IndexAndRunFrame := by
  intro i s t hi h
  obtain ⟨hrun, hprev, hcache, hstarted, hcfg, hvalid, hdir, hstatus, hlaunch, hpending, hreply, hparams, hdraw, hmem⟩ :=
    exec_index_run_next hi h
  refine ⟨hrun, hprev, hcache, hstarted, hcfg, hvalid, hdir, hstatus, hlaunch, hpending, hreply, hparams, hdraw, ?_⟩
  rintro a rfl
  exact hmem

end Sys2Proof.Machine

/-! ## The decoder's step (46_decoder R281 to R283, R293) -/

namespace Sys2Proof

theorem opLen_le_five (t : Byte) : opLen t ≤ 5 := by
  unfold opLen
  split_ifs <;> decide

/-- An opcode decodes with its own length. -/
theorem decode_length {bs : List Byte} {i : Instr} {n : Nat} (h : decode bs = .ok (i, n)) : n = i.length := by
  obtain ⟨-, hn, hbytes⟩ := encodeOfDecodeIsTheBytes bs i n h
  rw [← length_encode, hbytes, List.length_take, Nat.min_eq_left hn]

/-- An opcode is decoded from its own bytes, whatever follows them. -/
theorem decode_of_take_eq {bs bs' : List Byte} {i : Instr} {n : Nat} (h : decode bs = .ok (i, n)) (htake : bs'.take n = bs.take n) :
    decode bs' = .ok (i, n) := by
  obtain ⟨hwf, -, hbytes⟩ := encodeOfDecodeIsTheBytes bs i n h
  rw [← List.take_append_drop n bs', htake, ← hbytes, decodeOfEncodeIsTheOpcode i _ hwf, length_encode, ← decode_length h]

theorem length_bytesOfWord (n w : Nat) : (bytesOfWord n w).length = n := by
  induction n generalizing w with
  | zero => rfl
  | succ n ih => rw [bytesOfWord, List.length_cons, ih]

end Sys2Proof

namespace Sys2Proof.Machine

/-- An opcode is read exactly when a byte is left and the opcode that it announces is there in full. -/
theorem decode_opcodeBytes_eq_ok {s : State} {i : Instr} {n : Nat} :
    decode s.opcodeBytes = .ok (i, n) ↔
      0 < s.launch.inBuf.len - s.launch.inPos ∧
        opLen (s.mem.read (s.launch.inBuf.base + s.launch.inPos)) ≤ s.launch.inBuf.len - s.launch.inPos ∧
        opLen (s.mem.read (s.launch.inBuf.base + s.launch.inPos)) = n ∧
        opOf (s.mem.read (s.launch.inBuf.base + s.launch.inPos)) s.opcodeBytes.tail = i := by
  rw [State.opcodeBytes, maxOpLen]
  cases hleft : s.launch.inBuf.len - s.launch.inPos with
  | zero => simp [Memory.readBytes, decode]
  | succ k =>
    have hfive := opLen_le_five (s.mem.read (s.launch.inBuf.base + s.launch.inPos))
    rw [Nat.succ_min_succ 4 k, Memory.readBytes, decode_cons_eq_ok, Memory.length_readBytes, List.tail_cons]
    constructor
    · rintro ⟨hlen, hrest⟩
      exact ⟨Nat.succ_pos k, by omega, hrest⟩
    · rintro ⟨-, hlen, hrest⟩
      exact ⟨by omega, hrest⟩

/-- Settles O18: with no run owed a step runs the opcode it reads, or raises `NotEnoughData` where none can be read. -/
theorem decStepNeedsAWholeOpcode : Obligations.DecStepNeedsAWholeOpcode := by
  intro s hrun hroom left need
  rcases decStep_cases s (roomForPixel_iff.1 hroom) with ⟨howed, -⟩ | ⟨i, n, t, -, hop, hexec, hstep⟩ | ⟨e, -, hop, hstep⟩
  · exact absurd hrun howed
  · obtain ⟨hpos, hle, rfl, -⟩ := decode_opcodeBytes_eq_ok.1 hop
    refine ⟨fun hshort => by omega, fun _ _ => ⟨_, hstep, ?_⟩⟩
    obtain ⟨-, hstored, -⟩ := exec_next hexec
    rw [hstored]
    exact ⟨rfl, rfl, rfl⟩
  · refine ⟨fun _ => hstep, fun hpos hle => ?_⟩
    cases hop.symm.trans (decode_opcodeBytes_eq_ok.2 ⟨hpos, hle, rfl, rfl⟩)

/-- Settles O15: DEC_RANGE over one pixel is one decode step, which runs the opcode with `IN_POS` past it. -/
theorem stepRunsTheDecodedOpcode : Obligations.StepRunsTheDecodedOpcode := by
  intro s inp pix rest i n hpending hdir hrun hlen hbuf hop
  have hturns : pix.len / s.cfg.ch.bytes = 1 := by rw [hlen, Nat.div_self (Channels.bytes_pos _)]
  have hacc : Accepted (.decRange inp pix) { s with pending := rest } := ⟨⟨hdir, by rw [hlen]; exact Nat.mod_self _⟩, hbuf⟩
  have hin : (State.start { s with pending := rest } inp Region.empty pix).advanceIn n =
      { s with pending := rest, launch := ⟨inp, Region.empty, pix, n, 0, 0⟩ } := by
    simp [State.start, State.advanceIn]
  rw [← hin]
  refine ⟨fun t ht => ?_, exec_of_hasPixel i ?_⟩
  · have hstep : decStep (State.start { s with pending := rest } inp Region.empty pix) = .ok t.nextPixel :=
      decStep_eq_ok.2 (.inr ⟨(i, n), t, hrun, hop, ht, rfl⟩)
    have hpos : t.launch.inPos = n := by
      obtain ⟨-, hstored, -⟩ := exec_next ht
      rw [hstored]
      exact Nat.zero_add n
    have hloop : decLoop (pix.len / s.cfg.ch.bytes) (State.start { s with pending := rest } inp Region.empty pix) =
        .ok t.nextPixel := by
      rw [hturns, decLoop, hstep]
      rfl
    rw [step, hpending]
    exact (issue_decRange_iff.2 ⟨hacc, _, hloop, hpos, rfl⟩).1
  · rw [hasPixel_iff, hin, State.pixelNumber, Nat.zero_div, Nat.zero_mul, Nat.zero_add]
    exact hlen.ge

/-- The word's bytes stand at the start of the input that `withFetchWord` lays. -/
theorem withFetchWord_reads (s : State) (nbits w : Nat) :
    (s.withFetchWord nbits w).mem.readBytes fetchIn.base (min maxOpLen fetchIn.len) = tableBytes nbits w := by
  have hread := Memory.readBytes_writeBytes s.mem fetchIn.base (tableBytes nbits w)
  rw [tableBytes, length_bytesOfWord] at hread
  exact hread

/-- `withFetchWord` makes the command it leaves to the host acceptable. -/
theorem withFetchWord_buffers (s : State) (nbits w : Nat) :
    BufferPreconditions (.decRange fetchIn (fetchPix s)) (s.withFetchWord nbits w) := by
  refine ⟨le_max_right .., le_max_right .., fun a ha => ?_⟩
  simp only [fetchIn, fetchPix] at ha
  omega

theorem withFetchWord_run (s : State) (nbits w : Nat) : (s.withFetchWord nbits w).stream.run = 0 := by
  show (s.openDecode).stream.run = 0
  unfold State.openDecode
  dsimp only
  split <;> rfl

/-- Settles O16: the state `withFetchWord` makes is one where a step runs the decoded opcode. -/
theorem fetchWordRunsItsOpcode : Obligations.FetchWordRunsItsOpcode := by
  intro s nbits w i h
  obtain ⟨n, hop⟩ : ∃ n, decode (tableBytes nbits w) = .ok (i, n) := by
    unfold decodeTableWord at h
    split at h
    · next r hr => exact ⟨r.2, by rw [hr, ← Option.some.inj h]⟩
    · cases h
  obtain rfl := decode_length hop
  obtain ⟨hstep, t, ht⟩ := stepRunsTheDecodedOpcode (s.withFetchWord nbits w) fetchIn (fetchPix s) s.pending i i.length rfl rfl
    (withFetchWord_run s nbits w) rfl (withFetchWord_buffers s nbits w) (by rw [withFetchWord_reads, hop])
  obtain ⟨-, hstored, -⟩ := exec_next ht
  refine ⟨t, _, ht, hstep t ht, rfl, rfl, ?_, rfl⟩
  rw [hstored]
  rfl

/-! ## Whole images (46_decoder R294 to R298) -/

/-- Parsing a header looks at the buffer's length only to see that the 14 bytes are there. -/
theorem parseHeader_of_length {len len' : Nat} {bs : List Byte} {h : Header} (hp : parseHeader len bs = .ok h) (hlen : 14 ≤ len') :
    parseHeader len' bs = .ok h := by
  unfold parseHeader hdrLen at hp ⊢
  split at hp
  · cases hp
  · rwa [if_neg (Nat.not_lt.2 hlen)]

/-- Settles O21: HDR_DEC loads the header, and a body of no bytes is decoded from none. -/
theorem decodeOfZeroAreaImage : Obligations.DecodeOfZeroAreaImage := by
  intro s inp pix h hacc hp harea
  have hnbytes : h.nbytes = 0 := by
    rcases harea with hz | hz <;> simp [Header.nbytes, hz]
  have hrun : perform (.dec inp pix) s =
      .ok (((s.start inp Region.empty Region.empty).advanceIn hdrLen).loadHeader h, .header h) := by
    rw [perform, decImage, hdrDec, hp, Attempt.ok_bind, decBody, loadHeader_cfg, hnbytes, if_neg (Nat.not_lt_zero _), if_pos rfl]
    rfl
  exact issue_of_ok hacc hrun

/-! ### Bytes after the last opcode (R296) -/

/-- The state `s` with `IN` of `len` bytes from the same base, and the reply `r` of the command before. -/
def State.withInput (s : State) (len : Nat) (r : Reply) : State :=
  { s with launch := { s.launch with inBuf := ⟨s.launch.inBuf.base, len⟩ }, reply := r }

section
variable {s t : State} {len : Nat}

theorem exec_withInput {i : Instr} (r : Reply) (h : exec i s = .next t) :
    exec i (s.withInput len r) = .next (t.withInput len r) := by
  have hproduce {px : Pixel} {st : StreamState} (h : produce px st s = .next t) :
      produce px st (s.withInput len r) = .next (t.withInput len r) := by
    obtain ⟨hroom, rfl⟩ := produce_eq_next.1 h
    exact produce_eq_next.2 ⟨hroom, rfl⟩
  cases i <;> exact hproduce h

/-- An opcode that ends within the other length is read there too. -/
theorem decode_withInput {i : Instr} {n : Nat} (r : Reply) (h : decode s.opcodeBytes = .ok (i, n)) (hlen : s.launch.inPos + n ≤ len) :
    decode (s.withInput len r).opcodeBytes = .ok (i, n) := by
  obtain ⟨-, hn, -⟩ := encodeOfDecodeIsTheBytes _ _ _ h
  rw [State.opcodeBytes, Memory.length_readBytes] at hn
  refine decode_of_take_eq h ?_
  have hleft : n ≤ min maxOpLen (len - s.launch.inPos) := by omega
  rw [State.opcodeBytes, State.opcodeBytes, Memory.take_readBytes, Memory.take_readBytes, Nat.min_eq_left hn]
  exact congrArg _ (Nat.min_eq_left hleft)

/-- A decode step never moves `IN_POS` back, and goes on alike with any input in which it ends. -/
theorem decStep_withInput (r : Reply) (h : decStep s = .ok t) :
    s.launch.inPos ≤ t.launch.inPos ∧
      (t.launch.inPos ≤ len → decStep (s.withInput len r) = .ok (t.withInput len r)) := by
  rcases decStep_eq_ok.1 h with ⟨hrun, u, hu, rfl⟩ | ⟨⟨i, n⟩, u, hrun, hop, hu, rfl⟩
  · obtain ⟨hroom, rfl⟩ := drain_eq_next.1 hu
    exact ⟨le_rfl, fun _ => decStep_eq_ok.2 (.inl ⟨hrun, _, drain_eq_next.2 ⟨hroom, rfl⟩, rfl⟩)⟩
  · have hpos : u.nextPixel.launch.inPos = s.launch.inPos + n := by
      obtain ⟨-, hstored, -⟩ := exec_next hu
      rw [hstored]
      rfl
    rw [hpos]
    exact ⟨Nat.le_add_right .., fun hlen =>
      decStep_eq_ok.2 (.inr ⟨(i, n), _, hrun, decode_withInput r hop hlen, exec_withInput r hu, rfl⟩)⟩

theorem decLoop_withInput (r : Reply) (n : Nat) (h : decLoop n s = .ok t) :
    s.launch.inPos ≤ t.launch.inPos ∧
      (t.launch.inPos ≤ len → decLoop n (s.withInput len r) = .ok (t.withInput len r)) := by
  induction n generalizing s with
  | zero =>
    obtain rfl := Except.ok.inj h
    exact ⟨le_rfl, fun _ => rfl⟩
  | succ n ih =>
    obtain ⟨u, hu, hrest⟩ := Attempt.bind_eq_ok.1 h
    obtain ⟨hfirst, hstep⟩ := decStep_withInput (len := len) r hu
    obtain ⟨hmore, hloop⟩ := ih hrest
    refine ⟨hfirst.trans hmore, fun hlen => ?_⟩
    rw [decLoop, hstep (hmore.trans hlen)]
    exact hloop hlen

/-- A body decoded in `c` bytes is decoded alike from any input of that many, whatever command ran before. -/
theorem decBody_withInput {inp pix : Region} {c : Nat} (h : decBody inp pix s = .ok (t, c)) (hlen : c ≤ len) (l : Launch) (r : Reply) :
    ∃ u, decBody ⟨inp.base, len⟩ pix { s with launch := l, reply := r } = .ok (u, c) ∧
      ∀ r', { u with launch := Launch.idle, reply := r' } = { t with launch := Launch.idle, reply := r' } := by
  unfold decBody at h
  split at h
  · cases h
  next hfits =>
  rw [decBody, if_neg hfits]
  split at h
  · next hzero =>
    obtain ⟨rfl, rfl⟩ := Prod.mk.inj (Except.ok.inj h)
    rw [if_pos hzero]
    exact ⟨_, rfl, fun _ => rfl⟩
  · next hnonzero =>
    obtain ⟨x, hx, hret⟩ := Attempt.bind_eq_ok.1 h
    obtain ⟨v, hv, hend⟩ := Attempt.bind_eq_ok.1 hx
    obtain rfl := Except.ok.inj hend
    obtain ⟨rfl, rfl⟩ := Prod.mk.inj (Except.ok.inj hret)
    have hloop := (decLoop_withInput r _ hv).2 hlen
    rw [if_neg hnonzero]
    refine ⟨{ v.withInput len r with dir := .none, status := .ok }, ?_, fun _ => rfl⟩
    exact Attempt.bind_eq_ok.2 ⟨_, Attempt.bind_eq_ok.2 ⟨_, hloop, rfl⟩, rfl⟩

end

/-- HDR_DEC succeeds by loading the header that the input begins with. -/
theorem issue_hdrDec_ok {s t : State} {inp : Region} (h : issue (.hdrDec inp) s = .next t) (hstatus : t.status = .ok) :
    ∃ hdr, parseHeader inp.len (s.mem.readBytes inp.base hdrLen) = .ok hdr ∧
      t = { s.loadHeader hdr with launch := Launch.idle, reply := .header hdr } := by
  obtain ⟨hacc, -⟩ := issue_next_success h fun e he => nomatch hstatus.symm.trans (statusReportsTheOutcome.1 _ s t e h he)
  cases hp : parseHeader inp.len (s.mem.readBytes inp.base hdrLen) with
  | ok hdr => exact ⟨hdr, rfl, (Host.Outcome.next.inj ((issue_hdrDec hacc hp).symm.trans h)).symm⟩
  | error e =>
    have hrun : perform (.hdrDec inp) s = .error (.raised e s) := by
      rw [perform, hdrDec, hp]
      rfl
    obtain rfl := Host.Outcome.next.inj ((issue_of_raised hacc hrun).symm.trans h)
    cases hstatus

/-- A count replied by DEC_BODY is the one its pseudocode returned. -/
theorem issue_decBody_count {s t : State} {inp pix : Region} {c : Nat} (h : issue (.decBody inp pix) s = .next t)
    (hrep : t.reply = .count c) :
    ∃ u, decBody inp pix s = .ok (u, c) ∧ t = { u with launch := Launch.idle, reply := .count c } := by
  obtain ⟨-, ⟨u, r⟩, hx, rfl⟩ := issue_next_success h fun e he => nomatch hrep.symm.trans he
  obtain rfl : r = .count c := hrep
  exact ⟨u, countReply_eq_ok.1 hx, rfl⟩

/-- Settles O20: the loop reads no byte after its last opcode, so its input may end or go on there; DEC parses the same header and then
decodes the same body. -/
theorem decodeIgnoresBytesAfterTheLastOpcode : Obligations.DecodeIgnoresBytesAfterTheLastOpcode := by
  refine ⟨fun s t inp pix c len ht hrep hlen hacc => ?_, fun s t u inp pix c len ht hstatus hu hrep hlen hacc => ?_⟩
  · obtain ⟨v, hv, rfl⟩ := issue_decBody_count ht hrep
    obtain ⟨v', hv', hsame⟩ := decBody_withInput hv hlen s.launch s.reply
    rw [issue_of_ok hacc (countReply_eq_ok.2 hv'), hsame]
  · obtain ⟨hdr, hparse, rfl⟩ := issue_hdrDec_ok ht hstatus
    obtain ⟨v, hv, rfl⟩ := issue_decBody_count hu hrep
    obtain ⟨v', hv', hsame⟩ := decBody_withInput hv hlen
      ⟨⟨inp.base, 14 + len⟩, Region.empty, Region.empty, 0 + hdrLen, 0, 0⟩ s.reply
    have hparse' := parseHeader_of_length hparse (Nat.le_add_right 14 len)
    have hrest : Region.sub ⟨inp.base, 14 + len⟩ hdrLen (14 + len - hdrLen) = ⟨inp.base + 14, len⟩ :=
      congrArg (Region.mk _) (Nat.add_sub_cancel_left 14 len)
    have hbody : decBody ⟨inp.base + 14, len⟩ pix
        (((s.start ⟨inp.base, 14 + len⟩ Region.empty Region.empty).advanceIn hdrLen).loadHeader hdr) = .ok (v', c) := hv'
    have hrun : perform (.dec ⟨inp.base, 14 + len⟩ pix) s = .ok (v', .header hdr) := by
      rw [perform, decImage, hdrDec, hparse', Attempt.ok_bind, hrest, hbody]
      rfl
    rw [issue_of_ok hacc hrun, hsame]
    rfl

end Sys2Proof.Machine

/-! ## Refusals and errors (60_exceptions) -/

namespace Sys2Proof.Machine

/-- Settles O49: a precondition that fails refuses the command, and the pseudocode of an accepted one ends in a success or an error. -/
theorem commandsAreRefusedOrComplete : Obligations.CommandsAreRefusedOrComplete := by
  intro c s
  have hends (hacc : Accepted c s) : ∃ t, issue c s = .next t := by
    rcases perform_ends hacc with ⟨x, hx, -⟩ | ⟨e, u, hu, -⟩
    · exact ⟨_, issue_of_ok hacc hx⟩
    · exact ⟨_, issue_of_raised hacc hu⟩
  refine ⟨⟨fun ⟨r, hr⟩ hacc => ?_, issue_refused⟩, hends⟩
  obtain ⟨t, ht⟩ := hends hacc
  cases hr.symm.trans ht

/-- Settles O60: an idle step is the identity, and a host byte write changes host memory and the list of moves. -/
theorem idleBlockHoldsItsState : Obligations.IdleBlockHoldsItsState := by
  refine ⟨fun s h => ?_, fun s a b rest h => ⟨{ s with pending := rest, mem := s.mem.write a b }, ?_, ?_, fun x hx => ?_,
    rfl, rfl, rfl, rfl, rfl, rfl⟩⟩
  · rw [step, h]
  · rw [step, h]
  · rw [Memory.read_write, if_pos rfl]
  · rw [Memory.read_write, if_neg (Ne.symm hx)]

/-! ### Which errors a piece of pseudocode raises -/

/-- Every error the pseudocode `a` raises is one of `es`. -/
def Attempt.RaisesOnly {α : Type} (es : List ErrorCode) (a : Attempt α) : Prop :=
  ∀ e u, a = .error (.raised e u) → e ∈ es

theorem Attempt.RaisesOnly.ok {α : Type} {es : List ErrorCode} {x : α} : Attempt.RaisesOnly es (.ok x) :=
  fun _ _ hu => nomatch hu

theorem Attempt.RaisesOnly.raised {α : Type} {es : List ErrorCode} {e : ErrorCode} {u : State} (h : e ∈ es) :
    Attempt.RaisesOnly es (.error (.raised e u) : Attempt α) := by
  rintro _ _ ⟨⟩
  exact h

theorem Attempt.RaisesOnly.mono {α : Type} {es es' : List ErrorCode} {a : Attempt α} (h : a.RaisesOnly es) (hsub : es ⊆ es') :
    a.RaisesOnly es' := fun e u hu => hsub (h e u hu)

theorem Attempt.RaisesOnly.bind {α β : Type} {es : List ErrorCode} {a : Attempt α} {f : α → Attempt β} (ha : a.RaisesOnly es)
    (hf : ∀ x, (f x).RaisesOnly es) : (a >>= f).RaisesOnly es := by
  intro e u hu
  rcases Attempt.bind_eq_error.1 hu with hu | ⟨x, -, hu⟩
  · exact ha e u hu
  · exact hf x e u hu

theorem Attempt.RaisesOnly.map {α β : Type} {es : List ErrorCode} {a : Attempt α} (ha : a.RaisesOnly es) (f : α → β) :
    Attempt.RaisesOnly es (Except.map f a) := fun e u hu => ha e u (Attempt.map_eq_error.1 hu)

/-! ### The header commands -/

/-- SET_HEADER raises nothing: fields that are not legal are refused. -/
theorem setHeader_raisesOnly {w h : Word32} {ch cs : Nat} {s : State} : (setHeader w h ch cs s).RaisesOnly [] := by
  intro e u hu
  unfold setHeader at hu
  split at hu <;> cases hu

theorem hdrEnc_raisesOnly (out : Region) (s : State) : (hdrEnc out s).RaisesOnly [.outputIsTooSmallE] := by
  rcases hdrEnc_cases s out with ⟨-, t, ht, -⟩ | ⟨-, he⟩
  · rw [ht]; exact .ok
  · rw [he]; exact .raised (List.mem_singleton_self _)

/-- The header faults of 41_header_codec R144. -/
def headerErrors : List ErrorCode := [.notEnoughData, .invalidMagic, .invalidChannelsValue, .invalidColorSpaceValue]

theorem parseHeader_error_mem {len : Nat} {bs : List Byte} {e : ErrorCode} (h : parseHeader len bs = .error e) :
    e ∈ headerErrors := by
  unfold parseHeader at h
  split at h
  · cases h; decide
  split at h
  · cases h; decide
  split at h
  · cases h; decide
  split at h
  · cases h; decide
  · cases h

/-- HDR_DEC fails exactly where its header does not parse, before it has changed anything. -/
theorem hdrDec_eq_error {inp : Region} {s : State} {x : Halt} :
    hdrDec inp s = .error x ↔
      ∃ e, parseHeader inp.len (s.mem.readBytes inp.base hdrLen) = .error e ∧ x = .raised e s := by
  unfold hdrDec
  split
  · next e he => simp [he, eq_comm]
  · next h hh => simp [hh]

theorem hdrDec_raisesOnly (inp : Region) (s : State) : (hdrDec inp s).RaisesOnly headerErrors := by
  intro e u hu
  obtain ⟨e', hp, heq⟩ := hdrDec_eq_error.1 hu
  cases heq
  exact parseHeader_error_mem hp

/-! ### The encoder -/

theorem encRange_raisesOnly {pix out : Region} (s : State) (h : Disjoint pix out) :
    (encRange pix out s).RaisesOnly [.outputIsTooSmallE] := by
  rcases encRange_cases s pix out h with ⟨t, ht, -⟩ | ⟨t, he, -⟩
  · rw [ht]; exact .ok
  · rw [he]; exact .raised (List.mem_singleton_self _)

theorem encFinish_raisesOnly (out : Region) (s : State) : (encFinish out s).RaisesOnly [.outputIsTooSmallE] := by
  rcases encFinish_cases s out with ⟨-, t, ht, -⟩ | ⟨-, he⟩
  · rw [ht]; exact .ok
  · rw [he]; exact .raised (List.mem_singleton_self _)

theorem encImage_raisesOnly {pix out : Region} (s : State) (h : Disjoint pix out) :
    (encImage pix out s).RaisesOnly [.notEnoughPixelData, .outputIsTooSmallE] := by
  have hsub : [ErrorCode.outputIsTooSmallE] ⊆ [.notEnoughPixelData, .outputIsTooSmallE] := by decide
  unfold encImage
  split
  · exact .raised (by decide)
  split
  · exact .raised (by decide)
  next hpix _ =>
  have hapart : Disjoint (pix.sub 0 s.cfg.nbytes) (out.sub hdrLen (out.len - hdrLen)) :=
    h.mono (Region.sub_within (by omega)) (Region.sub_within le_rfl)
  exact ((hdrEnc_raisesOnly _ s).mono hsub).bind fun a => ((encRange_raisesOnly _ hapart).mono hsub).bind fun b =>
    ((encFinish_raisesOnly _ b.1).mono hsub).bind fun c => .ok

/-! ### The decoder -/

theorem decRange_raisesOnly (inp pix : Region) (s : State) : (decRange inp pix s).RaisesOnly [.notEnoughData] := by
  unfold decRange
  rcases decLoop_cases _ (decAt_start s inp pix) with ⟨t, ht, -⟩ | ⟨t, he, -⟩
  · rw [ht]; exact .ok
  · rw [he]; exact .raised (List.mem_singleton_self _)

theorem decBody_of_small {pix : Region} {s : State} (inp : Region) (h : pix.len < s.cfg.nbytes) :
    decBody inp pix s = .error (.raised .outputIsTooSmallD s) := if_pos h

/-- DEC_BODY checks its buffer before it reads any input, so with room only the input can fail (46_decoder R294). -/
theorem decBody_raisesOnly_of_fits {pix : Region} {s : State} (inp : Region) (h : s.cfg.nbytes ≤ pix.len) :
    (decBody inp pix s).RaisesOnly [.notEnoughData] := by
  rw [decBody, if_neg (Nat.not_lt.2 h)]
  split
  · exact .ok
  · exact (decRange_raisesOnly inp _ _).bind fun c => .ok

theorem decBody_raisesOnly (inp pix : Region) (s : State) :
    (decBody inp pix s).RaisesOnly [.outputIsTooSmallD, .notEnoughData] := by
  rcases Nat.lt_or_ge pix.len s.cfg.nbytes with hsmall | hfits
  · rw [decBody_of_small inp hsmall]; exact .raised (by decide)
  · exact (decBody_raisesOnly_of_fits inp hfits).mono (by decide)

theorem decImage_raisesOnly (inp pix : Region) (s : State) : (decImage inp pix s).RaisesOnly (headerErrors ++ [.outputIsTooSmallD]) := by
  have hbody : [.outputIsTooSmallD, .notEnoughData] ⊆ headerErrors ++ [.outputIsTooSmallD] := by decide
  exact ((hdrDec_raisesOnly inp s).mono (List.subset_append_left ..)).bind fun h =>
    ((decBody_raisesOnly _ pix h.1).mono hbody).bind fun b => .ok

/-! ### All commands -/

theorem perform_raisesOnly {c : Command} {s : State} (h : Accepted c s) : (perform c s).RaisesOnly (rowErrors c) := by
  obtain ⟨-, hbuf⟩ := h
  cases c with
  | setHeader => exact setHeader_raisesOnly.map _
  | hdrEnc out => exact (hdrEnc_raisesOnly out s).map _
  | hdrDec inp => exact (hdrDec_raisesOnly inp s).map _
  | encRange pix out => exact (encRange_raisesOnly s hbuf.2.2).map _
  | encFinish out => exact (encFinish_raisesOnly out s).map _
  | enc pix out => exact (encImage_raisesOnly s hbuf.2.2).map _
  | decRange inp pix => exact (decRange_raisesOnly inp pix s).map _
  | decBody inp pix => exact (decBody_raisesOnly inp pix s).map _
  | dec inp pix => exact (decImage_raisesOnly inp pix s).map _
  | reset | getHeader | getStatus | streamInit | streamClose | other => exact fun _ _ hu => nomatch hu

/-- A command that replies with an error has raised it. -/
theorem issue_next_error {c : Command} {s t : State} {e : ErrorCode} (h : issue c s = .next t) (hrep : t.reply = .error e) :
    Accepted c s ∧ ∃ u, perform c s = .error (.raised e u) ∧ Raises c s u ∧ t = raiseError e c.written u := by
  obtain ⟨hacc, ⟨x, -, hc, rfl⟩ | ⟨e', u, hu, hr, rfl⟩⟩ := issue_next h
  · exact absurd hrep (hc.reply e)
  · rw [raiseError_reply] at hrep
    obtain rfl := Reply.error.inj hrep
    exact ⟨hacc, u, hu, hr, rfl⟩

/-- Settles O52: the error a command replies with is one its pseudocode raised, and those are of its row. -/
theorem commandsRaiseOnlyTheirErrors : Obligations.CommandsRaiseOnlyTheirErrors := by
  intro c s t e h hrep
  obtain ⟨hacc, u, hu, -⟩ := issue_next_error h hrep
  exact perform_raisesOnly hacc e u hu

/-- Only DEC can raise an error after it has loaded a header: RESET and SET_HEADER raise none, and HDR_DEC loads the header last. -/
theorem Raises.keeps_header {c : Command} {s u : State} {e : ErrorCode} (hr : Raises c s u) (hacc : Accepted c s)
    (hu : perform c s = .error (.raised e u)) (hdec : ∀ inp pix, c ≠ .dec inp pix) : u.cfg = s.cfg ∧ u.cfgValid = s.cfgValid := by
  have hrow := perform_raisesOnly hacc e u hu
  cases c with
  | reset => exact absurd hrow List.not_mem_nil
  | setHeader => exact absurd hrow List.not_mem_nil
  | hdrDec inp =>
    obtain ⟨_, -, heq⟩ := hdrDec_eq_error.1 (Attempt.map_eq_error.1 hu)
    cases heq
    exact ⟨rfl, rfl⟩
  | dec inp pix => exact absurd rfl (hdec inp pix)
  | _ => exact hr.header rfl

/-- Settles O51: the pseudocode kept its frame up to the error, and raising it writes `STATUS` and `DIR`. -/
theorem errorEndsTheStreamAndKeepsCfg : Obligations.ErrorEndsTheStreamAndKeepsCfg := by
  intro c s t e h hrep
  have hmem := commandsWriteOnlyTheirOutputBuffer c s t h
  obtain ⟨hacc, u, hu, hr, rfl⟩ := issue_next_error h hrep
  refine ⟨raiseError_status .., raiseError_dir .., fun hdec => ?_, hmem⟩
  rw [raiseError_cfg, raiseError_cfgValid]
  exact hr.keeps_header hacc hu hdec

/-! ### The order of the decode errors (R326) -/

theorem decImage_of_parse_error {inp : Region} {s : State} {e : ErrorCode} (pix : Region)
    (h : parseHeader inp.len (s.mem.readBytes inp.base hdrLen) = .error e) :
    decImage inp pix s = .error (.raised e s) := by
  rw [decImage, hdrDec_eq_error.2 ⟨e, h, rfl⟩, Attempt.error_bind]

/-- With a header that parses, DEC is DEC_BODY over the rest of its input, in the state `u` that holds the header. -/
theorem decImage_of_parse_ok {inp : Region} {s : State} {h : Header} (pix : Region)
    (hp : parseHeader inp.len (s.mem.readBytes inp.base hdrLen) = .ok h) :
    ∃ u, u.cfg = h ∧ u.cfgValid = true ∧ u.dir = s.dir ∧
      decImage inp pix s = (decBody (inp.sub hdrLen (inp.len - hdrLen)) pix u).map fun b => (b.1, h) := by
  refine ⟨((s.start inp Region.empty Region.empty).advanceIn hdrLen).loadHeader h, rfl, rfl, rfl, ?_⟩
  rw [decImage, hdrDec, hp, Attempt.ok_bind]
  rfl

/-- With room for the image DEC_BODY succeeds or runs out of input, and keeps the header either way. -/
theorem decBody_cases_of_fits {pix : Region} {s : State} (inp : Region) (hd : s.dir = .none) (h : s.cfg.nbytes ≤ pix.len) :
    (∃ x, decBody inp pix s = .ok x ∧ Succeeded (some pix) .none s x.1) ∨
      ∃ u, decBody inp pix s = .error (.raised .notEnoughData u) ∧ Framed (some pix) s u := by
  rcases decBody_ends s inp pix hd with hok | ⟨e, u, hu, hframe⟩
  · exact .inl hok
  · obtain rfl := List.mem_singleton.1 (decBody_raisesOnly_of_fits inp h e u hu)
    exact .inr ⟨u, hu, hframe⟩

theorem issue_dec_of_parse_error {s : State} {inp pix : Region} {e : ErrorCode} (hacc : Accepted (.dec inp pix) s)
    (hp : parseHeader inp.len (s.mem.readBytes inp.base hdrLen) = .error e) :
    issue (.dec inp pix) s = .next (raiseError e (some pix) s) :=
  issue_of_raised hacc (Attempt.map_eq_error.2 (decImage_of_parse_error pix hp))

/-- DEC after a header that parsed: the size of `PIX` is checked before the body is read, and the header is kept. -/
theorem issue_dec_of_parse_ok {s : State} {inp pix : Region} {h : Header} (hacc : Accepted (.dec inp pix) s)
    (hp : parseHeader inp.len (s.mem.readBytes inp.base hdrLen) = .ok h) :
    ∃ t, issue (.dec inp pix) s = .next t ∧ t.cfg = h ∧ t.cfgValid = true ∧
      (pix.len < h.nbytes → t.status = .error .outputIsTooSmallD) ∧
      (h.nbytes ≤ pix.len → t.status = .ok ∧ t.reply = .header h ∨ t.status = .error .notEnoughData) := by
  have hd : s.dir = .none := hacc.1
  obtain ⟨u, rfl, hvalid, hdir, himage⟩ := decImage_of_parse_ok pix hp
  have hraised {e : ErrorCode} {v : State} (hv : decBody (inp.sub hdrLen (inp.len - hdrLen)) pix u = .error (.raised e v)) :
      issue (.dec inp pix) s = .next (raiseError e (some pix) v) := by
    refine issue_of_raised hacc (Attempt.map_eq_error.2 ?_)
    rw [himage, hv]
    rfl
  rcases Nat.lt_or_ge pix.len u.cfg.nbytes with hsmall | hfits
  · exact ⟨_, hraised (decBody_of_small _ hsmall), rfl, hvalid, fun _ => rfl, fun hle => absurd hle (Nat.not_le.2 hsmall)⟩
  rcases decBody_cases_of_fits (inp.sub hdrLen (inp.len - hdrLen)) (hdir.trans hd) hfits with ⟨x, hx, hok⟩ | ⟨v, hv, hframe⟩
  · have hperform : perform (.dec inp pix) s = .ok (x.1, .header u.cfg) := by
      rw [perform, himage, hx]
      rfl
    exact ⟨_, issue_of_ok hacc hperform, hok.cfg, hok.cfgValid.trans hvalid, fun hlt => absurd hfits (Nat.not_le.2 hlt),
      fun _ => .inl ⟨hok.status, rfl⟩⟩
  · exact ⟨_, hraised hv, hframe.cfg, hframe.cfgValid.trans hvalid, fun hlt => absurd hfits (Nat.not_le.2 hlt), fun _ => .inr rfl⟩

/-- A command whose pseudocode can raise only `NotEnoughData` ends with that or with success. -/
theorem issue_ok_or_notEnoughData {c : Command} {s : State} (hacc : Accepted c s)
    (honly : (perform c s).RaisesOnly [.notEnoughData]) (hgh : c ≠ .getHeader) (hgs : c ≠ .getStatus) :
    ∃ t, issue c s = .next t ∧ (t.status = .ok ∨ t.status = .error .notEnoughData) := by
  rcases perform_ends hacc with ⟨x, hx, hc⟩ | ⟨e, u, hu, -⟩
  · exact ⟨_, issue_of_ok hacc hx, .inl (hc.status hgh hgs)⟩
  · obtain rfl := List.mem_singleton.1 (honly e u hu)
    exact ⟨_, issue_of_raised hacc hu, .inr (raiseError_status ..)⟩

/-- Settles O54: each check raises its error before the next piece of pseudocode runs, and DEC loads its header before the body's. -/
theorem decErrorOrder : Obligations.DecErrorOrder := by
  intro s inp pix
  refine ⟨fun hacc => ⟨fun e he => ?_, fun h hp => ?_⟩, fun hacc => ⟨fun hsmall => ?_, fun hfits => ?_⟩, fun hacc => ?_⟩
  · exact ⟨_, issue_dec_of_parse_error hacc he, rfl, rfl, rfl⟩
  · obtain ⟨t, ht, hcfg, hvalid, htoosmall, hroom⟩ := issue_dec_of_parse_ok hacc hp
    exact ⟨fun hsmall => ⟨t, ht, htoosmall hsmall, hcfg, hvalid⟩, fun hfits => ⟨t, ht, hroom hfits, hcfg, hvalid⟩⟩
  · exact ⟨_, issue_of_raised hacc (countReply_of_raised (decBody_of_small inp hsmall)), rfl⟩
  · exact issue_ok_or_notEnoughData hacc ((decBody_raisesOnly_of_fits inp hfits).map _) nofun nofun
  · exact issue_ok_or_notEnoughData hacc ((decRange_raisesOnly inp pix s).map _) nofun nofun

end Sys2Proof.Machine

/-! ## Reset and the close of a stream (70_reset_and_hazards) -/

namespace Sys2Proof.Machine

/-- R372: STREAM_CLOSE has no precondition, so every state gets its success. -/
theorem issue_streamClose (s : State) :
    issue .streamClose s = .next { streamClose s with launch := Launch.idle, reply := .done } :=
  issue_of_ok ⟨trivial, trivial⟩ rfl

/-- R360: RESET has no precondition either. -/
theorem issue_reset (s : State) : issue .reset s = .next { resetBlock s with launch := Launch.idle, reply := .done } :=
  issue_of_ok ⟨trivial, trivial⟩ rfl

/-- Settles O39: the success of STREAM_CLOSE, with the two registers it writes spelt out. -/
theorem streamCloseEndsTheStream : Obligations.StreamCloseEndsTheStream := issue_streamClose

/-- Settles O40: the state after RESET is the reset block, idle, and each register is read off it. -/
theorem resetCommandClearsControl : Obligations.ResetCommandClearsControl := fun s =>
  ⟨_, issue_reset s, resetBlock_cfgValid s, resetBlock_dir s, resetBlock_status s, rfl, resetBlock_mem s, resetBlock_params s,
    resetBlock_pending s⟩

/-- Settles O59: after power-on no stream is open, so only host memory's form and the idle cursors are in question. -/
theorem resetMeetsTheInvariant : Obligations.ResetMeetsTheInvariant := .of_closed State.reset_mem_wf rfl rfl

end Sys2Proof.Machine
